-- ==== Sys2Proof/Word.lean ====
section
/-! DEFINITION. The word types of ONC (00_scope.md R10, R12): every value is unsigned, every register 8 bits unless
said otherwise, a host address 12 bits, a host transaction 21 bits. -/

namespace Sys2Proof

/-- A byte: a register, a buffer byte, a symbol (00_scope.md R12: Byte and Sym8 are the naturals below 256). -/
abbrev Byte := BitVec 8

/-- A raw value of one symbol, a natural below 64 (00_scope.md R12). -/
abbrev Raw6 := BitVec 6

/-- A host address, a byte address 0x000..0xFFF (20_memory.md R70). -/
abbrev BusAddr := BitVec 12

/-- One host transaction, format BUS (30_encoding.md R96): W bit 20, A bits 19:8, D bits 7:0. -/
abbrev BusWord := BitVec 21

end Sys2Proof
end

