-- ==== Sys2Proof/Syntax.lean ====
section
/-! DEFINITION. The instructions of ONC: the host bus transactions and the commands a write to CMD starts
(00_scope.md R2, 30_encoding.md R95). One constructor for each row of the opcode table. -/

namespace Sys2Proof

/-- The instructions. The nine commands and `illegal` are writes to CMD (address 0x000, 30_encoding.md R98); their
operands are implicit. `hostRd` and `hostWr` are the two bus transactions (30_encoding.md R96). -/
inductive Instr where
  /-- NOP, opcode 0x00 (43_control.md R245). -/
  | nop
  /-- SYM_ENC, opcode 0x01 (40_symbol_codec.md R131). -/
  | symEnc
  /-- SYM_DEC, opcode 0x02 (40_symbol_codec.md R132). -/
  | symDec
  /-- FLD_ENC, opcode 0x03 (40_symbol_codec.md R133). -/
  | fldEnc
  /-- FLD_DEC, opcode 0x04 (40_symbol_codec.md R134). -/
  | fldDec
  /-- STR_ENC, opcode 0x05 (40_symbol_codec.md R135). -/
  | strEnc
  /-- STR_DEC, opcode 0x06 (40_symbol_codec.md R136). -/
  | strDec
  /-- CRC, opcode 0x07 (41_checksum.md R166). -/
  | crc
  /-- PKT_PROC, opcode 0x10 (42_pipeline.md R182). -/
  | pktProc
  /-- ILLEGAL: a write to CMD of an opcode the map of 30_encoding.md R100 does not hold (43_control.md R246). -/
  | illegal (op : Byte)
  /-- HOST_RD of address `a` (43_control.md R240). `d` is the transaction's data field, which a read ignores. -/
  | hostRd (a : BusAddr) (d : Byte)
  /-- HOST_WR of byte `d` to an address `a` other than CMD (43_control.md R241). -/
  | hostWr (a : BusAddr) (d : Byte)
deriving DecidableEq, Repr

end Sys2Proof
end

