-- ==== Sys2Proof/WellFormed.lean ====
section
/-! DEFINITION. Which terms of `Instr` are the reading of a transaction: an illegal opcode is one the opcode map does
not hold, and a plain write is not a write to CMD. -/

namespace Sys2Proof

/-- The opcode map of 30_encoding.md R100 holds 0x00..0x07 and 0x10 and nothing else (R101). -/
def opcodeAssigned (op : Byte) : Bool :=
  decide (op.toNat < 0x08) || decide (op.toNat = 0x10)

/-- Well-formed: `illegal` carries an unassigned opcode (30_encoding.md R101); `hostWr` does not address CMD, whose
writes are the command rows (30_encoding.md R98). -/
def Instr.wf : Instr → Bool
  | .illegal op => !opcodeAssigned op
  | .hostWr a _ => decide (a ≠ 0x000#12)
  | _ => true

end Sys2Proof
end

