-- ==== Sys2Proof/Decode.lean ====
section
/-! DEFINITION. The decoder of host transactions (30_encoding.md R95 to R101) and its encoder. Level 1 is the BUS
word; level 2 is the opcode that a write to address 0x000 carries. Every 21-bit value is a legal transaction (R96), so
the decoder of BUS words is total with no refusal; a number that is no 21-bit word is refused by name. -/

namespace Sys2Proof

/-- Bit W of a BUS word: 1 is a write (30_encoding.md R96). -/
def busIsWrite (w : BusWord) : Bool := w.getLsbD 20

/-- Field A of a BUS word, bits 19:8 (30_encoding.md R96). -/
def busAddr (w : BusWord) : BusAddr := w.extractLsb' 8 12

/-- Field D of a BUS word, bits 7:0 (30_encoding.md R96). -/
def busData (w : BusWord) : Byte := w.extractLsb' 0 8

/-- A BUS word from its three fields (30_encoding.md R96). -/
def busWord (isWrite : Bool) (a : BusAddr) (d : Byte) : BusWord :=
  BitVec.ofBool isWrite ++ a ++ d

/-- The opcode map (30_encoding.md R100, R101). -/
def decodeCommand (op : Byte) : Instr :=
  match op.toNat with
  | 0x00 => .nop
  | 0x01 => .symEnc
  | 0x02 => .symDec
  | 0x03 => .fldEnc
  | 0x04 => .fldDec
  | 0x05 => .strEnc
  | 0x06 => .strDec
  | 0x07 => .crc
  | 0x10 => .pktProc
  | _ => .illegal op

/-- The instruction a BUS word is (30_encoding.md R96, R98): a read, a command (a write to CMD), or a plain write. -/
def decode (w : BusWord) : Instr :=
  if busIsWrite w then
    if busAddr w = 0x000#12 then decodeCommand (busData w) else .hostWr (busAddr w) (busData w)
  else .hostRd (busAddr w) (busData w)

/-- Why a number is not read as a transaction. -/
inductive DecodeReject where
  /-- The number does not fit the 21 bits of format BUS (30_encoding.md R96). -/
  | notABusWord
deriving DecidableEq, Repr

/-- The decoder on any number: its 21 bits are numbered as 30_encoding.md R96 numbers them. -/
def decodeNumber (w : Nat) : Except DecodeReject Instr :=
  if w < 2 ^ 21 then .ok (decode (BitVec.ofNat 21 w)) else .error .notABusWord

/-- The instruction read from the opcode table's numbering of the bits, which is that of 30_encoding.md R96: one
21-bit word, bit 0 the least significant. ONC has no second word and stores no instruction, so `nbits` adds nothing. -/
def decodeTableWord (_nbits w : Nat) : Option Instr :=
  match decodeNumber w with
  | .ok i => some i
  | .error _ => none

/-- The BUS word of a write to CMD that carries opcode `op` (30_encoding.md R98). -/
def commandWord (op : Byte) : BusWord := busWord true 0x000#12 op

/-- The BUS word of an instruction (30_encoding.md R96, R98, R100). -/
def encode : Instr → BusWord
  | .nop => commandWord 0x00#8
  | .symEnc => commandWord 0x01#8
  | .symDec => commandWord 0x02#8
  | .fldEnc => commandWord 0x03#8
  | .fldDec => commandWord 0x04#8
  | .strEnc => commandWord 0x05#8
  | .strDec => commandWord 0x06#8
  | .crc => commandWord 0x07#8
  | .pktProc => commandWord 0x10#8
  | .illegal op => commandWord op
  | .hostRd a d => busWord false a d
  | .hostWr a d => busWord true a d

end Sys2Proof
end

