-- ==== Sys2Proof/Config.lean ====
section
/-! DEFINITION. What is fixed when the hardware is built: the OPEN parameters of 00_scope.md R8, the constraints a
legal ONC meets, the reference instance REF of R9 (a fixture for test vectors, no claim about the wire), and the free
values of the model, which are opaque constants with no body (the time of a command, `openLatency`, stands
after State). -/

namespace Sys2Proof

/-- The sixteen packet kinds, in the numbering of 42_pipeline.md R181. -/
inductive Kind where
  | singleData | singleAck | singleNack | route | routeAck | routeNack
  | block | blockAck | blockNack | blockTerm
  | stream | streamAck | streamNack | streamTerm
  | invite | inviteReq
deriving DecidableEq, Repr

/-- The number of a kind in the table of 42_pipeline.md R181. -/
def Kind.index : Kind → Fin 16
  | .singleData => 0 | .singleAck => 1 | .singleNack => 2 | .route => 3 | .routeAck => 4 | .routeNack => 5
  | .block => 6 | .blockAck => 7 | .blockNack => 8 | .blockTerm => 9
  | .stream => 10 | .streamAck => 11 | .streamNack => 12 | .streamTerm => 13
  | .invite => 14 | .inviteReq => 15

/-- Every kind, in the order of 42_pipeline.md R181. -/
def Kind.all : List Kind :=
  [.singleData, .singleAck, .singleNack, .route, .routeAck, .routeNack, .block, .blockAck, .blockNack, .blockTerm,
   .stream, .streamAck, .streamNack, .streamTerm, .invite, .inviteReq]

/-- The kinds whose variant is Response (42_pipeline.md R181): the only ones RESP_REASON_IDX and RESP_HANDLE_IDX are
used with. -/
def Kind.usesResponse : Kind → Bool
  | .singleAck | .singleNack | .routeAck | .routeNack | .blockAck | .blockNack | .streamAck | .streamNack => true
  | _ => false

/-- The bit order of a checksum (41_checksum.md R160, R161). -/
inductive CrcOrder where
  | forward
  | reflected
deriving DecidableEq, Repr

/-- What a message type selects (00_scope.md R8, MSG_TYPE_MAP). -/
inductive MsgClass where
  | app
  | admin
  | features
  | route
deriving DecidableEq, Repr

/-- A range of bits `hi:lo` (00_scope.md R10). -/
structure BitRange where
  hi : Nat
  lo : Nat
deriving DecidableEq, Repr

/-- Which CIPHER_DEC the hardware is built with (00_scope.md R8): the open one, an uninterpreted function
(`Config.cipherByte`), or the fixture TOY of R9(b), which only the reference instance uses. -/
inductive Cipher where
  | deployed
  | toy
deriving DecidableEq, Repr

/-- The OPEN parameters of 00_scope.md R8, as plain data. -/
structure Params where
  /-- SYM_TABLE: the symbol of each raw value. -/
  symTable : Vector Byte 64
  /-- CRC_POLY. -/
  crcPoly : Byte
  /-- CRC_INIT. -/
  crcInit : Byte
  /-- CRC_ORDER. -/
  crcOrder : CrcOrder
  /-- OFF_RPTR. -/
  offRptr : Nat
  /-- OFF_HCRC. -/
  offHcrc : Nat
  /-- OFF_DST. -/
  offDst : Nat
  /-- OFF_NID. -/
  offNid : Nat
  /-- OFF_SRC. -/
  offSrc : Nat
  /-- OFF_PID. -/
  offPid : Nat
  /-- HDR_ENC_LEN. -/
  hdrEncLen : Nat
  /-- HCRC_COVER. -/
  hcrcCover : List Nat
  /-- PID_MH_BIT. -/
  pidMhBit : Nat
  /-- PID_SA_BIT. -/
  pidSaBit : Nat
  /-- PID_MAP: the kind of each 6-bit kind code, if it has one. -/
  pidMap : Vector (Option Kind) 64
  /-- PLD_ENC_LEN of each kind, by its number. -/
  pldEncLen : Vector Nat 16
  /-- PLD_TRAILER_LEN. -/
  pldTrailerLen : Nat
  /-- HOP_ENC_LEN. -/
  hopEncLen : Nat
  /-- HOPS_BITS. -/
  hopsBits : BitRange
  /-- MAX_HOPS_BITS. -/
  maxHopsBits : BitRange
  /-- PLD_CRC_IDX. -/
  pldCrcIdx : Nat
  /-- MSG_ID_IDX. -/
  msgIdIdx : Nat
  /-- MSG_TYPE_IDX. -/
  msgTypeIdx : Nat
  /-- ADMIN_TYPE_IDX. -/
  adminTypeIdx : Nat
  /-- RESP_REASON_IDX. -/
  respReasonIdx : Nat
  /-- RESP_HANDLE_IDX. -/
  respHandleIdx : Nat
  /-- MSG_TYPE_MAP. -/
  msgTypeMap : Vector (Option MsgClass) 256
  /-- RESP_BYTES. -/
  respBytes : Vector Byte 256
  /-- CIPHER_DEC. -/
  cipher : Cipher
  /-- FULL_ROUNDS. -/
  fullRounds : Nat
  /-- REDUCED_ROUNDS. -/
  reducedRounds : Nat
deriving DecidableEq, Repr

/-- No value stands twice in the list. -/
def distinct {α : Type} [DecidableEq α] : List α → Bool
  | [] => true
  | x :: xs => !xs.contains x && distinct xs

/-- The header fields as (offset, symbol count) (00_scope.md R8; symbol counts of 40_symbol_codec.md R128). -/
def Params.headerFields (p : Params) : List (Nat × Nat) :=
  [(p.offRptr, 2), (p.offHcrc, 2), (p.offDst, 2), (p.offNid, 6), (p.offSrc, 2), (p.offPid, 2)]

/-- No two of the (offset, count) ranges overlap. -/
def disjointRanges : List (Nat × Nat) → Bool
  | [] => true
  | (a, k) :: rs => rs.all (fun r => decide (a + k ≤ r.1) || decide (r.1 + r.2 ≤ a)) && disjointRanges rs

/-- PLD_ENC_LEN(kind). -/
def Params.payloadSymbols (p : Params) (k : Kind) : Nat := p.pldEncLen[k.index]

/-- The length of the cipher region of a payload of kind `k` (42_pipeline.md R199). -/
def Params.regionLen (p : Params) (k : Kind) : Nat := 3 * p.payloadSymbols k / 4 - p.pldTrailerLen

/-- A bit range lies in the decoded hop field of 6*HOP_ENC_LEN bits and is at most 8 bits wide, as the zero extension
to 8 bits of 42_pipeline.md R195 needs (DEDUCED). -/
def BitRange.inHopField (r : BitRange) (hopEncLen : Nat) : Bool :=
  decide (r.lo ≤ r.hi) && decide (r.hi < 6 * hopEncLen) && decide (r.hi - r.lo < 8)

/-- The constraints of 00_scope.md R8. A configuration that breaks one is not a legal ONC (93_implementation_defined.md,
section 3). -/
def Params.legal (p : Params) : Bool :=
  distinct p.symTable.toList
  && decide (p.crcPoly ≠ 0x00#8)
  && decide (16 ≤ p.hdrEncLen)
  && p.headerFields.all (fun f => decide (f.1 + f.2 ≤ p.hdrEncLen))
  && disjointRanges p.headerFields
  && p.hcrcCover.all
      (fun o => decide (o < p.hdrEncLen) && (decide (o < p.offHcrc) || decide (p.offHcrc + 2 ≤ o)))
  && ((decide (p.pidMhBit = 6) && decide (p.pidSaBit = 7)) || (decide (p.pidMhBit = 7) && decide (p.pidSaBit = 6)))
  && distinct (p.pidMap.toList.filterMap id)
  && Kind.all.all
      (fun k => decide (p.payloadSymbols k % 4 = 0) && decide (4 ≤ p.payloadSymbols k)
        && decide (p.pldTrailerLen < 3 * p.payloadSymbols k / 4)
        && decide (p.pldCrcIdx < p.regionLen k) && decide (p.msgIdIdx < p.regionLen k)
        && (!k.usesResponse || (decide (p.respReasonIdx < p.regionLen k) && decide (p.respHandleIdx < p.regionLen k))))
  && decide (p.msgTypeIdx < p.regionLen .singleData)
  && decide (p.adminTypeIdx < p.regionLen .singleData)
  && p.hopsBits.inHopField p.hopEncLen
  && p.maxHopsBits.inHopField p.hopEncLen
  && decide (1 ≤ p.fullRounds) && decide (p.fullRounds ≤ 255)
  && decide (1 ≤ p.reducedRounds) && decide (p.reducedRounds ≤ 255)

/-- Which LATENCY(op, inputs) the hardware is built with (70_reset_and_hazards.md R301,
93_implementation_defined.md U3, U4): the open one, an uninterpreted function (`openLatency`), or a constant, a
fixture for tests; `fixed 0` is the reading R301 allows, "every command as taking one step". -/
inductive Latency where
  | deployed
  | fixed (n : Nat)
deriving DecidableEq, Repr

/-- A legal configuration: the parameters with the proof that they meet 00_scope.md R8, and the time commands take. An
illegal one cannot be built (93_implementation_defined.md section 3: "a model refuses it"). -/
structure Config where
  params : Params
  legal : params.legal = true
  latency : Latency
deriving DecidableEq, Repr

/-- The high nibbles of REF's symbol table (00_scope.md R9(a)). -/
def refHighNibbles : Vector Byte 8 := #v[0xB, 0xC, 0x3, 0xD, 0x5, 0x6, 0x9, 0xA]

/-- The low nibbles of REF's symbol table (00_scope.md R9(a)). -/
def refLowNibbles : Vector Byte 8 := #v[0x4, 0xC, 0x3, 0xA, 0x5, 0x6, 0x9, 0x2]

/-- REF's symbol table: SYM_TABLE(i) = (HN[i >> 3] << 4) | LN[i & 7] (00_scope.md R9(a)). -/
def refSymTable : Vector Byte 64 :=
  Vector.ofFn (fun i : Fin 64 =>
    (refHighNibbles[i.val / 8]'(by omega) <<< 4) ||| refLowNibbles[i.val % 8]'(by omega))

/-- The REF column of 00_scope.md R8 and the values of R9: a fixture for test vectors. -/
def Params.ref : Params where
  symTable := refSymTable
  crcPoly := 0x07#8
  crcInit := 0x00#8
  crcOrder := .forward
  offRptr := 0
  offHcrc := 2
  offDst := 4
  offNid := 6
  offSrc := 12
  offPid := 14
  hdrEncLen := 16
  hcrcCover := [0, 1, 4, 5, 6, 7, 8, 9, 10, 11, 12, 13, 14, 15]
  pidMhBit := 6
  pidSaBit := 7
  pidMap := Vector.ofFn (fun c : Fin 64 => Kind.all[c.val]?)
  pldEncLen := #v[12, 12, 12, 12, 12, 12, 44, 44, 44, 44, 44, 44, 44, 44, 44, 44]
  pldTrailerLen := 1
  hopEncLen := 1
  hopsBits := ⟨5, 3⟩
  maxHopsBits := ⟨2, 0⟩
  pldCrcIdx := 0
  msgIdIdx := 1
  msgTypeIdx := 2
  adminTypeIdx := 3
  respReasonIdx := 2
  respHandleIdx := 3
  msgTypeMap := Vector.ofFn
    (fun t : Fin 256 => ([.app, .admin, .features, .route] : List MsgClass)[t.val]?)
  respBytes := Vector.replicate 256 0x04#8
  cipher := .toy
  fullRounds := 32
  reducedRounds := 8

/-- REF meets the constraints of 00_scope.md R8. -/
theorem Params.ref_legal : Params.ref.legal = true := by decide +kernel

/-- The reference instance REF (00_scope.md R9), every command taking one step (70_reset_and_hazards.md R301). -/
def Config.ref : Config := ⟨Params.ref, Params.ref_legal, .fixed 0⟩

/-- FREE VALUE. The configuration of the hardware at hand: some legal configuration, nothing else is known of it
(00_scope.md R8: a claim about ONC is a claim for every value that meets the constraints). -/
opaque Config.chip [Inhabited Config] : Config

/-- The configuration of the machine after reset: the uninterpreted `Config.chip`. REF only witnesses that a legal
configuration exists; no property of REF carries over. -/
def Config.deployed : Config := @Config.chip ⟨Config.ref⟩

/-- FREE VALUE. Byte `j` of CIPHER_DEC(key, rounds, ct) for the open cipher (00_scope.md R8): arguments key, round
count, ciphertext, j. -/
opaque Config.cipherByte : List Byte → Nat → List Byte → Nat → Byte

/-- FREE VALUE. What the buffer byte at a bus address holds after the given reset (count of resets, address) while
nothing has written it (93_implementation_defined.md U1). -/
opaque Config.ramByte : Nat → Nat → Byte

/-- FREE VALUE. What the n-th read of an unreadable address while BUSY returns (20_memory.md R81,
93_implementation_defined.md U2). -/
opaque Config.busyByte : Nat → Byte

/-- FREE VALUE. What RES register `i` holds after the given reset when the reset abandoned a command that would have
written it (70_reset_and_hazards.md R291, 93_implementation_defined.md U1): arguments count of resets, i. -/
opaque Config.abandonedRes : Nat → Nat → Byte

end Sys2Proof
end

