-- ==== Sys2Proof/Machine/State.lean ====
section
/-! DEFINITION. The state of ONC as plain data (10_state.md R30 to R65), the reasons a step can stop, and the machine
right after reset. -/

namespace Sys2Proof.Machine

/-- Why the machine stops with a fault. It never does, so there is no constructor: every 21-bit value is a legal
transaction (30_encoding.md R96), no access is refused (20_memory.md R73, 43_control.md R240, R241), and a command that
fails reports its error in ERR_CODE and goes on (60_exceptions.md R262). Safe: nothing is hidden behind a fault. -/
inductive Fault where
deriving DecidableEq, Repr

/-- Why the model has no meaning for an instruction. -/
inductive Refusal where
  /-- Raised by an arm of `exec` whose instruction has no meaning yet, and by nothing else; no arm does (safe). -/
  | notModelled (mnemonic : String)
deriving DecidableEq, Repr

/-- The buffers and keyrings as (bus address, byte) pairs, addresses strictly rising (`Memory.wf`). An address that is
not listed holds no value written since reset. -/
abbrev Memory := List Host.Cell

/-- The pipeline result registers, 0x020..0x043 (10_state.md R41 to R55). The DIDs are 12 bits and the NID 36, so that
the unused top bits of their highest bytes read 0 (10_state.md R45, R46). -/
structure PipeRegs where
  /-- FLAGS, 0x020 (10_state.md R41). -/
  flags : Byte
  /-- FIELD_ERR, 0x021 (R42). -/
  fieldErr : Byte
  /-- FAIL_REASON, 0x022 (R43). -/
  failReason : Byte
  /-- PID, 0x023 (R44). -/
  pid : Byte
  /-- KIND, 0x024 (R44). -/
  kind : Byte
  /-- PID_FLAGS, 0x025 (R44). -/
  pidFlags : Byte
  /-- RPTR_DID, 0x026..0x027 (R45). -/
  rptrDid : BitVec 12
  /-- DST_DID, 0x028..0x029 (R45). -/
  dstDid : BitVec 12
  /-- SRC_DID, 0x02A..0x02B (R45). -/
  srcDid : BitVec 12
  /-- NID, 0x02C..0x030 (R46). -/
  nid : BitVec 36
  /-- HCRC_RX, 0x031 (R47). -/
  hcrcRx : Byte
  /-- HCRC_CALC, 0x032 (R47). -/
  hcrcCalc : Byte
  /-- PLD_CRC_RX, 0x033 (R48). -/
  pldCrcRx : Byte
  /-- PLD_CRC_CALC, 0x034 (R48). -/
  pldCrcCalc : Byte
  /-- KEY_IDX, 0x035 (R49). -/
  keyIdx : Byte
  /-- KEY_RING, 0x036 (R49). -/
  keyRing : Byte
  /-- VARIANT, 0x037 (R50). -/
  variant : Byte
  /-- MSG_ID, 0x038 (R51). -/
  msgId : Byte
  /-- MSG_TYPE, 0x039 (R51). -/
  msgType : Byte
  /-- ADMIN_TYPE, 0x03A (R51). -/
  adminType : Byte
  /-- RESP_KIND, 0x03B (R52). -/
  respKind : Byte
  /-- RESP_REASON, 0x03C (R52). -/
  respReason : Byte
  /-- RESP_HANDLE, 0x03D (R52). -/
  respHandle : Byte
  /-- RESP_LEN, 0x03E (R52). -/
  respLen : Byte
  /-- HOPS, 0x03F (R53). -/
  hops : Byte
  /-- MAX_HOPS, 0x040 (R53). -/
  maxHops : Byte
  /-- PLD_LEN, 0x041 (R54). -/
  pldLen : Byte
  /-- ROUNDS, 0x042 (R54). -/
  rounds : Byte
  /-- KEYS_TRIED, 0x043 (R49). -/
  keysTried : Byte
deriving DecidableEq, Repr

/-- What happens at ONC's pins, one event after the other: a host transaction, or the host driving the reset input
(20_memory.md R80, 70_reset_and_hazards.md R290). -/
inductive PortEvent where
  /-- A host transaction (30_encoding.md R96). -/
  | bus (w : BusWord)
  /-- The reset input is asserted (70_reset_and_hazards.md R290). -/
  | assertReset
  /-- The reset input is released. -/
  | releaseReset
deriving DecidableEq, Repr

/-- The state of ONC. The fields after `rstPin` are the model's own (INVENTORY.md, State). -/
structure State where
  /-- The build-time parameters (00_scope.md R8, 30_encoding.md R104); no step changes them. -/
  cfg : Config
  /-- CMD, 0x000 (10_state.md R31). -/
  cmd : Byte
  /-- STATUS, 0x001 (R32): bit 0 BUSY, bit 1 DONE, bit 2 ERR, bit 3 BUSY_WR. BUSY is the sequencer's state (R61). -/
  status : Byte
  /-- ERR_CODE, 0x002 (R33). -/
  errCode : Byte
  /-- CTRL, 0x003 (R34): bit 0 IRQ_EN. -/
  ctrl : Byte
  /-- PKT_LEN, 0x004 (R35). -/
  pktLen : Byte
  /-- KEY_COUNT, 0x005 (R36). -/
  keyCount : Byte
  /-- INV_KEY_COUNT, 0x006 (R37). -/
  invKeyCount : Byte
  /-- IN_FLAGS, 0x007 (R38): bit 0 VALID_DIGITS. -/
  inFlags : Byte
  /-- ARG0..ARG15, 0x008..0x017 (R39). -/
  arg : Vector Byte 16
  /-- RES0..RES7, 0x018..0x01F (R40). -/
  res : Vector Byte 8
  /-- The pipeline result registers, 0x020..0x043 (R55). -/
  pipe : PipeRegs
  /-- PKT_BUF, PLD_BUF, DATA_BUF, KEYRING, INV_KEYRING, OUT_BUF, 0x100..0x6FF (R56 to R60). -/
  mem : Memory
  /-- The opcode of the running command (R61). -/
  seqOp : Byte
  /-- The argument snapshot of the running command (R61, 43_control.md R242). -/
  snap : Vector Byte 16
  /-- The pipeline's stage position (R61, 42_pipeline.md R180). -/
  stage : Fin 10
  /-- The trial-decryption loop index (R61, 42_pipeline.md R201). -/
  loopIdx : Nat
  /-- The reset input is asserted (70_reset_and_hazards.md R290). -/
  rstPin : Bool
  /-- What happens at the pins next. -/
  port : List PortEvent
  /-- The byte the last HOST_RD returned (43_control.md R240). -/
  rdata : Byte
  /-- How many more steps the running command outlasts. -/
  left : Nat
  /-- How many free values reads while BUSY have drawn (20_memory.md R81). -/
  draws : Nat
  /-- How many resets there have been: the index of the free buffer contents. -/
  epoch : Nat
deriving DecidableEq, Repr

/-- FREE VALUE. LATENCY(op, inputs) of the open hardware (70_reset_and_hazards.md R301): how many steps beyond its own
transaction a command with this opcode takes when it starts in this state. The state holds every input of the command
(30_encoding.md R103), the keys among them: nothing says that two packets, or two keys that match, take the same time
(R302, 93_implementation_defined.md U3, U4). -/
opaque openLatency : Byte → State → Nat

/-- The pipeline result registers at their reset values (10_state.md R41 to R55): 0x00 except KIND and KEY_IDX. It is
also what `ClearResults()` leaves (R55). -/
def PipeRegs.cleared : PipeRegs where
  flags := 0x00#8
  fieldErr := 0x00#8
  failReason := 0x00#8
  pid := 0x00#8
  kind := 0xFF#8
  pidFlags := 0x00#8
  rptrDid := 0x000#12
  dstDid := 0x000#12
  srcDid := 0x000#12
  nid := 0#36
  hcrcRx := 0x00#8
  hcrcCalc := 0x00#8
  pldCrcRx := 0x00#8
  pldCrcCalc := 0x00#8
  keyIdx := 0xFF#8
  keyRing := 0x00#8
  variant := 0x00#8
  msgId := 0x00#8
  msgType := 0x00#8
  adminType := 0x00#8
  respKind := 0x00#8
  respReason := 0x00#8
  respHandle := 0x00#8
  respLen := 0x00#8
  hops := 0x00#8
  maxHops := 0x00#8
  pldLen := 0x00#8
  rounds := 0x00#8
  keysTried := 0x00#8

/-- The machine of configuration `c` right after reset, the reset input released (10_state.md R65,
70_reset_and_hazards.md R290). The values of seqOp, snap, stage, loopIdx and of the model's own fields are DESIGN
CHOICES (notes/assumptions 1, 2, 3, 5, 6, 8, 9). -/
def State.resetOf (c : Config) : State where
  cfg := c
  cmd := 0x00#8
  status := 0x00#8
  errCode := 0x00#8
  ctrl := 0x00#8
  pktLen := 0x00#8
  keyCount := 0x00#8
  invKeyCount := 0x00#8
  inFlags := 0x01#8
  arg := Vector.replicate 16 0x00#8
  res := Vector.replicate 8 0x00#8
  pipe := PipeRegs.cleared
  mem := []
  seqOp := 0x00#8
  snap := Vector.replicate 16 0x00#8
  stage := 0
  loopIdx := 0
  rstPin := false
  port := []
  rdata := 0x00#8
  left := 0
  draws := 0
  epoch := 0

/-- The machine right after reset, of a configuration about which nothing is known but that it is legal, the time its
commands take included (93_implementation_defined.md U3). -/
def State.reset : State := State.resetOf Config.deployed

end Sys2Proof.Machine
end

