-- ==== Sys2Proof/Machine/Ops.lean ====
section
/-! DEFINITION. The named operations over the memory, the registers and the address map (20_memory.md R70 to R81,
10_state.md sections 2 to 5), and the reporting of an error: what a command leaves (`Effect`), written once. -/

namespace Sys2Proof.Machine

/-! ### The memory -/

/-- The canonical form: addresses strictly rising. An unlisted address holds no value, so no entry equals it. -/
def Memory.wf : Memory → Bool
  | [] => true
  | (a, _) :: m => m.all (fun c => decide (a < c.1)) && Memory.wf m

/-- The byte written at an address since reset, if there is one. -/
def Memory.read? : Memory → Nat → Option Byte
  | [], _ => none
  | (b, v) :: m, a => if a = b then some v else Memory.read? m a

/-- MemWrite of one byte (20_memory.md R72), keeping the addresses rising. -/
def Memory.write : Memory → Nat → Byte → Memory
  | [], a, v => [(a, v)]
  | (b, w) :: m, a, v =>
    if a < b then (a, v) :: (b, w) :: m
    else if a = b then (a, v) :: m
    else (b, w) :: Memory.write m a v

/-- Several writes, the first of the list first. -/
def Memory.writeAll (m : Memory) (cells : List Host.Cell) : Memory :=
  cells.foldl (fun m c => Memory.write m c.1 c.2) m

/-- Consecutive bytes from an address on, byte 0 first (20_memory.md R76). -/
def cellsAt (addr : Nat) (bytes : List Byte) : List Host.Cell :=
  (List.range bytes.length).zip bytes |>.map (fun c => (addr + c.1, c.2))

/-! ### The address map (20_memory.md R71) -/

/-- PKT_BUF (10_state.md R56). -/
def pktBufBase : Nat := 0x100
/-- PLD_BUF (10_state.md R57). -/
def pldBufBase : Nat := 0x200
/-- DATA_BUF (10_state.md R58). -/
def dataBufBase : Nat := 0x300
/-- KEYRING (10_state.md R59). -/
def keyringBase : Nat := 0x400
/-- INV_KEYRING (10_state.md R59). -/
def invKeyringBase : Nat := 0x500
/-- OUT_BUF (10_state.md R60). -/
def outBufBase : Nat := 0x600

/-- The address lies in one of the six buffers and keyrings. -/
def isBufferAddr (a : Nat) : Bool := decide (0x100 ≤ a) && decide (a < 0x700)

/-- The address lies in a buffer the host may write: PKT_BUF, DATA_BUF, KEYRING or INV_KEYRING (20_memory.md R71). -/
def isHostWritableBufferAddr (a : Nat) : Bool :=
  isBufferAddr a && !(decide (0x200 ≤ a) && decide (a < 0x300)) && decide (a < 0x600)

/-- KEYRING_MAX (00_scope.md R7). -/
def keyringMax : Nat := 16

/-! ### Reading -/

/-- MemRead of one buffer byte: what was written there since reset, or else the free contents of
93_implementation_defined.md U1. -/
def State.readByte (s : State) (a : Nat) : Byte :=
  (Memory.read? s.mem a).getD (Config.ramByte s.epoch a)

/-- The bytes of a buffer from index `off` on, `n` of them (00_scope.md R11: `BUF[i]`). -/
def State.bufBytes (s : State) (base off n : Nat) : List Byte :=
  (List.range n).map (fun i => s.readByte (base + off + i))

/-- The bytes of a value in a register file, least significant first (20_memory.md R75). -/
def bytesLE (n : Nat) (v : Nat) : List Byte :=
  (List.range n).map (fun i => BitVec.ofNat 8 (v / 256 ^ i))

/-- The pipeline result registers in address order from 0x020 (20_memory.md R71). The reserved bits of PID_FLAGS read 0
(10_state.md R30, R44). -/
def PipeRegs.bytes (p : PipeRegs) : List Byte :=
  [p.flags, p.fieldErr, p.failReason, p.pid, p.kind, p.pidFlags &&& 0x03#8]
  ++ bytesLE 2 p.rptrDid.toNat ++ bytesLE 2 p.dstDid.toNat ++ bytesLE 2 p.srcDid.toNat ++ bytesLE 5 p.nid.toNat
  ++ [p.hcrcRx, p.hcrcCalc, p.pldCrcRx, p.pldCrcCalc, p.keyIdx, p.keyRing, p.variant, p.msgId, p.msgType, p.adminType,
      p.respKind, p.respReason, p.respHandle, p.respLen, p.hops, p.maxHops, p.pldLen, p.rounds, p.keysTried]

/-- The registers in address order from 0x000 to 0x043 (20_memory.md R71). Reserved bits read 0 (10_state.md R30). -/
def State.regBytes (s : State) : List Byte :=
  [s.cmd, s.status &&& 0x0F#8, s.errCode, s.ctrl &&& 0x01#8, s.pktLen, s.keyCount, s.invKeyCount, s.inFlags &&& 0x01#8]
  ++ s.arg.toList ++ s.res.toList ++ s.pipe.bytes

/-- The byte the address map holds at an address: a register, a buffer byte, or 0x00 at a reserved address
(43_control.md R240, 20_memory.md R74). It is what a host read returns while IDLE. -/
def State.peek (s : State) (a : Nat) : Byte :=
  if isBufferAddr a then s.readByte a else s.regBytes.getD a 0x00#8

/-! ### The sequencer -/

/-- The sequencer is BUSY (10_state.md R32, R61). -/
def State.busy (s : State) : Bool := s.status.getLsbD 0

/-! ### What a command leaves -/

/-- The values of ERR_CODE (60_exceptions.md R261). -/
inductive ErrCode where
  | ok | illegalCmd | badArg | range | invalidSymbol | fieldRange | badInput | tooShort
deriving DecidableEq, Repr

/-- The code of an error (60_exceptions.md R261). -/
def ErrCode.code : ErrCode → Byte
  | .ok => 0x00#8
  | .illegalCmd => 0x01#8
  | .badArg => 0x02#8
  | .range => 0x03#8
  | .invalidSymbol => 0x04#8
  | .fieldRange => 0x05#8
  | .badInput => 0x06#8
  | .tooShort => 0x07#8

/-- The working record of PKT_PROC: the pipeline result registers, the accumulator of valid_decode
(42_pipeline.md R197), the stage position and the loop index (10_state.md R61). -/
structure PipeRun where
  regs : PipeRegs
  decodeOk : Bool
  stage : Fin 10
  loopIdx : Nat
deriving DecidableEq, Repr

/-- What one command leaves: its error code, the RES registers and the buffer bytes it writes, and for PKT_PROC the
pipeline results. It is one state transformation between start and completion (43_control.md R242). -/
structure Effect where
  err : ErrCode := .ok
  res : List (Nat × Byte) := []
  mem : List Host.Cell := []
  pipe : Option PipeRun := none
deriving DecidableEq, Repr

/-- `raise ERR(code)` with no other write (60_exceptions.md R262, 43_control.md R247). -/
def raiseErr (e : ErrCode) : Effect := { err := e }

/-- `raise ERR(code)` after RES7 received the index of the first invalid symbol (43_control.md R247). -/
def raiseAtSymbol (i : Nat) : Effect := { err := .invalidSymbol, res := [(7, BitVec.ofNat 8 i)] }

/-- Writes to RES registers, the first of the list first (10_state.md R40). -/
def writeRes (r : Vector Byte 8) (ws : List (Nat × Byte)) : Vector Byte 8 :=
  ws.foldl (fun r w => r.setIfInBounds w.1 w.2) r

/-- A command's writes, all of them but ERR_CODE and STATUS. -/
def State.applyEffect (s : State) (e : Effect) : State :=
  { s with
    res := writeRes s.res e.res
    mem := Memory.writeAll s.mem e.mem
    pipe := match e.pipe with
      | some p => p.regs
      | none => s.pipe
    stage := match e.pipe with
      | some p => p.stage
      | none => s.stage
    loopIdx := match e.pipe with
      | some p => p.loopIdx
      | none => s.loopIdx }

end Sys2Proof.Machine
end

