-- ==== Sys2Proof/Machine/Operands.lean ====
section
/-! DEFINITION. The operand forms of the commands (30_encoding.md R97, R103): byte, wide, offset and mode operands, all
taken from the ARG snapshot. -/

namespace Sys2Proof.Machine

/-- A byte operand ARGn of the snapshot (30_encoding.md R97). -/
def State.byteArg (s : State) (n : Fin 16) : Byte := s.snap[n]

/-- A byte operand as a natural: a count, a width, or an offset operand, never scaled (30_encoding.md R97). -/
def State.natArg (s : State) (n : Fin 16) : Nat := (s.byteArg n).toNat

/-- The value of bytes stored least significant first: sum of b(i) * 256^i (30_encoding.md R97). -/
def valueLE : List Byte → Nat
  | [] => 0
  | b :: bs => b.toNat + 256 * valueLE bs

/-- The 48-bit wide operand ARG1..ARG6 of FLD_ENC (30_encoding.md R103). -/
def State.fieldValueArg (s : State) : Nat :=
  valueLE [s.byteArg 1, s.byteArg 2, s.byteArg 3, s.byteArg 4, s.byteArg 5, s.byteArg 6]

/-- The bit-order mode operand of CRC: bit 0 selects, the other bits must be zero (30_encoding.md R97, R103). -/
def crcOrderOf (b : Byte) : Option CrcOrder :=
  if b = 0x00#8 then some .forward else if b = 0x01#8 then some .reflected else none

/-- The buffer select operand of CRC (30_encoding.md R103). -/
def crcBufferOf (b : Byte) : Option Nat :=
  [dataBufBase, pktBufBase, pldBufBase, outBufBase][b.toNat]?

/-- The symbol count of a field of `w` bits: ceil(w/6) (40_symbol_codec.md R125). -/
def symbolCount (w : Nat) : Nat := (w + 5) / 6

/-- The range of `n` bytes from index `off` lies inside a 256-byte buffer (30_encoding.md R103). -/
def fitsBuffer (off n : Nat) : Bool := decide (off + n ≤ 256)

end Sys2Proof.Machine
end

