-- ==== Sys2Proof/Machine/Checksum.lean ====
section
/-! DEFINITION. The checksum engine (41_checksum.md): the CRC-8 function in both bit orders and the effect of the CRC
command. -/

namespace Sys2Proof.Machine

/-- One bit of the FORWARD register (41_checksum.md R160). -/
def crcBitForward (poly r : Byte) : Byte := if r.getLsbD 7 then (r <<< 1) ^^^ poly else r <<< 1

/-- One bit of the REFLECTED register; `rpoly` is the bit-reversed polynomial (41_checksum.md R161). -/
def crcBitReflected (rpoly r : Byte) : Byte := if r.getLsbD 0 then (r >>> 1) ^^^ rpoly else r >>> 1

/-- One bit of the register in an order (41_checksum.md R160, R161). -/
def crcBit (poly : Byte) : CrcOrder → Byte → Byte
  | .forward, r => crcBitForward poly r
  | .reflected, r => crcBitReflected poly.reverse r

/-- One data byte: XOR it in and step eight bits (41_checksum.md R160, R161). -/
def crcByte (poly : Byte) (order : CrcOrder) (r b : Byte) : Byte := Nat.repeat (crcBit poly order) 8 (r ^^^ b)

/-- Crc8(c0, order, d) (41_checksum.md R160, R161). -/
def crc8 (poly c0 : Byte) (order : CrcOrder) (d : List Byte) : Byte := d.foldl (crcByte poly order) c0

/-- CRC (41_checksum.md R166). -/
def crcEffect (s : State) : Effect :=
  match crcOrderOf (s.byteArg 1), crcBufferOf (s.byteArg 2) with
  | none, _ => raiseErr .badArg
  | some _, none => raiseErr .badArg
  | some order, some base =>
    let a := s.natArg 3
    let n := s.natArg 4
    if !fitsBuffer a n then raiseErr .badArg
    else { res := [(0, crc8 s.cfg.params.crcPoly (s.byteArg 0) order (s.bufBytes base a n))] }

end Sys2Proof.Machine
end

