-- ==== Sys2Proof/Machine/Codec.lean ====
section
/-! DEFINITION. The symbol codec (40_symbol_codec.md): Enc6, Dec8, fields and strings, and the effects of the six codec
commands. -/

namespace Sys2Proof.Machine

/-! ### The symbol table -/

/-- Enc6(r) = SYM_TABLE(r) (40_symbol_codec.md R120). -/
def enc6 (t : Vector Byte 64) (r : Raw6) : Byte := t[r.toNat]

/-- Dec8(s): the raw value whose symbol is `s`, or none for an invalid symbol (40_symbol_codec.md R121). -/
def dec8 (t : Vector Byte 64) (s : Byte) : Option Raw6 :=
  ((List.range 64).find? (fun r => t[r]? == some s)).map (BitVec.ofNat 6)

/-- Dec8 of symbols in order: the groups, or the index of the first invalid symbol (40_symbol_codec.md R126, R129). -/
def decodeGroups (t : Vector Byte 64) : List Byte → Except Nat (List Raw6)
  | [] => .ok []
  | s :: ss =>
    match dec8 t s with
    | none => .error 0
    | some g =>
      match decodeGroups t ss with
      | .error i => .error (i + 1)
      | .ok gs => .ok (g :: gs)

/-- 6-bit groups joined, the first most significant: X := (X << 6) | g (40_symbol_codec.md R124, R126). -/
def joinGroups (gs : List Raw6) : Nat := gs.foldl (fun x g => x * 64 + g.toNat) 0

/-- The `k` groups of a value of 6k bits, most significant first (40_symbol_codec.md R125). -/
def splitGroups (k x : Nat) : List Raw6 :=
  (List.range k).map (fun i => BitVec.ofNat 6 (x / 64 ^ (k - 1 - i)))

/-- Bytes joined, the first most significant (40_symbol_codec.md R130). -/
def joinBytes (bs : List Byte) : Nat := bs.foldl (fun x b => x * 256 + b.toNat) 0

/-- The `m` bytes of a value of 8m bits, most significant first (40_symbol_codec.md R129). -/
def splitBytes (m x : Nat) : List Byte :=
  (List.range m).map (fun j => BitVec.ofNat 8 (x / 256 ^ (m - 1 - j)))

/-! ### Fields and strings -/

/-- FieldEncode(w, x): none is the error RANGE, a value that does not fit (40_symbol_codec.md R125). -/
def fieldEncode (t : Vector Byte 64) (w x : Nat) : Option (List Byte) :=
  if x < 2 ^ w then some ((splitGroups (symbolCount w) x).map (enc6 t)) else none

/-- Why a field does not decode (40_symbol_codec.md R126). -/
inductive FieldError where
  /-- The symbol at this index is invalid. -/
  | invalidSymbol (i : Nat)
  /-- A pad bit is 1. -/
  | fieldRange
deriving DecidableEq, Repr

/-- FieldDecode(w, s) (40_symbol_codec.md R126): an invalid symbol is reported ahead of a pad error. -/
def fieldDecode (t : Vector Byte 64) (w : Nat) (syms : List Byte) : Except FieldError Nat :=
  match decodeGroups t syms with
  | .error i => .error (.invalidSymbol i)
  | .ok gs => if joinGroups gs < 2 ^ w then .ok (joinGroups gs) else .error .fieldRange

/-- StringDecode(s): the bytes, or the index of the first invalid symbol (40_symbol_codec.md R129). -/
def stringDecode (t : Vector Byte 64) (syms : List Byte) : Except Nat (List Byte) :=
  match decodeGroups t syms with
  | .error i => .error i
  | .ok gs => .ok (splitBytes (3 * syms.length / 4) (joinGroups gs))

/-- StringEncode(b) (40_symbol_codec.md R130). -/
def stringEncode (t : Vector Byte 64) (bs : List Byte) : List Byte :=
  (splitGroups (4 * bs.length / 3) (joinBytes bs)).map (enc6 t)

/-! ### The effects of the commands -/

/-- The symbol table of the configuration. -/
def State.symTable (s : State) : Vector Byte 64 := s.cfg.params.symTable

/-- SYM_ENC (40_symbol_codec.md R131). -/
def symEncEffect (s : State) : Effect :=
  if 64 ≤ s.natArg 0 then raiseErr .range
  else { res := [(0, enc6 s.symTable (BitVec.ofNat 6 (s.natArg 0)))] }

/-- SYM_DEC (40_symbol_codec.md R132). -/
def symDecEffect (s : State) : Effect :=
  match dec8 s.symTable (s.byteArg 0) with
  | none => raiseErr .invalidSymbol
  | some r => { res := [(0, r.zeroExtend 8)] }

/-- FLD_ENC (40_symbol_codec.md R133). -/
def fldEncEffect (s : State) : Effect :=
  let w := s.natArg 0
  let o := s.natArg 7
  let k := symbolCount w
  if !(decide (1 ≤ w) && decide (w ≤ 48)) then raiseErr .badArg
  else if !fitsBuffer o k then raiseErr .badArg
  else
    match fieldEncode s.symTable w s.fieldValueArg with
    | none => raiseErr .range
    | some syms => { res := [(0, BitVec.ofNat 8 k)], mem := cellsAt (outBufBase + o) syms }

/-- FLD_DEC (40_symbol_codec.md R134). -/
def fldDecEffect (s : State) : Effect :=
  let w := s.natArg 0
  let o := s.natArg 7
  let k := symbolCount w
  if !(decide (1 ≤ w) && decide (w ≤ 48)) then raiseErr .badArg
  else if !fitsBuffer o k then raiseErr .badArg
  else
    match fieldDecode s.symTable w (s.bufBytes dataBufBase o k) with
    | .error (.invalidSymbol i) => raiseAtSymbol i
    | .error .fieldRange => raiseErr .fieldRange
    | .ok x => { res := (List.range 6).zip (bytesLE 6 x) ++ [(6, BitVec.ofNat 8 k), (7, 0x00#8)] }

/-- STR_ENC (40_symbol_codec.md R135). -/
def strEncEffect (s : State) : Effect :=
  let m := s.natArg 0
  let a := s.natArg 1
  let b := s.natArg 2
  let n := 4 * m / 3
  if !(decide (m % 3 = 0) && decide (3 ≤ m) && decide (m ≤ 189)) then raiseErr .badArg
  else if !fitsBuffer a m then raiseErr .badArg
  else if !fitsBuffer b n then raiseErr .badArg
  else
    { res := [(0, BitVec.ofNat 8 n)],
      mem := cellsAt (outBufBase + b) (stringEncode s.symTable (s.bufBytes dataBufBase a m)) }

/-- STR_DEC (40_symbol_codec.md R136). -/
def strDecEffect (s : State) : Effect :=
  let n := s.natArg 0
  let a := s.natArg 1
  let b := s.natArg 2
  let m := 3 * n / 4
  if !(decide (n % 4 = 0) && decide (4 ≤ n) && decide (n ≤ 252)) then raiseErr .badArg
  else if !fitsBuffer a n then raiseErr .badArg
  else if !fitsBuffer b m then raiseErr .badArg
  else
    match stringDecode s.symTable (s.bufBytes dataBufBase a n) with
    | .error i => raiseAtSymbol i
    | .ok out =>
      { res := [(0, BitVec.ofNat 8 m), (7, 0x00#8)], mem := cellsAt (outBufBase + b) out }

end Sys2Proof.Machine
end

