-- ==== Sys2Proof/Machine/Flags.lean ====
section
/-! DEFINITION. Every flag computation: the STATUS bits of a command's life (10_state.md R32, 43_control.md R241 to
R244), the IRQ output (60_exceptions.md R266) and the bits of FLAGS, FIELD_ERR and PID_FLAGS (10_state.md R41 to R44). -/

namespace Sys2Proof.Machine

/-- The bit `i` of a byte set to 1. -/
def setBit (b : Byte) (i : Nat) : Byte := b ||| (0x01#8 <<< i)

/-- The byte whose bit 0 is `b`. -/
def boolByte (b : Bool) : Byte := if b then 0x01#8 else 0x00#8

/-- STATUS at the start of a command: DONE and ERR cleared, BUSY set, BUSY_WR kept (43_control.md R242). -/
def statusStart (st : Byte) : Byte := (st &&& ~~~0x06#8) ||| 0x01#8

/-- STATUS at the completion of a command: BUSY 0, DONE 1, ERR 1 exactly when ERR_CODE is not 0x00
(43_control.md R243). -/
def statusComplete (st : Byte) (code : Byte) : Byte :=
  (st &&& ~~~0x07#8) ||| 0x02#8 ||| (if code = 0x00#8 then 0x00#8 else 0x04#8)

/-- STATUS after a host write of `d` to it: bits 3:1 are cleared where `d` is 1, BUSY is read-only
(43_control.md R241). -/
def statusW1C (st d : Byte) : Byte := st &&& ~~~(d &&& 0x0E#8)

/-- STATUS after a host write that was dropped because the sequencer is BUSY (43_control.md R244). -/
def statusBusyWrite (st : Byte) : Byte := st ||| 0x08#8

/-- STATUS.DONE (10_state.md R32). -/
def State.done (s : State) : Bool := s.status.getLsbD 1

/-- CTRL.IRQ_EN (10_state.md R34). -/
def State.irqEn (s : State) : Bool := s.ctrl.getLsbD 0

/-- The IRQ output, active high and level-sensitive (60_exceptions.md R266). -/
def State.irq (s : State) : Bool := s.irqEn && s.done

/-- The number of valid_digits in FLAGS (10_state.md R41). -/
def flagValidDigits : Nat := 0
/-- The number of valid_decode in FLAGS (10_state.md R41). -/
def flagValidDecode : Nat := 1
/-- The number of valid_header_checksum in FLAGS (10_state.md R41). -/
def flagValidHeaderChecksum : Nat := 2
/-- The number of valid_pid in FLAGS (10_state.md R41). -/
def flagValidPid : Nat := 3
/-- The number of valid_decrypt in FLAGS (10_state.md R41). -/
def flagValidDecrypt : Nat := 4
/-- The number of valid_payload_checksum in FLAGS (10_state.md R41). -/
def flagValidPayloadChecksum : Nat := 5
/-- The number of valid in FLAGS (10_state.md R41). -/
def flagValid : Nat := 6
/-- The number of parse_err in FLAGS (10_state.md R41). -/
def flagParseErr : Nat := 7

/-- Bit `i` of FLAGS set to 1. -/
def PipeRegs.setFlag (p : PipeRegs) (i : Nat) : PipeRegs := { p with flags := setBit p.flags i }

/-- Bits 0 to 5 of FLAGS are all 1 (10_state.md R41, 42_pipeline.md R209). -/
def allSubFlags (flags : Byte) : Bool := decide (flags &&& 0x3F#8 = 0x3F#8)

/-- Bit `i` of FIELD_ERR set to 1 (10_state.md R42). -/
def PipeRegs.setFieldErr (p : PipeRegs) (i : Nat) : PipeRegs := { p with fieldErr := setBit p.fieldErr i }

/-- The number of HOP in FIELD_ERR (10_state.md R42). -/
def fieldErrHop : Nat := 6
/-- The number of PLD in FIELD_ERR (10_state.md R42). -/
def fieldErrPld : Nat := 7

/-- PID_FLAGS: bit 1 SA, bit 0 MH (10_state.md R44, 42_pipeline.md R190). -/
def pidFlagsOf (mh sa : Bool) : Byte := (boolByte sa <<< 1) ||| boolByte mh

/-- The values of FAIL_REASON (60_exceptions.md R263). -/
inductive FailReason where
  | none | hdrDecode | hdrChecksum | pidUnknown | lenMismatch | hopDecode | pldDecode | decrypt | parse | aborted
deriving DecidableEq, Repr

/-- The code of a pipeline failure (60_exceptions.md R263). -/
def FailReason.code : FailReason → Byte
  | .none => 0x00#8
  | .hdrDecode => 0x01#8
  | .hdrChecksum => 0x02#8
  | .pidUnknown => 0x03#8
  | .lenMismatch => 0x04#8
  | .hopDecode => 0x05#8
  | .pldDecode => 0x06#8
  | .decrypt => 0x07#8
  | .parse => 0x08#8
  | .aborted => 0x09#8

/-- `fail STAGE(reason)`: FAIL_REASON keeps the first failure (42_pipeline.md R184). -/
def PipeRegs.fail (p : PipeRegs) (r : FailReason) : PipeRegs :=
  if p.failReason = 0x00#8 then { p with failReason := r.code } else p

end Sys2Proof.Machine
end

