-- ==== Sys2Proof/Machine/Pipeline.lean ====
section
/-! DEFINITION. The packet pipeline PKT_PROC (42_pipeline.md): its ten stages, trial decryption and variant dispatch, as
one effect. Every stage is a function of its own over the working record `PipeRun`. -/

namespace Sys2Proof.Machine

/-- The configuration's parameters (00_scope.md R8). -/
def State.params (s : State) : Params := s.cfg.params

/-- Bytes off..off+n of the packet (10_state.md R56). -/
def State.pktBytes (s : State) (off n : Nat) : List Byte := s.bufBytes pktBufBase off n

/-- A register of the working record changed. -/
def PipeRun.mapRegs (p : PipeRun) (f : PipeRegs → PipeRegs) : PipeRun := { p with regs := f p.regs }

/-- The working record enters a stage (10_state.md R61, 42_pipeline.md R180). -/
def PipeRun.enter (p : PipeRun) (n : Fin 10) : PipeRun := { p with stage := n }

/-- A decode of this run failed: valid_decode will be 0 (42_pipeline.md R197). -/
def PipeRun.decodeFailed (p : PipeRun) : PipeRun := { p with decodeOk := false }

/-- The working record after ClearResults (42_pipeline.md R183), at stage 0. -/
def PipeRun.start : PipeRun := { regs := PipeRegs.cleared, decodeOk := true, stage := 0, loopIdx := 0 }

/-! ### Packet kinds (42_pipeline.md R181) -/

/-- The KIND register code of a kind. -/
def kindCode (k : Kind) : Byte := BitVec.ofNat 8 k.index

/-- The kinds that use the invite keyring (42_pipeline.md R200). -/
def kindIsInvite : Kind → Bool
  | .invite | .inviteReq => true
  | _ => false

/-- The kinds that use REDUCED_ROUNDS (42_pipeline.md R200). -/
def kindIsStream : Kind → Bool
  | .stream | .streamAck | .streamNack | .streamTerm => true
  | _ => false

/-- Is a Response an ack or a nack (42_pipeline.md R208). -/
inductive RespKind where
  | ack
  | nack
deriving DecidableEq, Repr

/-- The RESP_KIND code (10_state.md R52). -/
def RespKind.code : RespKind → Byte
  | .ack => 0x01#8
  | .nack => 0x02#8

/-! ### Stage 0 (42_pipeline.md R185) -/

/-- The abort of stage 0, the first check that fails. -/
def stage0Abort (s : State) : Option ErrCode :=
  if s.pktLen = 0x00#8 then some .tooShort
  else if s.inFlags.getLsbD 0 = false then some .badInput
  else if s.pktLen.toNat < s.params.hdrEncLen then some .tooShort
  else none

/-! ### Stage 1 (42_pipeline.md R186, R187) -/

/-- The header fields in the order stage 1 decodes them (42_pipeline.md R186). -/
inductive HdrField where
  | rptr | hcrc | dst | nid | src | pid
deriving DecidableEq, Repr

/-- Every header field, in the order of 42_pipeline.md R186. -/
def HdrField.all : List HdrField := [.rptr, .hcrc, .dst, .nid, .src, .pid]

/-- The field's bit in FIELD_ERR (10_state.md R42). -/
def HdrField.bit : HdrField → Nat
  | .rptr => 0 | .hcrc => 1 | .dst => 2 | .nid => 3 | .src => 4 | .pid => 5

/-- The field's raw width W_f (42_pipeline.md R186, 40_symbol_codec.md R128). -/
def HdrField.width : HdrField → Nat
  | .rptr => 12 | .hcrc => 8 | .dst => 12 | .nid => 36 | .src => 12 | .pid => 8

/-- The field's offset OFF_f (00_scope.md R8). -/
def HdrField.offset (p : Params) : HdrField → Nat
  | .rptr => p.offRptr | .hcrc => p.offHcrc | .dst => p.offDst | .nid => p.offNid | .src => p.offSrc | .pid => p.offPid

/-- FieldDecode of `w` bits at offset `off` of the packet (42_pipeline.md R186, R195). -/
def State.pktField (s : State) (w off : Nat) : Option Nat :=
  (fieldDecode s.symTable w (s.pktBytes off (symbolCount w))).toOption

/-- The value of a header field, if it decodes. -/
def State.hdrValue (s : State) (f : HdrField) : Option Nat := s.pktField f.width (f.offset s.params)

/-- FIELD_ERR[5:0]: the bit of each header field that does not decode (42_pipeline.md R186). -/
def State.hdrFieldErr (s : State) : Byte :=
  HdrField.all.foldl (fun e f => if (s.hdrValue f).isNone then setBit e f.bit else e) 0x00#8

/-- The value written for a header field: 0 if it does not decode (42_pipeline.md R187). -/
def State.hdrReg (s : State) (f : HdrField) (n : Nat) : BitVec n := BitVec.ofNat n ((s.hdrValue f).getD 0)

/-- Stage 1: header field decode (42_pipeline.md R186, R187). -/
def stage1 (s : State) (p : PipeRun) : PipeRun :=
  let e := s.hdrFieldErr
  let p := (p.enter 1).mapRegs (fun r =>
    { r with
      fieldErr := e
      rptrDid := s.hdrReg .rptr 12
      dstDid := s.hdrReg .dst 12
      srcDid := s.hdrReg .src 12
      nid := s.hdrReg .nid 36
      pid := s.hdrReg .pid 8
      hcrcRx := s.hdrReg .hcrc 8 })
  if e = 0x00#8 then p else p.decodeFailed.mapRegs (fun r => r.fail .hdrDecode)

/-! ### Stage 2 (42_pipeline.md R188) -/

/-- The header checksum ONC computes, over HCRC_COVER in list order (42_pipeline.md R188, 41_checksum.md R165). -/
def State.hdrCrc (s : State) : Byte :=
  crc8 s.params.crcPoly s.params.crcInit s.params.crcOrder
    (s.params.hcrcCover.map (fun i => s.readByte (pktBufBase + i)))

/-- Stage 2: header checksum (42_pipeline.md R188). -/
def stage2 (s : State) (p : PipeRun) : PipeRun :=
  let p := (p.enter 2).mapRegs (fun r => { r with hcrcCalc := s.hdrCrc })
  if p.regs.fieldErr.getLsbD HdrField.hcrc.bit = false ∧ p.regs.hcrcRx = p.regs.hcrcCalc then
    p.mapRegs (fun r => r.setFlag flagValidHeaderChecksum)
  else p.mapRegs (fun r => r.fail .hdrChecksum)

/-! ### Stages 3 and 4 (42_pipeline.md R190 to R194) -/

/-- PID_MAP of a kind code, the PID's low 6 bits (42_pipeline.md R190). -/
def State.pidKind (s : State) (pid : Byte) : Option Kind := s.params.pidMap[(pid.extractLsb' 0 6).toNat]

/-- Stage 3: PID classification; the kind if there is one (42_pipeline.md R190). -/
def stage3 (s : State) (p : PipeRun) : PipeRun × Option Kind :=
  let p := p.enter 3
  if p.regs.fieldErr.getLsbD HdrField.pid.bit then (p.mapRegs (fun r => r.fail .pidUnknown), none)
  else
    let pid := p.regs.pid
    let p := p.mapRegs (fun r =>
      { r with pidFlags := pidFlagsOf (pid.getLsbD s.params.pidMhBit) (pid.getLsbD s.params.pidSaBit) })
    match s.pidKind pid with
    | none => (p.mapRegs (fun r => r.fail .pidUnknown), none)
    | some k => (p.mapRegs (fun r => { r with kind := kindCode k }), some k)

/-- PID_FLAGS.MH (10_state.md R44). -/
def PipeRegs.mh (r : PipeRegs) : Bool := r.pidFlags.getLsbD 0

/-- ExpLen(k, mh) (42_pipeline.md R192). -/
def expectedLen (c : Params) (k : Kind) (mh : Bool) : Nat :=
  c.hdrEncLen + c.payloadSymbols k + (if mh then c.hopEncLen else 0)

/-- Stage 4: length check; whether the packet goes on (42_pipeline.md R193). -/
def stage4 (s : State) (k : Kind) (p : PipeRun) : PipeRun × Bool :=
  let p := p.enter 4
  if s.pktLen.toNat = expectedLen s.params k p.regs.mh then (p.mapRegs (fun r => r.setFlag flagValidPid), true)
  else (p.mapRegs (fun r => r.fail .lenMismatch), false)

/-! ### Stages 5 and 6 (42_pipeline.md R195 to R199) -/

/-- Bits hi:lo of a decoded hop field, widened to 8 bits (42_pipeline.md R195, 00_scope.md R10). -/
def hopBits (h : Nat) (r : BitRange) : Byte := BitVec.ofNat 8 (h / 2 ^ r.lo % 2 ^ (r.hi - r.lo + 1))

/-- Stage 5: hop field decode, only of a multi-hop packet (42_pipeline.md R195). -/
def stage5 (s : State) (k : Kind) (p : PipeRun) : PipeRun :=
  if p.regs.mh then
    let p := p.enter 5
    match s.pktField (6 * s.params.hopEncLen) (s.params.hdrEncLen + s.params.payloadSymbols k) with
    | none => p.decodeFailed.mapRegs (fun r => (r.setFieldErr fieldErrHop).fail .hopDecode)
    | some h =>
      p.mapRegs (fun r =>
        { r with hops := hopBits h s.params.hopsBits, maxHops := hopBits h s.params.maxHopsBits })
  else p

/-- Stage 6: payload decode; the decoded payload D if it decodes (42_pipeline.md R196, R198). -/
def stage6 (s : State) (k : Kind) (p : PipeRun) : PipeRun × Option (List Byte) :=
  let p := p.enter 6
  match stringDecode s.symTable (s.pktBytes s.params.hdrEncLen (s.params.payloadSymbols k)) with
  | .error _ => (p.decodeFailed.mapRegs (fun r => (r.setFieldErr fieldErrPld).fail .pldDecode), none)
  | .ok d => (p.mapRegs (fun r => { r with pldLen := BitVec.ofNat 8 d.length }), some d)

/-- The cipher region CT of a decoded payload (42_pipeline.md R199). -/
def cipherRegion (c : Params) (d : List Byte) : List Byte := d.take (d.length - c.pldTrailerLen)

/-- The trailer TR of a decoded payload (42_pipeline.md R199). -/
def trailer (c : Params) (d : List Byte) : List Byte := d.drop (d.length - c.pldTrailerLen)

/-! ### Stage 7 (42_pipeline.md R200 to R205) -/

/-- REF's cipher TOY (00_scope.md R9(b)). -/
def toyByte (key : List Byte) (rounds : Nat) (ct : List Byte) (j : Nat) : Byte :=
  ct.getD j 0x00#8 ^^^ key.getD (j % 16) 0x00#8 ^^^ BitVec.ofNat 8 rounds

/-- CIPHER_DEC(key, rounds, ct), as long as ct (00_scope.md R8). -/
def cipherDec (c : Cipher) (key : List Byte) (rounds : Nat) (ct : List Byte) : List Byte :=
  (List.range ct.length).map (fun j =>
    match c with
    | .deployed => Config.cipherByte key rounds ct j
    | .toy => toyByte key rounds ct j)

/-- The byte at an index of a plaintext; the configuration keeps every index inside it (00_scope.md R8). -/
def byteAt (pt : List Byte) (i : Nat) : Byte := pt.getD i 0x00#8

/-- PldCrc(PT): every byte but the checksum byte (42_pipeline.md R202, 41_checksum.md R165). -/
def payloadCrc (c : Params) (pt : List Byte) : Byte :=
  crc8 c.crcPoly c.crcInit c.crcOrder (pt.take c.pldCrcIdx ++ pt.drop (c.pldCrcIdx + 1))

/-- The base address of the keyring of a kind (42_pipeline.md R200). -/
def ringBase (k : Kind) : Nat := if kindIsInvite k then invKeyringBase else keyringBase

/-- N, the number of keys in the keyring of a kind (42_pipeline.md R200). -/
def State.ringCount (s : State) (k : Kind) : Nat := if kindIsInvite k then s.invKeyCount.toNat else s.keyCount.toNat

/-- Key i of the keyring of a kind: RING[16*i .. 16*i + 16) (42_pipeline.md R201, 10_state.md R59). -/
def State.ringKey (s : State) (k : Kind) (i : Nat) : List Byte := s.bufBytes (ringBase k) (16 * i) 16

/-- The round count of a kind (42_pipeline.md R200). -/
def roundsOf (c : Params) (k : Kind) : Nat := if kindIsStream k then c.reducedRounds else c.fullRounds

/-- The plaintext key i gives (42_pipeline.md R201). -/
def State.plaintext (s : State) (k : Kind) (ct : List Byte) (i : Nat) : List Byte :=
  cipherDec s.params.cipher (s.ringKey k i) (roundsOf s.params k) ct

/-- One turn of the loop of 42_pipeline.md R201: key i tried, its checksums written. -/
def tryKey (c : Params) (i : Nat) (pt : List Byte) (p : PipeRun) : PipeRun :=
  { p with
    loopIdx := i
    regs := { p.regs with
      keysTried := BitVec.ofNat 8 (i + 1)
      pldCrcCalc := payloadCrc c pt
      pldCrcRx := byteAt pt c.pldCrcIdx } }

/-- The trial-decryption loop over the key indexes, stopping at the first success: the index and the plaintext of the
accepted key, if there is one (42_pipeline.md R201). -/
def trialLoop (s : State) (k : Kind) (ct : List Byte) : List Nat → PipeRun → PipeRun × Option (Nat × List Byte)
  | [], p => (p, none)
  | i :: is, p =>
    let pt := s.plaintext k ct i
    let p := tryKey s.params i pt p
    if payloadCrc s.params pt = byteAt pt s.params.pldCrcIdx then (p, some (i, pt))
    else trialLoop s k ct is p

/-- Stage 7: trial decryption; the accepted plaintext if there is one, and the bytes of PLD_BUF: the plaintext and the
trailer, or the still encrypted payload (42_pipeline.md R200, R201, R203, R204). -/
def stage7 (s : State) (k : Kind) (d : List Byte) (p : PipeRun) : PipeRun × Option (List Byte) × List Byte :=
  let ct := cipherRegion s.params d
  let p := (p.enter 7).mapRegs (fun r =>
    { r with keyRing := boolByte (kindIsInvite k), rounds := BitVec.ofNat 8 (roundsOf s.params k) })
  match trialLoop s k ct (List.range (s.ringCount k)) p with
  | (p, some (i, pt)) =>
    (p.mapRegs (fun r =>
        ({ r with keyIdx := BitVec.ofNat 8 i }.setFlag flagValidDecrypt).setFlag flagValidPayloadChecksum),
      some pt, pt ++ trailer s.params d)
  | (p, none) => (p.mapRegs (fun r => r.fail .decrypt), none, d)

/-! ### Stage 8 (42_pipeline.md R206 to R208) -/

/-- SingleData(PT) (42_pipeline.md R207). -/
def singleData (c : Params) (pt : List Byte) (r : PipeRegs) : PipeRegs :=
  let t := byteAt pt c.msgTypeIdx
  let r := { r with msgType := t }
  match c.msgTypeMap[t.toNat] with
  | some .app => { r with variant := 0x01#8 }
  | some .admin => { r with variant := 0x02#8, adminType := byteAt pt c.adminTypeIdx }
  | some .features => { r with variant := 0x03#8 }
  | some .route => { r with variant := 0x04#8 }
  | none => (r.setFlag flagParseErr).fail .parse

/-- Response(PT, a) (42_pipeline.md R208). -/
def response (c : Params) (pt : List Byte) (a : RespKind) (r : PipeRegs) : PipeRegs :=
  let h := byteAt pt c.respHandleIdx
  { r with
    variant := 0x06#8
    respKind := a.code
    respReason := byteAt pt c.respReasonIdx
    respHandle := h
    respLen := c.respBytes[h.toNat] }

/-- The dispatch of stage 8 by kind (42_pipeline.md R206). -/
def dispatchVariant (c : Params) (k : Kind) (pt : List Byte) (r : PipeRegs) : PipeRegs :=
  match k with
  | .singleData => singleData c pt r
  | .route => { r with variant := 0x04#8 }
  | .singleAck | .routeAck | .blockAck | .streamAck => response c pt .ack r
  | .singleNack | .routeNack | .blockNack | .streamNack => response c pt .nack r
  | .block | .blockTerm => { r with variant := 0x07#8 }
  | .stream | .streamTerm => { r with variant := 0x08#8 }
  | .invite | .inviteReq => { r with variant := 0x05#8 }

/-- Stage 8: variant dispatch, once, for the accepted plaintext (42_pipeline.md R206, R210). -/
def stage8 (s : State) (k : Kind) (pt : List Byte) (p : PipeRun) : PipeRun :=
  (p.enter 8).mapRegs (fun r =>
    dispatchVariant s.params k pt { r with msgId := byteAt pt s.params.msgIdIdx })

/-! ### Stage 9 and the command (42_pipeline.md R182, R209) -/

/-- Stage 9: valid_decode from its accumulator, and valid, the AND of the six sub-flags (42_pipeline.md R197, R209). -/
def stage9 (p : PipeRun) : PipeRun :=
  let p := p.enter 9
  let p := if p.decodeOk then p.mapRegs (fun r => r.setFlag flagValidDecode) else p
  if allSubFlags p.regs.flags then p.mapRegs (fun r => r.setFlag flagValid) else p

/-- Stages 7 and 8 on a decoded payload: the record and the bytes of PLD_BUF (42_pipeline.md R182). -/
def runPayload (s : State) (k : Kind) (d : List Byte) (p : PipeRun) : PipeRun × List Byte :=
  match stage7 s k d p with
  | (p, some pt, out) => (stage8 s k pt p, out)
  | (p, none, out) => (p, out)

/-- Stages 5 to 8 on a classified packet (42_pipeline.md R182). -/
def runClassified (s : State) (k : Kind) (p : PipeRun) : PipeRun × List Byte :=
  match stage6 s k (stage5 s k p) with
  | (p, some d) => runPayload s k d p
  | (p, none) => (p, [])

/-- Stages 1 to 8 (42_pipeline.md R180, R182). -/
def runStages (s : State) (p : PipeRun) : PipeRun × List Byte :=
  match stage3 s (stage2 s (stage1 s p)) with
  | (p, none) => (p, [])
  | (p, some k) =>
    match stage4 s k p with
    | (p, true) => runClassified s k p
    | (p, false) => (p, [])

/-- PKT_PROC (42_pipeline.md R182): ClearResults, the abort of stage 0 (R185), or the stages. -/
def pktProcEffect (s : State) : Effect :=
  match stage0Abort s with
  | some e => { err := e, pipe := some (PipeRun.start.mapRegs (fun r => { r with failReason := FailReason.aborted.code })) }
  | none =>
    match runStages s (PipeRun.start.mapRegs (fun r => r.setFlag flagValidDigits)) with
    | (p, out) => { mem := cellsAt pldBufBase out, pipe := some (stage9 p) }

end Sys2Proof.Machine
end

