-- ==== Sys2Proof/Machine/Control.lean ====
section
/-! DEFINITION. The life of a command (43_control.md R242 to R246): StartCommand, the command's effect, Complete, the
sequencer's time, and host writes while BUSY. A command that raises an error reports it by Complete
(60_exceptions.md R262, R267: ONC's only analogue of taking an exception). -/

namespace Sys2Proof.Machine

/-- NOP: no effect (43_control.md R245). -/
def nopEffect (_s : State) : Effect := {}

/-- ILLEGAL: the error ILLEGAL_CMD and nothing else (43_control.md R246). -/
def illegalEffect (_s : State) : Effect := raiseErr .illegalCmd

/-- Execute(op): the effect of the command with this opcode (30_encoding.md R100, R101). -/
def effectOf (op : Byte) (s : State) : Effect :=
  match op.toNat with
  | 0x00 => nopEffect s
  | 0x01 => symEncEffect s
  | 0x02 => symDecEffect s
  | 0x03 => fldEncEffect s
  | 0x04 => fldDecEffect s
  | 0x05 => strEncEffect s
  | 0x06 => strDecEffect s
  | 0x07 => crcEffect s
  | 0x10 => pktProcEffect s
  | _ => illegalEffect s

/-- StartCommand(op) up to Execute: CMD, DONE, ERR and ERR_CODE, the ARG snapshot, BUSY (43_control.md R242). The stage
position and the loop index stand at their start (10_state.md R61). -/
def State.startCommand (s : State) (op : Byte) : State :=
  { s with
    cmd := op
    status := statusStart s.status
    errCode := 0x00#8
    snap := s.arg
    seqOp := op
    stage := 0
    loopIdx := 0 }

/-- Complete() of a command whose error code is `e` (43_control.md R243, 60_exceptions.md R262). -/
def State.complete (s : State) (e : ErrCode) : State :=
  { s with errCode := e.code, status := statusComplete s.status e.code }

/-- The running command takes effect and completes (43_control.md R242, R243). -/
def State.finish (s : State) : State :=
  (s.applyEffect (effectOf s.seqOp s)).complete (effectOf s.seqOp s).err

/-- The sequencer's part of a step: a running command outlasts `left` more steps and then completes
(70_reset_and_hazards.md R301); in IDLE it does nothing (60_exceptions.md R274). -/
def State.tick (s : State) : State :=
  if s.busy then
    match s.left with
    | 0 => s.finish
    | n + 1 => { s with left := n }
  else s

/-- LATENCY(op, inputs) of a command started in this state, in steps beyond its own transaction
(70_reset_and_hazards.md R301, R302); the unit is the model's (DESIGN CHOICE, notes/assumptions/3). -/
def State.nextLatency (s : State) (op : Byte) : Nat :=
  match s.cfg.latency with
  | .deployed => openLatency op s
  | .fixed n => n

/-- BusyWrite(A, D), a host write that arrives while BUSY (43_control.md R244): W1C on STATUS and the IRQ enable still
work, every other write is dropped and sets BUSY_WR. -/
def State.busyWrite (s : State) (a : BusAddr) (d : Byte) : State :=
  if a = 0x001#12 then { s with status := statusW1C s.status d }
  else if a = 0x003#12 then { s with ctrl := d &&& 0x01#8 }
  else { s with status := statusBusyWrite s.status }

/-- A host write of `op` to CMD: dropped while BUSY (43_control.md R244), else the command starts (R242) and takes its
LATENCY: it completes within this transaction when that is 0, else it stays BUSY.

DESIGN CHOICE (notes/assumptions/3): a reserved opcode has a LATENCY too. 30_encoding.md R101 says that it "completes at
once", 70_reset_and_hazards.md R301 that every command takes an unspecified time; the model takes R301 for every opcode,
so a reserved one may complete at once or stay BUSY. -/
def State.hostCommand (s : State) (op : Byte) : State :=
  if s.busy then s.busyWrite 0x000#12 op
  else
    let t := { s.startCommand op with left := s.nextLatency op - 1 }
    if s.nextLatency op = 0 then t.finish else t

/-- Reset: every state element takes its value of 10_state.md R65, the buffer contents are unspecified anew
(70_reset_and_hazards.md R290), and the RES bytes an abandoned command would have written are unspecified (R291). The
configuration, what happens at the pins next and the model's counters go on. -/
def State.assertReset (s : State) : State :=
  let abandoned (i : Fin 8) : Bool := s.busy && (effectOf s.seqOp s).res.any (fun w => decide (w.1 = i.val))
  { State.resetOf s.cfg with
    res := Vector.ofFn (fun i : Fin 8 => if abandoned i then Config.abandonedRes (s.epoch + 1) i else 0x00#8)
    rstPin := true
    port := s.port
    rdata := s.rdata
    draws := s.draws
    epoch := s.epoch + 1 }

/-- The reset input is released (70_reset_and_hazards.md R290). -/
def State.releaseReset (s : State) : State := { s with rstPin := false }

end Sys2Proof.Machine
end

