-- ==== Sys2Proof/Machine/Commands.lean ====
section
/-! DEFINITION. The meanings of the command instructions: each is a host write of its opcode to CMD
(30_encoding.md R98, 43_control.md R242), whose effect is the definition named in its docstring. -/

namespace Sys2Proof.Machine

/-- NOP: `nopEffect` (43_control.md R245). -/
def execNop (s : State) : Host.Outcome State Fault Refusal := .next (s.hostCommand 0x00#8)

/-- SYM_ENC: `symEncEffect` (40_symbol_codec.md R131). -/
def execSymEnc (s : State) : Host.Outcome State Fault Refusal := .next (s.hostCommand 0x01#8)

/-- SYM_DEC: `symDecEffect` (40_symbol_codec.md R132). -/
def execSymDec (s : State) : Host.Outcome State Fault Refusal := .next (s.hostCommand 0x02#8)

/-- FLD_ENC: `fldEncEffect` (40_symbol_codec.md R133). -/
def execFldEnc (s : State) : Host.Outcome State Fault Refusal := .next (s.hostCommand 0x03#8)

/-- FLD_DEC: `fldDecEffect` (40_symbol_codec.md R134). -/
def execFldDec (s : State) : Host.Outcome State Fault Refusal := .next (s.hostCommand 0x04#8)

/-- STR_ENC: `strEncEffect` (40_symbol_codec.md R135). -/
def execStrEnc (s : State) : Host.Outcome State Fault Refusal := .next (s.hostCommand 0x05#8)

/-- STR_DEC: `strDecEffect` (40_symbol_codec.md R136). -/
def execStrDec (s : State) : Host.Outcome State Fault Refusal := .next (s.hostCommand 0x06#8)

/-- CRC: `crcEffect` (41_checksum.md R166). -/
def execCrc (s : State) : Host.Outcome State Fault Refusal := .next (s.hostCommand 0x07#8)

/-- PKT_PROC: `pktProcEffect` (42_pipeline.md R182). -/
def execPktProc (s : State) : Host.Outcome State Fault Refusal := .next (s.hostCommand 0x10#8)

/-- ILLEGAL: `illegalEffect` for every opcode the opcode map does not hold (43_control.md R246). That it takes a LATENCY
like any command is a DESIGN CHOICE (`State.hostCommand`, notes/assumptions/3). -/
def execIllegal (op : Byte) (s : State) : Host.Outcome State Fault Refusal := .next (s.hostCommand op)

end Sys2Proof.Machine
end

