-- ==== Sys2Proof/Machine/Transactions.lean ====
section
/-! DEFINITION. The two host bus transactions (43_control.md R240, R241). -/

namespace Sys2Proof.Machine

/-- The addresses a host may read while BUSY: CMD, STATUS, ERR_CODE, CTRL (20_memory.md R81). -/
def readableWhileBusy (a : BusAddr) : Bool := decide (a.toNat < 4)

/-- HOST_RD: while BUSY any address but CMD, STATUS, ERR_CODE and CTRL returns a fresh free value (20_memory.md R81);
else the byte the address map holds (43_control.md R240). Nothing but the byte handed to the host changes
(20_memory.md R79). The data field is ignored (30_encoding.md R96). -/
def execHostRd (a : BusAddr) (_d : Byte) (s : State) : Host.Outcome State Fault Refusal :=
  .next
    (if s.busy && !readableWhileBusy a then { s with rdata := Config.busyByte s.draws, draws := s.draws + 1 }
     else { s with rdata := s.peek a.toNat })

/-- The value KEY_COUNT and INV_KEY_COUNT store: min(v, KEYRING_MAX) (10_state.md R36, R37). -/
def capCount (d : Byte) : Byte := BitVec.ofNat 8 (min d.toNat keyringMax)

/-- A host write while IDLE to any address but CMD (43_control.md R241). -/
def State.idleWrite (s : State) (a : BusAddr) (d : Byte) : State :=
  if a = 0x001#12 then { s with status := statusW1C s.status d }
  else if a = 0x003#12 then { s with ctrl := d &&& 0x01#8 }
  else if a = 0x004#12 then { s with pktLen := d }
  else if a = 0x005#12 then { s with keyCount := capCount d }
  else if a = 0x006#12 then { s with invKeyCount := capCount d }
  else if a = 0x007#12 then { s with inFlags := d &&& 0x01#8 }
  else if 0x008 ≤ a.toNat ∧ a.toNat < 0x018 then { s with arg := s.arg.setIfInBounds (a.toNat - 0x008) d }
  else if isHostWritableBufferAddr a.toNat then { s with mem := Memory.write s.mem a.toNat d }
  else s

/-- HOST_WR (43_control.md R241): a write to CMD is a command (R242), a write while BUSY is R244's. -/
def execHostWr (a : BusAddr) (d : Byte) (s : State) : Host.Outcome State Fault Refusal :=
  .next
    (if a = 0x000#12 then s.hostCommand d
     else if s.busy then s.busyWrite a d
     else s.idleWrite a d)

end Sys2Proof.Machine
end

