-- ==== Sys2Proof/Machine/Dispatch.lean ====
section
/-! DEFINITION. One arm per instruction. -/

namespace Sys2Proof.Machine

/-- The meaning of an instruction: what one host transaction does to ONC. -/
def exec (i : Instr) (s : State) : Host.Outcome State Fault Refusal :=
  match i with
  | .nop => Sys2Proof.Machine.execNop s
  | .symEnc => Sys2Proof.Machine.execSymEnc s
  | .symDec => Sys2Proof.Machine.execSymDec s
  | .fldEnc => Sys2Proof.Machine.execFldEnc s
  | .fldDec => Sys2Proof.Machine.execFldDec s
  | .strEnc => Sys2Proof.Machine.execStrEnc s
  | .strDec => Sys2Proof.Machine.execStrDec s
  | .crc => Sys2Proof.Machine.execCrc s
  | .pktProc => Sys2Proof.Machine.execPktProc s
  | .illegal op => Sys2Proof.Machine.execIllegal op s
  | .hostRd a d => Sys2Proof.Machine.execHostRd a d s
  | .hostWr a d => Sys2Proof.Machine.execHostWr a d s

end Sys2Proof.Machine
end

