-- ==== Sys2Proof/Machine/Fetch.lean ====
section
/-! DEFINITION. Where a step takes its next instruction from: ONC fetches no code (00_scope.md R2); the host issues
transactions one at a time, in order (20_memory.md R80). -/

namespace Sys2Proof.Machine

/-- What happens next at the pins. -/
def State.nextEvent (s : State) : Option PortEvent := s.port.head?

/-- The event at the pins is taken. -/
def State.consume (s : State) : State := { s with port := s.port.tail }

/-- The host presents a transaction before anything else that stands at the pins, the reset input released. -/
def State.present (s : State) (w : BusWord) : State := { s with port := .bus w :: s.port, rstPin := false }

end Sys2Proof.Machine
end

