-- ==== Sys2Proof/Machine/Step.lean ====
section
/-! DEFINITION. One step of the machine: the next event at the pins, after the sequencer's part. -/

namespace Sys2Proof.Machine

/-- One step. With nothing at the pins, only the sequencer moves. A host transaction is performed after the sequencer's
part of the step, so that a completion comes first (20_memory.md R82); it has no effect while reset is asserted
(70_reset_and_hazards.md R290). -/
def step (s : State) : Host.Outcome State Fault Refusal :=
  match s.nextEvent with
  | none => .next s.tick
  | some (.bus w) => if s.rstPin then .next s.consume else exec (decode w) s.consume.tick
  | some .assertReset => .next s.consume.assertReset
  | some .releaseReset => .next s.consume.releaseReset

/-- The machine with the transaction `w` standing next at the host port and the reset input released. A number that
does not fit the port's 21 bits is no transaction, and none is placed. -/
def State.withFetchWord (s : State) (_nbits w : Nat) : State :=
  if w < 2 ^ 21 then s.present (BitVec.ofNat 21 w) else s

end Sys2Proof.Machine
end

