-- ==== Sys2Proof/Safety.lean ====
section
/-! DEFINITION. The terms the statements use: what one transaction leaves unchanged, how a command is booked, the
invariant of the machine, and what it means for symbols to stand for a value. -/

namespace Sys2Proof.Machine

/-! ### Addresses of registers (20_memory.md R71) -/

/-- CMD. -/
def addrCmd : Nat := 0x000
/-- STATUS. -/
def addrStatus : Nat := 0x001
/-- ERR_CODE. -/
def addrErrCode : Nat := 0x002
/-- CTRL. -/
def addrCtrl : Nat := 0x003
/-- ARG0; ARGn is n above it. -/
def addrArg0 : Nat := 0x008
/-- RES0; RESn is n above it. -/
def addrRes0 : Nat := 0x018
/-- FLAGS, the first pipeline result register. -/
def addrFlags : Nat := 0x020

/-- The reserved addresses (20_memory.md R74). -/
def isReservedAddr (a : Nat) : Prop := (0x044 ≤ a ∧ a < 0x100) ∨ 0x700 ≤ a

/-! ### Frames -/

/-- Every address of the map but those in `except` holds in `t` what it held in `s`: registers, reserved addresses and
EVERY byte of every buffer. -/
def SameMapExcept (except : Nat → Prop) (s t : State) : Prop :=
  ∀ a, a < 0x1000 → ¬ except a → t.peek a = s.peek a

/-- What no transaction but a reset touches and the address map does not show: the configuration, the events still at
the pins, the reset input, and the index of the free buffer contents. -/
structure SamePins (s t : State) : Prop where
  cfg : t.cfg = s.cfg
  port : t.port = s.port
  rstPin : t.rstPin = s.rstPin
  epoch : t.epoch = s.epoch

/-- What the sequencer holds of its own (10_state.md R61), and the time the running command still takes. -/
structure SameSequencer (s t : State) : Prop where
  seqOp : t.seqOp = s.seqOp
  snap : t.snap = s.snap
  stage : t.stage = s.stage
  loopIdx : t.loopIdx = s.loopIdx
  left : t.left = s.left

/-- What the host port shows of reads: the last byte returned, and the count of free values drawn. -/
structure SameReads (s t : State) : Prop where
  rdata : t.rdata = s.rdata
  draws : t.draws = s.draws

/-- Command `op` written now starts, and completes within its own transaction: the sequencer is IDLE and its LATENCY is 0
(70_reset_and_hazards.md R301: a model may treat every command as taking one step). -/
abbrev Prompt (op : Byte) (s : State) : Prop := s.busy = false ∧ s.nextLatency op = 0

/-- The same machine with another LATENCY (70_reset_and_hazards.md R301). -/
def State.withLatency (s : State) (l : Latency) : State := { s with cfg := { s.cfg with latency := l } }

/-- Command `op` completes in the step that `s` takes, if any command does: it is running and its time is over, or the
host starts it now. -/
def CommandInStep (s : State) (op : Byte) : Prop :=
  (s.busy = true ∧ s.left = 0 ∧ s.seqOp = op) ∨
    (∃ rest, s.port = .bus (commandWord op) :: rest ∧ s.rstPin = false)

/-- The step takes the assertion of reset. -/
def ResetInStep (s : State) : Prop := ∃ rest, s.port = .assertReset :: rest

/-- The step takes a plain host write of `d` to `a`, not a command. -/
def HostWriteInStep (s : State) (a : BusAddr) (d : Byte) : Prop :=
  ∃ w rest, s.port = .bus w :: rest ∧ s.rstPin = false ∧ decode w = .hostWr a d

/-- Command `op` started in `s` and completed in `t` with error code `code`: CMD holds the opcode, BUSY is 0, DONE is 1,
ERR tells whether the code is 0x00, BUSY_WR is kept, ERR_CODE holds the code (43_control.md R242, R243,
60_exceptions.md R262); the arguments are in the snapshot; nothing happened at the pins. -/
structure CommandRan (op code : Byte) (s t : State) : Prop where
  cmd : t.peek addrCmd = op
  busy : t.busy = false
  done : t.done = true
  err : t.status.getLsbD 2 = decide (code ≠ 0x00#8)
  busyWr : t.status.getLsbD 3 = s.status.getLsbD 3
  errCode : t.peek addrErrCode = code
  snap : t.snap = s.arg
  seqOp : t.seqOp = op
  pins : SamePins s t
  reads : SameReads s t

/-- The addresses the life of every command writes: CMD, STATUS, ERR_CODE (43_control.md R242, R243). -/
def isCommandReg (a : Nat) : Prop := a = addrCmd ∨ a = addrStatus ∨ a = addrErrCode

/-- Command `op` ran in one transaction, ended with error code `e` (`ok` for no error) and wrote nothing else
(43_control.md R245, R247). -/
def EndsWith (i : Instr) (op : Byte) (e : ErrCode) (s : State) : Prop :=
  ∃ t, exec i s = .next t ∧ CommandRan op e.code s t ∧ SameMapExcept isCommandReg s t

/-- Command `op` failed with INVALID_SYMBOL at symbol `j` in one transaction and wrote RES7 = j and nothing else
(43_control.md R247). -/
def FailsAtSymbol (i : Instr) (op : Byte) (j : Nat) (s : State) : Prop :=
  ∃ t, exec i s = .next t ∧ CommandRan op ErrCode.invalidSymbol.code s t ∧ t.peek (addrRes0 + 7) = BitVec.ofNat 8 j ∧
    SameMapExcept (fun a => isCommandReg a ∨ a = addrRes0 + 7) s t

/-! ### What symbols stand for, said without the decoder -/

/-- The value of groups, the first most significant (40_symbol_codec.md R124). -/
def groupValue : List Raw6 → Nat
  | [] => 0
  | g :: gs => g.toNat * 64 ^ gs.length + groupValue gs

/-- The symbols are those of the groups (40_symbol_codec.md R120). -/
def SymbolsOf (t : Vector Byte 64) (syms : List Byte) (gs : List Raw6) : Prop :=
  syms = gs.map (fun g => t[g.toNat])

/-- The symbols stand for the value `x` of a field of `w` bits: every symbol valid, every pad bit 0
(40_symbol_codec.md R126). -/
def FieldReads (t : Vector Byte 64) (w : Nat) (syms : List Byte) (x : Nat) : Prop :=
  ∃ gs, SymbolsOf t syms gs ∧ groupValue gs = x ∧ x < 2 ^ w

/-- The bytes of groups taken four by four: {g0, g1[5:4]}, {g1[3:0], g2[5:2]}, {g2[1:0], g3}
(40_symbol_codec.md R129). -/
def groupBytes : List Raw6 → List Byte
  | g0 :: g1 :: g2 :: g3 :: gs =>
    BitVec.ofNat 8 (g0.toNat * 4 + g1.toNat / 16)
      :: BitVec.ofNat 8 (g1.toNat % 16 * 16 + g2.toNat / 4)
      :: BitVec.ofNat 8 (g2.toNat % 4 * 64 + g3.toNat)
      :: groupBytes gs
  | _ => []

/-- The symbols stand for the byte string `d` (40_symbol_codec.md R129). -/
def StringReads (t : Vector Byte 64) (syms d : List Byte) : Prop :=
  ∃ gs, SymbolsOf t syms gs ∧ groupBytes gs = d

/-- Symbol `j` is the first invalid one (40_symbol_codec.md R126, R129). -/
def FirstInvalid (t : Vector Byte 64) (syms : List Byte) (j : Nat) : Prop :=
  (∃ s, syms[j]? = some s ∧ ∀ r : Raw6, t[r.toNat] ≠ s) ∧
    ∀ i < j, ∃ s, syms[i]? = some s ∧ ∃ r : Raw6, t[r.toNat] = s

/-! ### What PKT_PROC finds in a packet (42_pipeline.md) -/

/-- Stage 0 lets the packet through (42_pipeline.md R185). -/
def PacketAdmitted (s : State) : Prop :=
  s.pktLen ≠ 0x00#8 ∧ s.inFlags.getLsbD 0 = true ∧ s.params.hdrEncLen ≤ s.pktLen.toNat

/-- The header field `f` of the packet decodes to `x` (42_pipeline.md R186). -/
def HeaderReads (s : State) (f : HdrField) (x : Nat) : Prop :=
  FieldReads s.symTable f.width (s.pktBytes (f.offset s.params) (symbolCount f.width)) x

/-- The packet is admitted, its PID decodes to `pid` and has kind `k` (42_pipeline.md R190). -/
def PidIs (s : State) (pid : Nat) (k : Kind) : Prop :=
  PacketAdmitted s ∧ HeaderReads s .pid pid ∧ s.params.pidMap[pid % 64]'(by omega) = some k

/-- The multi-hop flag of a PID (10_state.md R44). -/
def pidMh (s : State) (pid : Nat) : Bool := pid.testBit s.params.pidMhBit

/-- The stay-awake flag of a PID (10_state.md R44). -/
def pidSa (s : State) (pid : Nat) : Bool := pid.testBit s.params.pidSaBit

/-- The packet is classified: its PID has kind `k` and its length is the one the PID implies (42_pipeline.md R192,
R193). -/
def Classified (s : State) (pid : Nat) (k : Kind) : Prop :=
  PidIs s pid k ∧
    s.pktLen.toNat = s.params.hdrEncLen + s.params.payloadSymbols k + (if pidMh s pid then s.params.hopEncLen else 0)

/-- The payload symbols of the packet (42_pipeline.md R192). -/
def payloadSyms (s : State) (k : Kind) : List Byte := s.pktBytes s.params.hdrEncLen (s.params.payloadSymbols k)

/-- Key `i` of the ring of kind `k` gives a plaintext of CT whose checksum matches (42_pipeline.md R201, R202). -/
def KeyMatches (s : State) (k : Kind) (ct : List Byte) (i : Nat) : Prop :=
  payloadCrc s.params (s.plaintext k ct i) = byteAt (s.plaintext k ct i) s.params.pldCrcIdx

/-- Key `i` is accepted: the first of its ring whose checksum matches (42_pipeline.md R201). -/
def Accepted (s : State) (k : Kind) (d : List Byte) (i : Nat) : Prop :=
  i < s.ringCount k ∧ KeyMatches s k (cipherRegion s.params d) i ∧
    ∀ j < i, ¬ KeyMatches s k (cipherRegion s.params d) j

/-- The bytes of PLD_BUF from index 0 on are `bs` (10_state.md R57). -/
def PldBufHolds (t : State) (bs : List Byte) : Prop :=
  ∀ (j : Nat) (h : j < bs.length), t.peek (pldBufBase + j) = bs[j]

/-! ### What a skipped stage leaves: its registers at the values ClearResults gave them (42_pipeline.md R183) -/

/-- There is no Payload: stage 8 wrote nothing (42_pipeline.md R206). -/
structure NoPayload (r : PipeRegs) : Prop where
  variant : r.variant = 0x00#8
  parseErr : r.flags.getLsbD flagParseErr = false
  msgId : r.msgId = 0x00#8
  msgType : r.msgType = 0x00#8
  adminType : r.adminType = 0x00#8
  respKind : r.respKind = 0x00#8
  respReason : r.respReason = 0x00#8
  respHandle : r.respHandle = 0x00#8
  respLen : r.respLen = 0x00#8

/-- No key was tried: stages 7 and 8 wrote nothing (42_pipeline.md R196). -/
structure NoDecryption (r : PipeRegs) : Prop where
  noPayload : NoPayload r
  validDecrypt : r.flags.getLsbD flagValidDecrypt = false
  validPayloadChecksum : r.flags.getLsbD flagValidPayloadChecksum = false
  valid : r.flags.getLsbD flagValid = false
  keyIdx : r.keyIdx = 0xFF#8
  keyRing : r.keyRing = 0x00#8
  keysTried : r.keysTried = 0x00#8
  rounds : r.rounds = 0x00#8
  pldCrcRx : r.pldCrcRx = 0x00#8
  pldCrcCalc : r.pldCrcCalc = 0x00#8
  pldLen : r.pldLen = 0x00#8

/-- Stages 5 to 8 did not run (42_pipeline.md R194). -/
structure NoLaterStage (r : PipeRegs) : Prop where
  noDecryption : NoDecryption r
  hops : r.hops = 0x00#8
  maxHops : r.maxHops = 0x00#8
  hopErr : r.fieldErr.getLsbD fieldErrHop = false
  pldErr : r.fieldErr.getLsbD fieldErrPld = false

/-! ### The invariant -/

/-- What holds of the pipeline result registers at all times. -/
structure PipeInv (p : PipeRegs) : Prop where
  /-- FLAGS.valid is the AND of bits 0 to 5 (10_state.md R41, 42_pipeline.md R209). -/
  validIsAnd : p.flags.getLsbD 6 = decide (p.flags &&& 0x3F#8 = 0x3F#8)
  /-- valid_decrypt and valid_payload_checksum are equal (42_pipeline.md R203). -/
  decryptPair : p.flags.getLsbD 4 = p.flags.getLsbD 5
  /-- FAIL_REASON holds a code of 60_exceptions.md R263. -/
  failReason : p.failReason.toNat ≤ 9
  /-- KIND is a kind code or 0xFF (10_state.md R44). -/
  kind : p.kind.toNat < 16 ∨ p.kind = 0xFF#8
  /-- The reserved bits of PID_FLAGS are 0 (10_state.md R44). -/
  pidFlags : p.pidFlags &&& 0xFC#8 = 0x00#8
  /-- KEY_RING is 0 or 1 (10_state.md R49). -/
  keyRing : p.keyRing.toNat ≤ 1
  /-- VARIANT is a variant code or NONE (10_state.md R50). -/
  variant : p.variant.toNat ≤ 8
  /-- RESP_KIND is none, ack or nack (10_state.md R52). -/
  respKind : p.respKind.toNat ≤ 2
  /-- On acceptance KEYS_TRIED = KEY_IDX + 1 (42_pipeline.md R205(d)). -/
  accepted : p.flags.getLsbD 4 = true → p.keysTried = p.keyIdx + 0x01#8
  /-- With no accepted key, KEY_IDX is 0xFF and there is no Payload (10_state.md R49, 42_pipeline.md R204). -/
  notAccepted : p.flags.getLsbD 4 = false → p.keyIdx = 0xFF#8 ∧ p.variant = 0x00#8

/-- What holds of the machine at all times: after reset, and after every step from a state in which it holds. -/
structure Inv (s : State) : Prop where
  /-- The memory is in its canonical form. -/
  memCanonical : Memory.wf s.mem = true
  /-- Only buffer addresses hold written bytes (20_memory.md R71). -/
  memInBuffers : ∀ c ∈ s.mem, isBufferAddr c.1 = true
  /-- The reserved bits of STATUS are 0 (10_state.md R32). -/
  statusReserved : s.status &&& 0xF0#8 = 0x00#8
  /-- The reserved bits of CTRL are 0 (10_state.md R34). -/
  ctrlReserved : s.ctrl &&& 0xFE#8 = 0x00#8
  /-- The reserved bits of IN_FLAGS are 0 (10_state.md R38). -/
  inFlagsReserved : s.inFlags &&& 0xFE#8 = 0x00#8
  /-- KEY_COUNT is at most KEYRING_MAX (10_state.md R36). -/
  keyCount : s.keyCount.toNat ≤ 16
  /-- INV_KEY_COUNT is at most KEYRING_MAX (10_state.md R37). -/
  invKeyCount : s.invKeyCount.toNat ≤ 16
  /-- ERR_CODE holds a code of 60_exceptions.md R261. -/
  errCode : s.errCode.toNat ≤ 7
  /-- STATUS.ERR is only set when ERR_CODE is not 0x00 (10_state.md R32). -/
  errFlag : s.status.getLsbD 2 = true → s.errCode ≠ 0x00#8
  /-- While BUSY, DONE, ERR and ERR_CODE are clear (43_control.md R242, 20_memory.md R81). -/
  busyClear : s.busy = true → s.done = false ∧ s.status.getLsbD 2 = false ∧ s.errCode = 0x00#8
  /-- While BUSY, the running command is the one CMD shows, and ARG is still its snapshot (43_control.md R244). -/
  busyRuns : s.busy = true → s.seqOp = s.cmd ∧ s.snap = s.arg
  /-- While reset is asserted the sequencer is IDLE (70_reset_and_hazards.md R290). -/
  resetIdle : s.rstPin = true → s.busy = false
  /-- The pipeline result registers. -/
  pipe : PipeInv s.pipe

end Sys2Proof.Machine
end

