-- ==== Sys2Proof/Certificates/Slice0/Obligations.lean ====
section
/-! DEFINITION. The statements about ONC, for the provers. -/

open Sys2Proof Sys2Proof.Machine

/-! ### Encoding -/

/-- 30_encoding.md R96: every 21-bit value is a legal transaction. Every BUS word decodes to a well-formed instruction
whose encoding is that word: no bit is dropped. -/
def Obligations.EveryBusWordIsOneInstruction : Prop :=
  ∀ w : BusWord, (decode w).wf = true ∧ encode (decode w) = w

/-- Decode and encode agree on every well-formed instruction, every operand at every value. -/
def Obligations.DecodeInvertsEncode : Prop :=
  ∀ i : Instr, i.wf = true → decode (encode i) = i

/-- Words written out from 30_encoding.md R96, R98, R100 and the examples of 43_control.md. -/
def Obligations.WrittenOutWordsDecode : Prop :=
  decode 0b1_000000000000_00000000#21 = .nop ∧
  decode 0b1_000000000000_00000001#21 = .symEnc ∧
  decode 0b1_000000000000_00000111#21 = .crc ∧
  decode 0b1_000000000000_00010000#21 = .pktProc ∧
  decode 0b1_000000000000_00001000#21 = .illegal 0x08#8 ∧
  decode 0b0_000000100100_00000000#21 = .hostRd 0x024#12 0x00#8 ∧
  decode 0b1_000000000100_00011100#21 = .hostWr 0x004#12 0x1C#8

/-- A write to CMD is ILLEGAL exactly for the opcodes 0x08..0x0F and 0x11..0xFF (30_encoding.md R101). -/
def Obligations.UnassignedOpcodesDecodeToIllegal : Prop :=
  ∀ op : Byte, decode (commandWord op) = .illegal op ↔
    (0x08 ≤ op.toNat ∧ op.toNat ≤ 0x0F) ∨ 0x11 ≤ op.toNat

/-! ### The step -/

/-- A step performs the transaction that stands at the port, after the sequencer's part of the step; with the sequencer
IDLE, that part is nothing. The model's own, not the spec's: the queue of transactions (notes/assumptions/1), the
sequencer's part, which counts a command's time in steps (notes/assumptions/3), and that a completion comes before EVERY
transaction of its step (notes/assumptions/20; R82 says it of a W1C write to DONE). -/
def Obligations.StepRunsTheDecodedTransaction : Prop :=
  ∀ (s : State) (w : BusWord) (rest : List PortEvent),
    s.port = .bus w :: rest → s.rstPin = false →
    step s = exec (decode w) { s with port := rest }.tick ∧
    (s.busy = false → step s = exec (decode w) { s with port := rest })

/-- `withFetchWord` makes the very next step run the placed transaction. The queue is the model's own
(notes/assumptions/1). -/
def Obligations.PlacedTransactionRunsNext : Prop :=
  ∀ (s : State) (nbits w : Nat), s.busy = false → w < 2 ^ 21 →
    step (s.withFetchWord nbits w) = exec (decode (BitVec.ofNat 21 w)) { s with rstPin := false }

/-- Nothing stops the machine: every step from every state answers a next state (30_encoding.md R96: no encoding is
illegal; 43_control.md R240, R241: no errors; 42_pipeline.md R211: PKT_PROC never crashes). -/
def Obligations.EveryStepAnswersANextState : Prop :=
  ∀ s : State, ∃ t, step s = .next t

/-- No step changes the build-time configuration (30_encoding.md R104: fixed when the hardware is built). -/
def Obligations.NoStepChangesTheConfiguration : Prop :=
  ∀ s t : State, step s = .next t → t.cfg = s.cfg

/-! ### Reset -/

/-- The reset values of all state. The register values are those of 10_state.md R65. The model's own, not the spec's: the
contents of the buffers are the free values of reset 0 (notes/assumptions/5), and the configuration, with the time its
commands take, is uninterpreted (notes/assumptions/4 and 3). -/
def Obligations.ResetLeavesTheResetValues : Prop :=
  ∀ c : Config,
    (∀ a, a < 0x044 → (State.resetOf c).peek a =
      (if a = 0x007 then 0x01#8 else if a = 0x024 ∨ a = 0x035 then 0xFF#8 else 0x00#8)) ∧
    (∀ a, 0x100 ≤ a → a < 0x700 → (State.resetOf c).peek a = Config.ramByte 0 a) ∧
    (State.resetOf c).busy = false ∧ (State.resetOf c).irq = false ∧
    State.reset = State.resetOf Config.deployed

/-- 70_reset_and_hazards.md R290 and R291: asserting reset at any time, in any state. Every register takes its reset
value, except that a RES byte the abandoned command would have written is a free value (notes/assumptions/7); every
buffer byte is a free value of the new reset; the sequencer is IDLE, the IRQ output 0; and while reset is asserted a
host transaction has no effect. -/
def Obligations.AssertingResetAtAnyTime : Prop :=
  ∀ (s : State) (rest : List PortEvent), s.port = .assertReset :: rest →
    ∃ t, step s = .next t ∧ t.busy = false ∧ t.irq = false ∧ t.port = rest ∧
      (∀ a, a < 0x044 → ¬ (addrRes0 ≤ a ∧ a < addrRes0 + 8) →
        t.peek a = (if a = 0x007 then 0x01#8 else if a = 0x024 ∨ a = 0x035 then 0xFF#8 else 0x00#8)) ∧
      (∀ i, i < 8 → t.peek (addrRes0 + i) =
        (if s.busy = true ∧ ∃ v, (i, v) ∈ (effectOf s.seqOp s).res then Config.abandonedRes (s.epoch + 1) i
         else 0x00#8)) ∧
      (∀ a, 0x100 ≤ a → a < 0x700 → t.peek a = Config.ramByte (s.epoch + 1) a) ∧
      (∀ (w : BusWord) (more : List PortEvent), rest = .bus w :: more → step t = .next { t with port := more })

/-! ### The invariant -/

/-- The machine meets the invariant right after reset, with every legal configuration. -/
def Obligations.ResetMeetsTheInvariant : Prop :=
  (∀ c : Config, Inv (State.resetOf c)) ∧ Inv State.reset

/-- Every step, from every state that meets it, keeps the invariant: the memory stays canonical and inside the buffers,
reserved bits stay 0, counts stay at most 16, codes stay codes, `valid` stays the AND of its sub-flags, and a running
command keeps its inputs. -/
def Obligations.EveryStepKeepsTheInvariant : Prop :=
  ∀ s t : State, Inv s → step s = .next t → Inv t

/-! ### Host reads -/

/-- 20_memory.md R71: what each register address holds, in address order; the DIDs and the NID least significant byte
first (R75), the unused top bits 0. -/
def Obligations.AddressMapOfTheRegisters : Prop :=
  ∀ s : State,
    s.peek 0x000 = s.cmd ∧ s.peek 0x001 = s.status &&& 0x0F#8 ∧ s.peek 0x002 = s.errCode ∧
    s.peek 0x003 = s.ctrl &&& 0x01#8 ∧ s.peek 0x004 = s.pktLen ∧ s.peek 0x005 = s.keyCount ∧
    s.peek 0x006 = s.invKeyCount ∧ s.peek 0x007 = s.inFlags &&& 0x01#8 ∧
    (∀ (i : Nat) (h : i < 16), s.peek (0x008 + i) = s.arg[i]) ∧
    (∀ (i : Nat) (h : i < 8), s.peek (0x018 + i) = s.res[i]) ∧
    s.peek 0x020 = s.pipe.flags ∧ s.peek 0x021 = s.pipe.fieldErr ∧ s.peek 0x022 = s.pipe.failReason ∧
    s.peek 0x023 = s.pipe.pid ∧ s.peek 0x024 = s.pipe.kind ∧ s.peek 0x025 = s.pipe.pidFlags &&& 0x03#8 ∧
    (s.peek 0x027 ++ s.peek 0x026).toNat = s.pipe.rptrDid.toNat ∧
    (s.peek 0x029 ++ s.peek 0x028).toNat = s.pipe.dstDid.toNat ∧
    (s.peek 0x02B ++ s.peek 0x02A).toNat = s.pipe.srcDid.toNat ∧
    (s.peek 0x030 ++ s.peek 0x02F ++ s.peek 0x02E ++ s.peek 0x02D ++ s.peek 0x02C).toNat = s.pipe.nid.toNat ∧
    s.peek 0x031 = s.pipe.hcrcRx ∧ s.peek 0x032 = s.pipe.hcrcCalc ∧ s.peek 0x033 = s.pipe.pldCrcRx ∧
    s.peek 0x034 = s.pipe.pldCrcCalc ∧ s.peek 0x035 = s.pipe.keyIdx ∧ s.peek 0x036 = s.pipe.keyRing ∧
    s.peek 0x037 = s.pipe.variant ∧ s.peek 0x038 = s.pipe.msgId ∧ s.peek 0x039 = s.pipe.msgType ∧
    s.peek 0x03A = s.pipe.adminType ∧ s.peek 0x03B = s.pipe.respKind ∧ s.peek 0x03C = s.pipe.respReason ∧
    s.peek 0x03D = s.pipe.respHandle ∧ s.peek 0x03E = s.pipe.respLen ∧ s.peek 0x03F = s.pipe.hops ∧
    s.peek 0x040 = s.pipe.maxHops ∧ s.peek 0x041 = s.pipe.pldLen ∧ s.peek 0x042 = s.pipe.rounds ∧
    s.peek 0x043 = s.pipe.keysTried

/-- 43_control.md R240, 20_memory.md R79: a host read while IDLE returns the byte the address map holds and changes
nothing else; the data field of the transaction does not matter. -/
def Obligations.IdleReadReturnsTheMappedByte : Prop :=
  ∀ (s : State) (a : BusAddr) (d : Byte), s.busy = false →
    exec (.hostRd a d) s = .next { s with rdata := s.peek a.toNat }

/-- 20_memory.md R81: while BUSY, a read of CMD, STATUS, ERR_CODE or CTRL returns its current value, ERR_CODE reads
0x00 (in every state that meets the invariant), and any other read returns a fresh free value and changes nothing
else. -/
def Obligations.BusyReads : Prop :=
  ∀ (s : State) (a : BusAddr) (d : Byte), s.busy = true →
    (a.toNat < 4 → exec (.hostRd a d) s = .next { s with rdata := s.peek a.toNat }) ∧
    (Inv s → s.peek addrErrCode = 0x00#8) ∧
    (4 ≤ a.toNat →
      exec (.hostRd a d) s = .next { s with rdata := Config.busyByte s.draws, draws := s.draws + 1 })

/-- 20_memory.md R74: a read of a reserved address returns 0x00, a write to one is ignored, and neither changes
anything else. -/
def Obligations.ReservedAddressesReadZeroAndIgnoreWrites : Prop :=
  ∀ (s : State) (a : BusAddr) (d : Byte), s.busy = false → isReservedAddr a.toNat →
    exec (.hostRd a d) s = .next { s with rdata := 0x00#8 } ∧ exec (.hostWr a d) s = .next s

/-! ### Host writes -/

/-- 43_control.md R241, its arms other than CMD and BUSY: a host write while IDLE to any other address, and its frame.
STATUS clears the bits 3:1 written as 1; the counts store min(D, 16); CTRL and IN_FLAGS keep bit 0; PKT_LEN, the ARG
registers and the bytes of PKT_BUF, DATA_BUF, KEYRING and INV_KEYRING store D; anything else is unchanged. -/
def Obligations.IdleHostWrite : Prop :=
  ∀ (s : State) (a : BusAddr) (d : Byte), s.busy = false → a ≠ 0x000#12 →
    ∃ t, exec (.hostWr a d) s = .next t ∧
      t.peek a.toNat =
        (if a.toNat = 0x001 then s.peek 0x001 &&& ~~~(d &&& 0x0E#8)
         else if a.toNat = 0x003 ∨ a.toNat = 0x007 then d &&& 0x01#8
         else if a.toNat = 0x005 ∨ a.toNat = 0x006 then (if d.toNat ≤ 16 then d else 0x10#8)
         else if a.toNat = 0x004 ∨ (0x008 ≤ a.toNat ∧ a.toNat < 0x018) ∨ (0x100 ≤ a.toNat ∧ a.toNat < 0x200) ∨
                 (0x300 ≤ a.toNat ∧ a.toNat < 0x600) then d
         else s.peek a.toNat) ∧
      SameMapExcept (fun b => b = a.toNat) s t ∧
      t.busy = false ∧ SamePins s t ∧ SameSequencer s t ∧ SameReads s t

/-- 43_control.md R244: a host write that arrives while BUSY, of any byte to any address, CMD included. W1C on STATUS and
the IRQ enable still work; a write to any other address is dropped and sets BUSY_WR; the running command goes on. -/
def Obligations.BusyHostWrite : Prop :=
  ∀ (s : State) (a : BusAddr) (d : Byte), s.busy = true →
    ∃ t, exec (decode (busWord true a d)) s = .next t ∧ t.busy = true ∧
      t.peek addrStatus =
        (if a.toNat = 0x001 then s.peek addrStatus &&& ~~~(d &&& 0x0E#8)
         else if a.toNat = 0x003 then s.peek addrStatus
         else s.peek addrStatus ||| 0x08#8) ∧
      t.peek addrCtrl = (if a.toNat = 0x003 then d &&& 0x01#8 else s.peek addrCtrl) ∧
      SameMapExcept (fun b => b = addrStatus ∨ b = addrCtrl) s t ∧
      SamePins s t ∧ SameSequencer s t ∧ SameReads s t

/-- 43_control.md R244: a write to CMD while BUSY, whatever its opcode, is dropped and sets BUSY_WR; no second command
starts. -/
def Obligations.CommandWhileBusyIsDropped : Prop :=
  ∀ (s : State) (op : Byte), s.busy = true →
    exec (decode (commandWord op)) s = .next { s with status := s.status ||| 0x08#8 }

/-- 20_memory.md R83, 43_control.md R244: nothing a running command reads can change under it. Any transaction while
BUSY leaves the command running and its whole effect what it was. -/
def Obligations.RunningCommandSeesFixedInputs : Prop :=
  ∀ (s : State) (w : BusWord), s.busy = true →
    ∃ t, exec (decode w) s = .next t ∧ t.busy = true ∧ t.seqOp = s.seqOp ∧ t.left = s.left ∧
      effectOf t.seqOp t = effectOf s.seqOp s ∧
      t.finish.res = s.finish.res ∧ t.finish.mem = s.finish.mem ∧ t.finish.pipe = s.finish.pipe ∧
      t.finish.errCode = s.finish.errCode

/-- 20_memory.md R82: a completion that sets DONE and a host W1C write to DONE in the same step are ordered with the
completion first, so DONE ends cleared. -/
def Obligations.CompletionComesBeforeTheTransaction : Prop :=
  ∀ (s : State) (d : Byte) (rest : List PortEvent),
    s.busy = true → s.left = 0 → s.rstPin = false → s.port = .bus (busWord true 0x001#12 d) :: rest →
    d.getLsbD 1 = true →
    ∃ t, step s = .next t ∧ t.busy = false ∧ t.done = false

/-- 43_control.md R242, 70_reset_and_hazards.md R301: a command of any opcode with LATENCY n + 1 is BUSY, with DONE, ERR
and ERR_CODE clear and BUSY_WR kept, and after n + 1 steps without host activity the machine is exactly where the same
command with LATENCY 0 takes it. That a LATENCY counts steps is the model's own (notes/assumptions/3). -/
def Obligations.SlowCommandEndsAsThePromptOne : Prop :=
  ∀ (s : State) (op : Byte) (n : Nat),
    s.busy = false → s.port = [] → s.nextLatency op = n + 1 →
    ∃ t u : State, exec (decode (commandWord op)) s = .next t ∧ t.busy = true ∧ t.peek addrCmd = op ∧
      t.peek addrStatus = (s.peek addrStatus &&& 0x08#8) ||| 0x01#8 ∧ t.peek addrErrCode = 0x00#8 ∧
      SameMapExcept isCommandReg s t ∧
      Host.Core.run core (n + 1) t = .next u ∧
      exec (decode (commandWord op)) (s.withLatency (.fixed 0)) = .next (u.withLatency (.fixed 0))

/-! ### The interrupt -/

/-- 60_exceptions.md R266: IRQ is IRQ_EN AND DONE: it is 1 when a command completes while IRQ_EN is 1 and when the host
sets IRQ_EN while DONE is 1; it falls when the host clears DONE, when it clears IRQ_EN, or when a new command starts and
stays BUSY. A command may complete in the transaction that starts it, or later: then the host may set IRQ_EN while it
runs, and IRQ is 1 after the step in which it completes, whether that step takes no event or a host read. -/
def Obligations.CompletionInterrupt : Prop :=
  (∀ s : State, s.irq = ((s.peek addrCtrl).getLsbD 0 && (s.peek addrStatus).getLsbD 1)) ∧
  (∀ (s t : State) (op : Byte), Prompt op s → s.irqEn = true → exec (decode (commandWord op)) s = .next t →
    t.irq = true) ∧
  (∀ (s : State) (d : Byte), s.done = true → d.getLsbD 0 = true →
    ∃ t, exec (.hostWr 0x003#12 d) s = .next t ∧ t.irq = true) ∧
  (∀ (s : State) (d : Byte), d.getLsbD 1 = true → ∃ t, exec (.hostWr 0x001#12 d) s = .next t ∧ t.irq = false) ∧
  (∀ (s : State) (d : Byte), d.getLsbD 0 = false → ∃ t, exec (.hostWr 0x003#12 d) s = .next t ∧ t.irq = false) ∧
  (∀ (s : State) (op : Byte), s.busy = false → s.nextLatency op ≠ 0 →
    ∃ t, exec (decode (commandWord op)) s = .next t ∧ t.irq = false) ∧
  (∀ (s : State) (d : Byte), s.busy = true → d.getLsbD 0 = true →
    ∃ t, exec (.hostWr 0x003#12 d) s = .next t ∧ t.busy = true ∧ t.irqEn = true) ∧
  (∀ s : State, s.busy = true → s.left = 0 → s.rstPin = false → s.irqEn = true →
    (s.port = [] ∨ ∃ a d rest, s.port = .bus (busWord false a d) :: rest) →
    ∃ t, step s = .next t ∧ t.irq = true)

/-! ### Control commands -/

/-- 43_control.md R245: NOP completes with no effect. -/
def Obligations.NopCompletesWithNoEffect : Prop :=
  ∀ s : State, Prompt 0x00#8 s → EndsWith .nop 0x00#8 .ok s

/-- 43_control.md R246: an illegal opcode ends with ILLEGAL_CMD, CMD holds it, and nothing else changes. -/
def Obligations.IllegalOpcodeIsReported : Prop :=
  ∀ (s : State) (op : Byte), Prompt op s → (Instr.illegal op).wf = true →
    EndsWith (.illegal op) op .illegalCmd s

/-! ### Symbol codec -/

/-- 40_symbol_codec.md R131: SYM_ENC. -/
def Obligations.SymEncCommand : Prop :=
  ∀ s : State, Prompt 0x01#8 s →
    (∀ r : Raw6, s.arg[0].toNat = r.toNat →
      ∃ t, exec .symEnc s = .next t ∧ CommandRan 0x01#8 0x00#8 s t ∧ t.peek addrRes0 = s.symTable[r.toNat] ∧
        SameMapExcept (fun a => isCommandReg a ∨ a = addrRes0) s t) ∧
    (64 ≤ s.arg[0].toNat → EndsWith .symEnc 0x01#8 .range s)

/-- 40_symbol_codec.md R132: SYM_DEC. -/
def Obligations.SymDecCommand : Prop :=
  ∀ s : State, Prompt 0x02#8 s →
    (∀ r : Raw6, s.arg[0] = s.symTable[r.toNat] →
      ∃ t, exec .symDec s = .next t ∧ CommandRan 0x02#8 0x00#8 s t ∧
        t.peek addrRes0 = BitVec.ofNat 8 r.toNat ∧
        SameMapExcept (fun a => isCommandReg a ∨ a = addrRes0) s t) ∧
    ((∀ r : Raw6, s.symTable[r.toNat] ≠ s.arg[0]) → EndsWith .symDec 0x02#8 .invalidSymbol s)

/-- 40_symbol_codec.md R133: FLD_ENC of the w-bit value x held by ARG1..ARG6, least significant byte first. The checks in
order; symbol i is that of bits 6*(k-1-i)+5 : 6*(k-1-i) of x. -/
def Obligations.FldEncCommand : Prop :=
  ∀ (s : State) (w o k x : Nat), Prompt 0x03#8 s → w = s.arg[0].toNat → o = s.arg[7].toNat → k = (w + 5) / 6 →
    x = s.arg[1].toNat + 256 * s.arg[2].toNat + 256 ^ 2 * s.arg[3].toNat + 256 ^ 3 * s.arg[4].toNat
      + 256 ^ 4 * s.arg[5].toNat + 256 ^ 5 * s.arg[6].toNat →
    if w = 0 ∨ 48 < w then EndsWith .fldEnc 0x03#8 .badArg s
    else if 256 < o + k then EndsWith .fldEnc 0x03#8 .badArg s
    else if 2 ^ w ≤ x then EndsWith .fldEnc 0x03#8 .range s
    else
      ∃ t, exec .fldEnc s = .next t ∧ CommandRan 0x03#8 0x00#8 s t ∧ t.peek addrRes0 = BitVec.ofNat 8 k ∧
        (∀ i, i < k → t.peek (outBufBase + o + i) =
          s.symTable[x / 2 ^ (6 * (k - 1 - i)) % 64]'(by omega)) ∧
        SameMapExcept (fun a => isCommandReg a ∨ a = addrRes0 ∨ (outBufBase + o ≤ a ∧ a < outBufBase + o + k)) s t

/-- 40_symbol_codec.md R134: FLD_DEC. The checks in order; an invalid symbol is reported ahead of a pad error. -/
def Obligations.FldDecCommand : Prop :=
  ∀ (s : State) (w o k : Nat), Prompt 0x04#8 s → w = s.arg[0].toNat → o = s.arg[7].toNat → k = (w + 5) / 6 →
    if w = 0 ∨ 48 < w then EndsWith .fldDec 0x04#8 .badArg s
    else if 256 < o + k then EndsWith .fldDec 0x04#8 .badArg s
    else
      (∀ j, FirstInvalid s.symTable (s.bufBytes dataBufBase o k) j → FailsAtSymbol .fldDec 0x04#8 j s) ∧
      (∀ gs, SymbolsOf s.symTable (s.bufBytes dataBufBase o k) gs → 2 ^ w ≤ groupValue gs →
        EndsWith .fldDec 0x04#8 .fieldRange s) ∧
      (∀ x, FieldReads s.symTable w (s.bufBytes dataBufBase o k) x →
        ∃ t, exec .fldDec s = .next t ∧ CommandRan 0x04#8 0x00#8 s t ∧
          (∀ i, i < 6 → t.peek (addrRes0 + i) = BitVec.ofNat 8 (x / 256 ^ i)) ∧
          t.peek (addrRes0 + 6) = BitVec.ofNat 8 k ∧ t.peek (addrRes0 + 7) = 0x00#8 ∧
          SameMapExcept (fun a => isCommandReg a ∨ (addrRes0 ≤ a ∧ a < addrRes0 + 8)) s t)

/-- 40_symbol_codec.md R135: STR_ENC. The symbols written stand for the source bytes: every group of four symbols is
that of three bytes (R129, R130). -/
def Obligations.StrEncCommand : Prop :=
  ∀ (s : State) (m a b n : Nat), Prompt 0x05#8 s → m = s.arg[0].toNat → a = s.arg[1].toNat → b = s.arg[2].toNat →
    n = 4 * m / 3 →
    if m % 3 ≠ 0 ∨ m < 3 ∨ 189 < m then EndsWith .strEnc 0x05#8 .badArg s
    else if 256 < a + m then EndsWith .strEnc 0x05#8 .badArg s
    else if 256 < b + n then EndsWith .strEnc 0x05#8 .badArg s
    else
      ∃ t, exec .strEnc s = .next t ∧ CommandRan 0x05#8 0x00#8 s t ∧ t.peek addrRes0 = BitVec.ofNat 8 n ∧
        StringReads s.symTable (t.bufBytes outBufBase b n) (s.bufBytes dataBufBase a m) ∧
        SameMapExcept (fun c => isCommandReg c ∨ c = addrRes0 ∨ (outBufBase + b ≤ c ∧ c < outBufBase + b + n)) s t

/-- 40_symbol_codec.md R136: STR_DEC. OUT_BUF is unchanged on any error. -/
def Obligations.StrDecCommand : Prop :=
  ∀ (s : State) (n a b m : Nat), Prompt 0x06#8 s → n = s.arg[0].toNat → a = s.arg[1].toNat → b = s.arg[2].toNat →
    m = 3 * n / 4 →
    if n % 4 ≠ 0 ∨ n < 4 ∨ 252 < n then EndsWith .strDec 0x06#8 .badArg s
    else if 256 < a + n then EndsWith .strDec 0x06#8 .badArg s
    else if 256 < b + m then EndsWith .strDec 0x06#8 .badArg s
    else
      (∀ j, FirstInvalid s.symTable (s.bufBytes dataBufBase a n) j → FailsAtSymbol .strDec 0x06#8 j s) ∧
      (∀ out, StringReads s.symTable (s.bufBytes dataBufBase a n) out →
        ∃ t, exec .strDec s = .next t ∧ CommandRan 0x06#8 0x00#8 s t ∧
          t.bufBytes outBufBase b m = out ∧
          t.peek addrRes0 = BitVec.ofNat 8 m ∧ t.peek (addrRes0 + 7) = 0x00#8 ∧
          SameMapExcept (fun c => isCommandReg c ∨ c = addrRes0 ∨ c = addrRes0 + 7 ∨
            (outBufBase + b ≤ c ∧ c < outBufBase + b + m)) s t)

/-- 40_symbol_codec.md R122: Dec8 inverts Enc6, and every symbol that decodes is the encoding of what it decodes to, for
every legal configuration. -/
def Obligations.SymbolRoundTrip : Prop :=
  ∀ c : Config,
    (∀ r : Raw6, dec8 c.params.symTable (enc6 c.params.symTable r) = some r) ∧
    (∀ (b : Byte) (r : Raw6), dec8 c.params.symTable b = some r → enc6 c.params.symTable r = b)

/-- 40_symbol_codec.md R121: exactly 192 of the 256 byte values are invalid symbols, for every legal configuration. -/
def Obligations.ExactlyOneHundredNinetyTwoInvalidSymbols : Prop :=
  ∀ c : Config,
    ((List.range 256).filter (fun b => (dec8 c.params.symTable (BitVec.ofNat 8 b)).isNone)).length = 192

/-- 40_symbol_codec.md R127: the field round-trip law. -/
def Obligations.FieldRoundTrip : Prop :=
  ∀ (c : Config) (w x : Nat), 1 ≤ w → w ≤ 48 → x < 2 ^ w →
    ∃ syms, fieldEncode c.params.symTable w x = some syms ∧ syms.length = (w + 5) / 6 ∧
      fieldDecode c.params.symTable w syms = .ok x

/-- 40_symbol_codec.md R130: StringDecode(StringEncode(b)) = Ok b for every b whose length is a multiple of 3. -/
def Obligations.StringRoundTrip : Prop :=
  ∀ (c : Config) (bs : List Byte), bs.length % 3 = 0 →
    (stringEncode c.params.symTable bs).length = 4 * bs.length / 3 ∧
      stringDecode c.params.symTable (stringEncode c.params.symTable bs) = .ok bs

/-! ### Checksum -/

/-- 41_checksum.md R166: the CRC command. The checks in order, then RES0 is the checksum of the range of the selected
buffer. -/
def Obligations.CrcCommand : Prop :=
  ∀ (s : State) (base a n : Nat), Prompt 0x07#8 s → a = s.arg[3].toNat → n = s.arg[4].toNat →
    base = (if s.arg[2] = 0x00#8 then 0x300 else if s.arg[2] = 0x01#8 then 0x100 else if s.arg[2] = 0x02#8 then 0x200
            else 0x600) →
    if s.arg[1] &&& 0xFE#8 ≠ 0x00#8 then EndsWith .crc 0x07#8 .badArg s
    else if 3 < s.arg[2].toNat then EndsWith .crc 0x07#8 .badArg s
    else if 256 < a + n then EndsWith .crc 0x07#8 .badArg s
    else
      ∃ t, exec .crc s = .next t ∧ CommandRan 0x07#8 0x00#8 s t ∧
        t.peek addrRes0 =
          crc8 s.params.crcPoly s.arg[0] (if s.arg[1].getLsbD 0 then .reflected else .forward) (s.bufBytes base a n) ∧
        SameMapExcept (fun c => isCommandReg c ∨ c = addrRes0) s t

/-- 41_checksum.md R162(a): over the empty string Crc8 returns c0, in both orders. -/
def Obligations.CrcOfNothingIsTheInitialValue : Prop :=
  ∀ (poly c0 : Byte) (order : CrcOrder), crc8 poly c0 order [] = c0

/-- 41_checksum.md R164: for a fixed c0, order and length, flipping any one bit of d changes Crc8, for every polynomial
that is not 0x00. -/
def Obligations.CrcCatchesEverySingleBitFlip : Prop :=
  ∀ (poly c0 : Byte) (order : CrcOrder) (before after : List Byte) (b : Byte) (i : Nat),
    poly ≠ 0x00#8 → i < 8 →
    crc8 poly c0 order (before ++ b :: after) ≠ crc8 poly c0 order (before ++ (b ^^^ (0x01#8 <<< i)) :: after)

/-! ### The packet pipeline -/

/-- 42_pipeline.md R185: stage 0 aborts, in the order of its checks; the result registers hold their ClearResults values
except FAIL_REASON, and PLD_BUF is not written. A packet that passes them all is not aborted: valid_digits is 1 and
ERR_CODE is 0x00. -/
def Obligations.PktProcAborts : Prop :=
  (∀ s : State, Prompt 0x10#8 s → PacketAdmitted s →
    ∃ t, exec .pktProc s = .next t ∧ t.pipe.flags.getLsbD 0 = true ∧ t.peek addrErrCode = 0x00#8) ∧
  ∀ (s : State) (e : ErrCode), Prompt 0x10#8 s →
    ((s.pktLen = 0x00#8 ∧ e = .tooShort) ∨
     (s.pktLen ≠ 0x00#8 ∧ s.inFlags.getLsbD 0 = false ∧ e = .badInput) ∨
     (s.pktLen ≠ 0x00#8 ∧ s.inFlags.getLsbD 0 = true ∧ s.pktLen.toNat < s.params.hdrEncLen ∧ e = .tooShort)) →
    ∃ t, exec .pktProc s = .next t ∧ CommandRan 0x10#8 e.code s t ∧
      t.pipe = { PipeRegs.cleared with failReason := 0x09#8 } ∧
      SameMapExcept (fun a => isCommandReg a ∨ (0x020 ≤ a ∧ a < 0x044)) s t

/-- 42_pipeline.md R182, R211, 10_state.md R63: PKT_PROC always completes; past stage 0 its ERR_CODE is 0x00; it writes
the pipeline result registers and PLD_BUF[0..PLD_LEN) and no other register or byte. -/
def Obligations.PktProcWritesOnlyItsResults : Prop :=
  ∀ s : State, Prompt 0x10#8 s →
    ∃ t code, exec .pktProc s = .next t ∧ CommandRan 0x10#8 code s t ∧
      (PacketAdmitted s → code = 0x00#8) ∧
      SameMapExcept (fun a => isCommandReg a ∨ (0x020 ≤ a ∧ a < 0x044) ∨
        (pldBufBase ≤ a ∧ a < pldBufBase + t.pipe.pldLen.toNat)) s t

/-- 42_pipeline.md R186, R187: every header field is decoded independently; its register holds its value, or 0 with its
FIELD_ERR bit set; any failure is the first failure of the packet. -/
def Obligations.PktProcDecodesTheHeader : Prop :=
  ∀ s : State, Prompt 0x10#8 s → PacketAdmitted s →
    ∃ t, exec .pktProc s = .next t ∧
      (∀ (f : HdrField) (v : Nat),
        v = (match f with
          | .rptr => t.pipe.rptrDid.toNat | .hcrc => t.pipe.hcrcRx.toNat | .dst => t.pipe.dstDid.toNat
          | .nid => t.pipe.nid.toNat | .src => t.pipe.srcDid.toNat | .pid => t.pipe.pid.toNat) →
        (∀ x, HeaderReads s f x → v = x ∧ t.pipe.fieldErr.getLsbD f.bit = false) ∧
        ((∀ x, ¬ HeaderReads s f x) → v = 0 ∧ t.pipe.fieldErr.getLsbD f.bit = true)) ∧
      (t.pipe.fieldErr &&& 0x3F#8 ≠ 0x00#8 → t.pipe.failReason = 0x01#8 ∧ t.pipe.flags.getLsbD 1 = false)

/-- 42_pipeline.md R188: HCRC_CALC is the checksum of the bytes HCRC_COVER names, in list order, with CRC_INIT and
CRC_ORDER; valid_header_checksum is 1 exactly when the HCRC field decoded to it. -/
def Obligations.PktProcChecksTheHeader : Prop :=
  ∀ s : State, Prompt 0x10#8 s → PacketAdmitted s →
    ∃ t, exec .pktProc s = .next t ∧
      t.pipe.hcrcCalc = crc8 s.params.crcPoly s.params.crcInit s.params.crcOrder
        (s.params.hcrcCover.map (fun i => s.peek (pktBufBase + i))) ∧
      (t.pipe.flags.getLsbD 2 = true ↔ HeaderReads s .hcrc t.pipe.hcrcCalc.toNat) ∧
      (t.pipe.flags.getLsbD 2 = false → t.pipe.fieldErr &&& 0x3F#8 = 0x00#8 → t.pipe.failReason = 0x02#8)

/-- 42_pipeline.md R190, R194: classification by the PID. A PID that does not decode, or whose low 6 bits have no kind,
leaves KIND 0xFF and valid_pid 0; the flags of a decoded PID are written either way; no later stage runs, so that every
register of stages 5 to 8 keeps its cleared value. -/
def Obligations.PktProcClassifiesByPid : Prop :=
  ∀ s : State, Prompt 0x10#8 s → PacketAdmitted s →
    ∃ t, exec .pktProc s = .next t ∧
      (∀ pid k, PidIs s pid k → t.pipe.kind = BitVec.ofNat 8 k.index.val) ∧
      (∀ pid, HeaderReads s .pid pid →
        t.pipe.pidFlags.getLsbD 0 = pidMh s pid ∧ t.pipe.pidFlags.getLsbD 1 = pidSa s pid) ∧
      ((∀ x, ¬ HeaderReads s .pid x) → t.pipe.pidFlags = 0x00#8) ∧
      ((∀ pid k, ¬ PidIs s pid k) →
        t.pipe.kind = 0xFF#8 ∧ t.pipe.flags.getLsbD 3 = false ∧ NoLaterStage t.pipe ∧
        (t.pipe.fieldErr &&& 0x3F#8 = 0x00#8 → t.pipe.flags.getLsbD 2 = true → t.pipe.failReason = 0x03#8))

/-- 42_pipeline.md R192, R193, R194: valid_pid is 1 exactly when the packet has a kind and the length the PID implies. On
a mismatch KIND is kept and no later stage runs: every register of stages 5 to 8 keeps its cleared value. -/
def Obligations.PktProcChecksTheLength : Prop :=
  ∀ (s : State) (pid : Nat) (k : Kind), Prompt 0x10#8 s → PidIs s pid k →
    ∃ t, exec .pktProc s = .next t ∧
      (t.pipe.flags.getLsbD 3 = true ↔ Classified s pid k) ∧
      (¬ Classified s pid k →
        t.pipe.kind = BitVec.ofNat 8 k.index.val ∧ NoLaterStage t.pipe ∧
        (t.pipe.fieldErr &&& 0x3F#8 = 0x00#8 → t.pipe.flags.getLsbD 2 = true → t.pipe.failReason = 0x04#8))

/-- 42_pipeline.md R195: the hop field of a multi-hop packet stands right after the payload; HOPS and MAX_HOPS are its
bit ranges, or 0 with FIELD_ERR.HOP set and HOP_DECODE recorded if it is the first failure; with MH = 0 both are 0. -/
def Obligations.PktProcReadsTheHopField : Prop :=
  ∀ (s : State) (pid : Nat) (k : Kind) (syms : List Byte), Prompt 0x10#8 s → Classified s pid k →
    syms = s.pktBytes (s.params.hdrEncLen + s.params.payloadSymbols k) s.params.hopEncLen →
    ∃ t, exec .pktProc s = .next t ∧
      (pidMh s pid = false →
        t.pipe.hops = 0x00#8 ∧ t.pipe.maxHops = 0x00#8 ∧ t.pipe.fieldErr.getLsbD 6 = false) ∧
      (pidMh s pid = true →
        (∀ h, FieldReads s.symTable (6 * s.params.hopEncLen) syms h →
          t.pipe.hops.toNat =
            h / 2 ^ s.params.hopsBits.lo % 2 ^ (s.params.hopsBits.hi - s.params.hopsBits.lo + 1) ∧
          t.pipe.maxHops.toNat =
            h / 2 ^ s.params.maxHopsBits.lo % 2 ^ (s.params.maxHopsBits.hi - s.params.maxHopsBits.lo + 1) ∧
          t.pipe.fieldErr.getLsbD 6 = false) ∧
        ((∀ h, ¬ FieldReads s.symTable (6 * s.params.hopEncLen) syms h) →
          t.pipe.hops = 0x00#8 ∧ t.pipe.maxHops = 0x00#8 ∧ t.pipe.fieldErr.getLsbD 6 = true ∧
          t.pipe.flags.getLsbD 1 = false ∧
          (t.pipe.fieldErr &&& 0x3F#8 = 0x00#8 → t.pipe.flags.getLsbD 2 = true → t.pipe.failReason = 0x05#8)))

/-- 42_pipeline.md R196, R198, R200: a payload with an invalid symbol sets FIELD_ERR.PLD, records PLD_DECODE if it is the
first failure, and skips decryption, so that every register of stages 7 and 8 keeps its cleared value; a payload that
decodes sets PLD_LEN to its length, trailer included, and KEY_RING and ROUNDS by the kind. -/
def Obligations.PktProcDecodesThePayload : Prop :=
  ∀ (s : State) (pid : Nat) (k : Kind), Prompt 0x10#8 s → Classified s pid k →
    ∃ t, exec .pktProc s = .next t ∧
      (∀ d, StringReads s.symTable (payloadSyms s k) d →
        t.pipe.pldLen.toNat = d.length ∧ d.length = 3 * s.params.payloadSymbols k / 4 ∧
        t.pipe.fieldErr.getLsbD 7 = false ∧
        t.pipe.rounds.toNat =
          (if k = .stream ∨ k = .streamAck ∨ k = .streamNack ∨ k = .streamTerm then s.params.reducedRounds
           else s.params.fullRounds) ∧
        t.pipe.keyRing = (if k = .invite ∨ k = .inviteReq then 0x01#8 else 0x00#8)) ∧
      ((∀ d, ¬ StringReads s.symTable (payloadSyms s k) d) →
        t.pipe.fieldErr.getLsbD 7 = true ∧ t.pipe.flags.getLsbD 1 = false ∧ NoDecryption t.pipe ∧
        (t.pipe.fieldErr &&& 0x7F#8 = 0x00#8 → t.pipe.flags.getLsbD 2 = true → t.pipe.failReason = 0x06#8))

/-- 42_pipeline.md R201, R203, R205: at most one key is accepted, the first in keyring order whose checksum matches. Its
index, the count of keys tried, both checksums, the plaintext followed by the untouched trailer, and both flags. -/
def Obligations.PktProcAcceptsTheFirstMatchingKey : Prop :=
  ∀ (s : State) (pid : Nat) (k : Kind) (d : List Byte) (i : Nat),
    Prompt 0x10#8 s → Classified s pid k → StringReads s.symTable (payloadSyms s k) d → Accepted s k d i →
    ∃ t, exec .pktProc s = .next t ∧
      t.pipe.keyIdx.toNat = i ∧ t.pipe.keysTried.toNat = i + 1 ∧
      t.pipe.pldCrcCalc = payloadCrc s.params (s.plaintext k (cipherRegion s.params d) i) ∧
      t.pipe.pldCrcRx = t.pipe.pldCrcCalc ∧
      t.pipe.flags.getLsbD 4 = true ∧ t.pipe.flags.getLsbD 5 = true ∧
      PldBufHolds t (s.plaintext k (cipherRegion s.params d) i ++ trailer s.params d) ∧
      t.pipe.msgId = byteAt (s.plaintext k (cipherRegion s.params d) i) s.params.msgIdIdx

/-- 42_pipeline.md R204: no key of the ring was accepted, the empty ring included: KEY_IDX stays 0xFF, there is no
Payload, PLD_BUF holds the decoded, still encrypted payload, the checksums are those of the last key tried, and DECRYPT is
recorded if it is the first failure. -/
def Obligations.PktProcWithNoMatchingKey : Prop :=
  ∀ (s : State) (pid : Nat) (k : Kind) (d : List Byte),
    Prompt 0x10#8 s → Classified s pid k → StringReads s.symTable (payloadSyms s k) d → (∀ i, ¬ Accepted s k d i) →
    ∃ t, exec .pktProc s = .next t ∧
      t.pipe.keyIdx = 0xFF#8 ∧ t.pipe.keysTried.toNat = s.ringCount k ∧
      t.pipe.flags.getLsbD 4 = false ∧ t.pipe.flags.getLsbD 5 = false ∧ t.pipe.flags.getLsbD 6 = false ∧
      NoPayload t.pipe ∧ PldBufHolds t d ∧
      (t.pipe.fieldErr = 0x00#8 → t.pipe.flags.getLsbD 2 = true → t.pipe.failReason = 0x07#8) ∧
      (s.ringCount k = 0 → t.pipe.pldCrcCalc = 0x00#8 ∧ t.pipe.pldCrcRx = 0x00#8) ∧
      (∀ n, s.ringCount k = n + 1 →
        t.pipe.pldCrcCalc = payloadCrc s.params (s.plaintext k (cipherRegion s.params d) n) ∧
        t.pipe.pldCrcRx = byteAt (s.plaintext k (cipherRegion s.params d) n) s.params.pldCrcIdx)

/-- 42_pipeline.md R206, R207, R208: the message identifier and the variant of each kind, by the accepted plaintext: the
message type of single data, the fields of a response; parse_err for an unknown message type only, with VARIANT NONE and
PARSE recorded if it is the first failure. -/
def Obligations.PktProcDispatchesTheVariant : Prop :=
  ∀ (s : State) (pid : Nat) (k : Kind) (d pt : List Byte) (i : Nat),
    Prompt 0x10#8 s → Classified s pid k → StringReads s.symTable (payloadSyms s k) d → Accepted s k d i →
    pt = s.plaintext k (cipherRegion s.params d) i →
    ∃ t, exec .pktProc s = .next t ∧ t.pipe.msgId = byteAt pt s.params.msgIdIdx ∧
      (k = .singleData →
        t.pipe.msgType = byteAt pt s.params.msgTypeIdx ∧
        t.pipe.variant = (match s.params.msgTypeMap[(byteAt pt s.params.msgTypeIdx).toNat] with
          | some .app => 0x01#8 | some .admin => 0x02#8 | some .features => 0x03#8 | some .route => 0x04#8
          | none => 0x00#8) ∧
        t.pipe.adminType =
          (if s.params.msgTypeMap[(byteAt pt s.params.msgTypeIdx).toNat] = some .admin
           then byteAt pt s.params.adminTypeIdx else 0x00#8) ∧
        (t.pipe.flags.getLsbD 7 = true ↔ s.params.msgTypeMap[(byteAt pt s.params.msgTypeIdx).toNat] = none) ∧
        (t.pipe.flags.getLsbD 7 = true → t.pipe.fieldErr = 0x00#8 → t.pipe.flags.getLsbD 2 = true →
          t.pipe.failReason = 0x08#8)) ∧
      (k ≠ .singleData → t.pipe.msgType = 0x00#8 ∧ t.pipe.adminType = 0x00#8 ∧ t.pipe.flags.getLsbD 7 = false) ∧
      (k = .route → t.pipe.variant = 0x04#8) ∧
      (k = .invite ∨ k = .inviteReq → t.pipe.variant = 0x05#8) ∧
      (k = .block ∨ k = .blockTerm → t.pipe.variant = 0x07#8) ∧
      (k = .stream ∨ k = .streamTerm → t.pipe.variant = 0x08#8) ∧
      (k = .singleAck ∨ k = .routeAck ∨ k = .blockAck ∨ k = .streamAck →
        t.pipe.variant = 0x06#8 ∧ t.pipe.respKind = 0x01#8) ∧
      (k = .singleNack ∨ k = .routeNack ∨ k = .blockNack ∨ k = .streamNack →
        t.pipe.variant = 0x06#8 ∧ t.pipe.respKind = 0x02#8) ∧
      (k.usesResponse = true →
        t.pipe.respReason = byteAt pt s.params.respReasonIdx ∧
        t.pipe.respHandle = byteAt pt s.params.respHandleIdx ∧
        t.pipe.respLen = s.params.respBytes[(byteAt pt s.params.respHandleIdx).toNat]) ∧
      (k.usesResponse = false →
        t.pipe.respKind = 0x00#8 ∧ t.pipe.respReason = 0x00#8 ∧ t.pipe.respHandle = 0x00#8 ∧
        t.pipe.respLen = 0x00#8)

/-- 42_pipeline.md R197, R209: valid_decode is 1 exactly when no decode that was attempted failed, and valid is the AND
of the six sub-flags; on an abort both are 0. -/
def Obligations.PktProcOverallValidity : Prop :=
  ∀ s : State, Prompt 0x10#8 s →
    ∃ t, exec .pktProc s = .next t ∧
      (PacketAdmitted s → t.pipe.flags.getLsbD 0 = true ∧
        (t.pipe.flags.getLsbD 1 = true ↔ t.pipe.fieldErr = 0x00#8)) ∧
      (¬ PacketAdmitted s → t.pipe.flags = 0x00#8) ∧
      (t.pipe.flags.getLsbD 6 = (t.pipe.flags.getLsbD 0 && t.pipe.flags.getLsbD 1 && t.pipe.flags.getLsbD 2 &&
        t.pipe.flags.getLsbD 3 && t.pipe.flags.getLsbD 4 && t.pipe.flags.getLsbD 5))

/-- 60_exceptions.md R263, 42_pipeline.md R184, R207: FAIL_REASON is 0x00 exactly when no stage failed: the packet is
valid and its message type is known. -/
def Obligations.NoFailReasonMeansAFullyValidPacket : Prop :=
  ∀ s : State, Prompt 0x10#8 s →
    ∃ t, exec .pktProc s = .next t ∧ (t.pipe.failReason = 0x00#8 ↔ t.pipe.flags = 0x7F#8)

/-- 42_pipeline.md R205(a), 10_state.md R63: PKT_PROC run twice in a row gives identical results: the second run leaves
every address of the map as the first left it. -/
def Obligations.PktProcTwiceIsPktProcOnce : Prop :=
  ∀ s : State, Prompt 0x10#8 s →
    ∃ t, exec .pktProc s = .next t ∧
      (Prompt 0x10#8 t → ∃ u, exec .pktProc t = .next u ∧ ∀ a, a < 0x1000 → u.peek a = t.peek a)

/-! ### Rules of the whole machine -/

/-- 10_state.md R62: only host writes change ARG. If a transaction changes an ARG register, it is a HOST_WR to that
register, while IDLE; if a step does, a command's completion included, the step takes such a write or asserts reset. -/
def Obligations.OnlyHostWritesChangeArg : Prop :=
  (∀ (s t : State) (i : Instr) (n : Nat) (h : n < 16), exec i s = .next t → t.arg[n] ≠ s.arg[n] →
    s.busy = false ∧ ∃ a d, i = .hostWr a d ∧ a.toNat = addrArg0 + n ∧ t.arg[n] = d) ∧
  (∀ (s t : State) (n : Nat) (h : n < 16), step s = .next t → ¬ ResetInStep s → t.arg[n] ≠ s.arg[n] →
    (s.busy = false ∨ s.left = 0) ∧ ∃ a d, HostWriteInStep s a d ∧ a.toNat = addrArg0 + n ∧ t.arg[n] = d)

/-- 10_state.md R62, section 4: only commands change RES, and only PKT_PROC changes the pipeline result registers. It is
said of the transaction that starts a command, and of every step: a running command changes them in the step in which it
completes. -/
def Obligations.OnlyCommandsChangeResults : Prop :=
  (∀ (s t : State) (i : Instr), i.wf = true → exec i s = .next t →
    (t.pipe ≠ s.pipe → i = .pktProc) ∧
    (t.res ≠ s.res → i = .symEnc ∨ i = .symDec ∨ i = .fldEnc ∨ i = .fldDec ∨ i = .strEnc ∨ i = .strDec ∨ i = .crc)) ∧
  (∀ s t : State, step s = .next t → ¬ ResetInStep s →
    (t.pipe ≠ s.pipe → CommandInStep s 0x10#8) ∧
    (t.res ≠ s.res → ∃ op : Byte, 0x01 ≤ op.toNat ∧ op.toNat ≤ 0x07 ∧ CommandInStep s op))

/-- 42_pipeline.md R182, 10_state.md R56, R59: no command writes PKT_BUF, DATA_BUF, a keyring, a count or another input.
It is said of the transaction that starts a command, and of every step that takes no plain host write and no reset: the
completion of a running command is in it. -/
def Obligations.CommandsNeverWriteTheirInputs : Prop :=
  (∀ (s t : State) (op : Byte), exec (decode (commandWord op)) s = .next t →
    t.keyCount = s.keyCount ∧ t.invKeyCount = s.invKeyCount ∧ t.pktLen = s.pktLen ∧ t.inFlags = s.inFlags ∧
    t.arg = s.arg ∧
    ∀ a, (0x100 ≤ a ∧ a < 0x200) ∨ (0x300 ≤ a ∧ a < 0x600) → t.peek a = s.peek a) ∧
  (∀ s t : State, step s = .next t → ¬ ResetInStep s → (∀ a d, ¬ HostWriteInStep s a d) →
    t.keyCount = s.keyCount ∧ t.invKeyCount = s.invKeyCount ∧ t.pktLen = s.pktLen ∧ t.inFlags = s.inFlags ∧
    t.arg = s.arg ∧
    ∀ a, (0x100 ≤ a ∧ a < 0x200) ∨ (0x300 ≤ a ∧ a < 0x600) → t.peek a = s.peek a)

/-- 43_control.md R242 to R244, 20_memory.md R83, 70_reset_and_hazards.md R301: a command with LATENCY n + 1 under host
traffic. Whatever n transactions the host issues meanwhile, the command is still BUSY after them; at the start of the
next step it completes, in a state that shows at every address but STATUS and CTRL what the same command with LATENCY 0
shows, with its BUSY, DONE and ERR, and with the BUSY_WR and CTRL the host left; a transaction of that step then meets
this state. That a LATENCY counts steps, and that the completion comes before every transaction of its step, are the
model's own (notes/assumptions/3 and 20). -/
def Obligations.SlowCommandCompletesUnderTraffic : Prop :=
  ∀ (s : State) (op : Byte) (n : Nat) (ws : List BusWord) (rest : List PortEvent),
    s.busy = false → s.rstPin = false → s.nextLatency op = n + 1 → ws.length = n →
    s.port = ws.map PortEvent.bus ++ rest →
    ∃ t v c u : State, exec (decode (commandWord op)) s = .next t ∧ Host.Core.run core n t = .next v ∧ v.busy = true ∧
      exec (decode (commandWord op)) (s.withLatency (.fixed 0)) = .next u ∧
      (rest = [] → step v = .next c) ∧
      (∀ w more, rest = .bus w :: more → step v = exec (decode w) { c with port := more }) ∧
      (∀ a, a < 0x1000 → a ≠ addrStatus → a ≠ addrCtrl → c.peek a = u.peek a) ∧
      c.peek addrStatus &&& 0x07#8 = u.peek addrStatus &&& 0x07#8 ∧
      (c.peek addrStatus).getLsbD 3 = (v.peek addrStatus).getLsbD 3 ∧ c.peek addrCtrl = v.peek addrCtrl ∧
      c.port = rest ∧ SamePins v c ∧ SameReads v c
end

