-- ==== Sys2Proof/Laws/Checksum.lean ====
section
/-! SUPPORT. The laws of the checksum engine: bytes are folded in one after the other, so that a checksum continues from
the checksum of what came before. -/

namespace Sys2Proof.Machine

/-- A checksum over a first byte and the rest (41_checksum.md R160, R161). -/
theorem crc8_cons (poly c0 : Byte) (o : CrcOrder) (b : Byte) (d : List Byte) :
    crc8 poly c0 o (b :: d) = crc8 poly (crcByte poly o c0 b) o d := rfl

/-- A checksum over two strings joined is that of the second, started at that of the first. -/
theorem crc8_append (poly c0 : Byte) (o : CrcOrder) (d e : List Byte) :
    crc8 poly c0 o (d ++ e) = crc8 poly (crc8 poly c0 o d) o e := by
  simp [crc8, List.foldl_append]

end Sys2Proof.Machine
end

