-- ==== Sys2Proof/Laws/Codec.lean ====
section
/-! SUPPORT. The laws of the symbol codec: Dec8 against the table, decoded groups against the symbols they stand for,
fields and strings against `FieldReads` and `StringReads`. -/

namespace Sys2Proof.Machine

/-- The Boolean check of the configuration says that no value stands twice. -/
theorem distinct_iff_nodup {α : Type} [DecidableEq α] (l : List α) : distinct l = true ↔ l.Nodup := by
  induction l with
  | nil => simp [distinct]
  | cons x xs ih => simp [distinct, ih]

/-- SYM_TABLE is injective in every legal configuration (00_scope.md R8, 40_symbol_codec.md R120). -/
theorem Config.symTable_injective (c : Config) (i j : Nat) (hi : i < 64) (hj : j < 64)
    (h : c.params.symTable[i] = c.params.symTable[j]) : i = j := by
  have hl := c.legal
  simp only [Params.legal, Bool.and_eq_true, and_assoc] at hl
  have hn := (distinct_iff_nodup _).1 hl.1
  exact (List.Nodup.getElem_inj_iff hn (i := i) (j := j) (hi := by simpa using hi) (hj := by simpa using hj)).1
    (by simpa using h)

/-- A table in which the 64 symbols are distinct. -/
def TableInjective (t : Vector Byte 64) : Prop :=
  ∀ i j (hi : i < 64) (hj : j < 64), t[i] = t[j] → i = j

/-- What Dec8 answers is a raw value whose symbol it was given. -/
theorem dec8_some {t : Vector Byte 64} {s : Byte} {r : Raw6} (h : dec8 t s = some r) : t[r.toNat] = s := by
  obtain ⟨i, hi, rfl⟩ := Option.map_eq_some_iff.1 h
  have hp := List.find?_some hi
  have hm := List.mem_range.1 (List.mem_of_find?_eq_some hi)
  simp only [beq_iff_eq] at hp
  have e : (BitVec.ofNat 6 i).toNat = i := by simp; omega
  have hg : t[i]? = some t[i] := Vector.getElem?_eq_getElem hm
  rw [hg] at hp
  simp only [Option.some.injEq] at hp
  simp only [e, hp]

/-- Dec8 refuses exactly the bytes that are no symbol. -/
theorem dec8_none_iff {t : Vector Byte 64} {s : Byte} : dec8 t s = none ↔ ∀ r : Raw6, t[r.toNat] ≠ s := by
  constructor
  · intro h r hr
    have h' := List.find?_eq_none.1 (Option.map_eq_none_iff.1 h) r.toNat (List.mem_range.2 (by have := r.isLt; omega))
    apply h'
    rw [Vector.getElem?_eq_getElem (by have := r.isLt; omega)]
    simp [hr]
  · intro h
    cases hd : dec8 t s with
    | none => rfl
    | some r => exact absurd (dec8_some hd) (h r)

/-- Dec8 of a symbol of the table, when the symbols are distinct. -/
theorem dec8_symbol {t : Vector Byte 64} (ht : TableInjective t) (r : Raw6) : dec8 t t[r.toNat] = some r := by
  cases hd : dec8 t t[r.toNat] with
  | none => exact absurd rfl (dec8_none_iff.1 hd r)
  | some q =>
    have := ht _ _ (by have := q.isLt; omega) (by have := r.isLt; omega) (dec8_some hd)
    exact congrArg some (BitVec.eq_of_toNat_eq this)

/-- Decoded groups are those whose symbols were given. -/
theorem decodeGroups_ok_iff {t : Vector Byte 64} (ht : TableInjective t) {ss : List Byte} {gs : List Raw6} :
    decodeGroups t ss = .ok gs ↔ SymbolsOf t ss gs := by
  unfold SymbolsOf
  induction ss generalizing gs with
  | nil => cases gs <;> simp [decodeGroups]
  | cons s ss ih =>
    cases gs with
    | nil =>
      simp only [decodeGroups, List.map_nil, reduceCtorEq, iff_false]
      split <;> try simp
      split <;> simp
    | cons g gs =>
      simp only [List.map_cons, List.cons.injEq, decodeGroups, ← ih]
      split
      case h_1 hd => simp [(dec8_none_iff.1 hd g).symm]
      case h_2 q hd =>
        have hq : s = t[g.toNat] ↔ q = g := by
          constructor
          · intro h
            rw [h, dec8_symbol ht] at hd
            exact (Option.some.inj hd).symm
          · intro h
            rw [← h, dec8_some hd]
        rw [hq]
        cases decodeGroups t ss <;> simp

/-- Decoding stops at the first invalid symbol. -/
theorem decodeGroups_error_iff {t : Vector Byte 64} {ss : List Byte} {j : Nat} :
    decodeGroups t ss = .error j ↔ FirstInvalid t ss j := by
  unfold FirstInvalid
  induction ss generalizing j with
  | nil => simp [decodeGroups]
  | cons s ss ih =>
    simp only [decodeGroups]
    cases hd : dec8 t s with
    | none =>
      have hn := dec8_none_iff.1 hd
      cases j with
      | zero => simp [hn]
      | succ j =>
        simp only [Except.error.injEq, Nat.right_eq_add, Nat.add_eq_zero_iff, Nat.succ_ne_self, and_false, false_iff]
        rintro ⟨-, h⟩
        obtain ⟨q, hq, r, hr⟩ := h 0 (by omega)
        simp at hq
        exact hn r (hr.trans hq.symm)
    | some g =>
      have hg := dec8_some hd
      cases j with
      | zero =>
        constructor
        · intro h
          cases hx : decodeGroups t ss with
          | error i => simp [hx] at h
          | ok gs => simp [hx] at h
        · rintro ⟨⟨q, hq, hr⟩, -⟩
          simp at hq
          exact absurd (hg.trans hq) (hr g)
      | succ j =>
        have e : (match decodeGroups t ss with
            | .error i => (.error (i + 1) : Except Nat (List Raw6))
            | .ok gs => .ok (g :: gs)) = .error (j + 1) ↔ decodeGroups t ss = .error j := by
          cases decodeGroups t ss <;> simp
        refine e.trans (ih.trans ?_)
        simp only [List.getElem?_cons_succ]
        refine and_congr_right (fun _ => ?_)
        constructor
        · intro h i hi
          cases i with
          | zero => exact ⟨s, rfl, g, hg⟩
          | succ i => exact h i (by omega)
        · intro h i hi
          exact h (i + 1) (by omega)

/-- Joining groups left to right with a start value. -/
theorem foldl_join (gs : List Raw6) (x : Nat) :
    gs.foldl (fun x g => x * 64 + g.toNat) x = x * 64 ^ gs.length + groupValue gs := by
  induction gs generalizing x with
  | nil => simp [groupValue]
  | cons g gs ih =>
    simp only [List.foldl_cons, ih, groupValue, List.length_cons, Nat.pow_succ]
    ring

/-- The joined value is the value of the groups, the first most significant. -/
theorem joinGroups_eq (gs : List Raw6) : joinGroups gs = groupValue gs := by
  simp [joinGroups, foldl_join]

theorem groupValue_lt (gs : List Raw6) : groupValue gs < 64 ^ gs.length := by
  induction gs with
  | nil => simp [groupValue]
  | cons g gs ih =>
    have := g.isLt
    simp only [groupValue, List.length_cons, Nat.pow_succ]
    nlinarith [Nat.pow_pos (n := gs.length) (show 0 < 64 by omega)]

theorem SymbolsOf.length {t : Vector Byte 64} {ss : List Byte} {gs : List Raw6} (h : SymbolsOf t ss gs) :
    ss.length = gs.length := by
  rw [h, List.length_map]

/-- FieldDecode answers a value exactly when the symbols stand for it (40_symbol_codec.md R126). -/
theorem fieldDecode_ok_iff {t : Vector Byte 64} (ht : TableInjective t) {w : Nat} {ss : List Byte} {x : Nat} :
    fieldDecode t w ss = .ok x ↔ FieldReads t w ss x := by
  unfold fieldDecode FieldReads
  cases hd : decodeGroups t ss with
  | error j =>
    simp only [reduceCtorEq, false_iff]
    rintro ⟨gs, hg, -⟩
    rw [(decodeGroups_ok_iff ht).2 hg] at hd
    exact absurd hd (by simp)
  | ok gs =>
    have hs := (decodeGroups_ok_iff ht).1 hd
    have uniq : ∀ gs', SymbolsOf t ss gs' → gs' = gs := fun gs' h' => by
      have := (decodeGroups_ok_iff ht).2 h'
      rw [hd] at this
      exact (Except.ok.inj this).symm
    simp only [joinGroups_eq]
    constructor
    · intro h
      split at h
      · next hlt =>
        cases h
        exact ⟨gs, hs, rfl, hlt⟩
      · simp at h
    · rintro ⟨gs', h', rfl, hlt⟩
      rw [uniq gs' h'] at hlt ⊢
      simp [hlt]

/-- The 3n bytes of 4n groups, first most significant. -/
theorem splitBytes_eq_groupBytes (n : Nat) (gs : List Raw6) (h : gs.length = 4 * n) :
    splitBytes (3 * n) (groupValue gs) = groupBytes gs := by
  induction n generalizing gs with
  | zero =>
    have : gs = [] := List.eq_nil_of_length_eq_zero (by omega)
    subst this
    rfl
  | succ n ih =>
    match gs, h with
    | g0 :: g1 :: g2 :: g3 :: gs, h =>
      have hl : gs.length = 4 * n := by simp only [List.length_cons] at h; omega
      have hv := groupValue_lt gs
      rw [groupBytes, ← ih gs hl]
      have p64 : (64 : Nat) ^ gs.length = 256 ^ (3 * n) := by
        rw [hl, Nat.pow_mul, Nat.pow_mul]
      set V := groupValue gs with hV
      have hlt : V < 256 ^ (3 * n) := p64 ▸ hv
      have hval : groupValue (g0 :: g1 :: g2 :: g3 :: gs) =
          (((g0.toNat * 64 + g1.toNat) * 64 + g2.toNat) * 64 + g3.toNat) * 256 ^ (3 * n) + V := by
        simp only [groupValue, List.length_cons, Nat.pow_succ, p64, ← hV]
        ring
      rw [hval]
      set A := ((g0.toNat * 64 + g1.toNat) * 64 + g2.toNat) * 64 + g3.toNat with hA
      have a0 := g0.isLt
      have a1 := g1.isLt
      have a2 := g2.isLt
      have a3 := g3.isLt
      have div_ge : ∀ k, (A * 256 ^ (3 * n) + V) / 256 ^ (3 * n + k) = A / 256 ^ k := by
        intro k
        rw [Nat.pow_add, ← Nat.div_div_eq_div_mul, Nat.mul_comm A, Nat.mul_add_div (by positivity),
          Nat.div_eq_of_lt hlt, Nat.add_zero]
      have e : 3 * (n + 1) = 1 + (1 + (1 + 3 * n)) := by omega
      unfold splitBytes
      rw [e, List.range_add, List.range_add (n := 1) (m := 1 + 3 * n), List.range_add (n := 1) (m := 3 * n)]
      simp only [List.range_one, List.map_cons, List.singleton_append, List.map_map, List.cons.injEq]
      refine ⟨?_, ?_, ?_, ?_⟩
      · apply BitVec.eq_of_toNat_eq
        have : 1 + (1 + (1 + 3 * n)) - 1 - 0 = 3 * n + 2 := by omega
        rw [this, div_ge]
        simp only [BitVec.toNat_ofNat]
        omega
      · apply BitVec.eq_of_toNat_eq
        have : 1 + (1 + (1 + 3 * n)) - 1 - (1 + 0) = 3 * n + 1 := by omega
        rw [this, div_ge]
        simp only [BitVec.toNat_ofNat]
        omega
      · apply BitVec.eq_of_toNat_eq
        have : 1 + (1 + (1 + 3 * n)) - 1 - (1 + (1 + 0)) = 3 * n + 0 := by omega
        rw [this, div_ge]
        simp only [BitVec.toNat_ofNat]
        omega
      · refine List.map_congr_left (fun j hj => ?_)
        have hj := List.mem_range.1 hj
        have : 1 + (1 + (1 + 3 * n)) - 1 - (1 + (1 + (1 + j))) = 3 * n - 1 - j := by omega
        simp only [Function.comp, this]
        apply BitVec.eq_of_toNat_eq
        simp only [BitVec.toNat_ofNat]
        have hp : (256 : Nat) ^ (3 * n) = 256 ^ (3 * n - 1 - j) * (256 * 256 ^ j) := by
          rw [← Nat.pow_succ', ← Nat.pow_add]
          congr 1
          omega
        have hpos : 0 < (256 : Nat) ^ (3 * n - 1 - j) := by positivity
        have e2 : A * 256 ^ (3 * n) = 256 ^ (3 * n - 1 - j) * (256 * (A * 256 ^ j)) := by
          rw [hp]; ring
        rw [e2, Nat.mul_add_div hpos]
        omega

/-- StringDecode answers bytes exactly when the symbols stand for them (40_symbol_codec.md R129). -/
theorem stringDecode_ok_iff {t : Vector Byte 64} (ht : TableInjective t) {ss : List Byte} {d : List Byte}
    (hl : ss.length % 4 = 0) : stringDecode t ss = .ok d ↔ StringReads t ss d := by
  unfold stringDecode StringReads
  cases hd : decodeGroups t ss with
  | error j =>
    simp only [reduceCtorEq, false_iff]
    rintro ⟨gs, hg, -⟩
    rw [(decodeGroups_ok_iff ht).2 hg] at hd
    exact absurd hd (by simp)
  | ok gs =>
    have hs := (decodeGroups_ok_iff ht).1 hd
    have hn : gs.length = 4 * (gs.length / 4) := by
      have := hs.length
      omega
    have h3 : 3 * ss.length / 4 = 3 * (gs.length / 4) := by
      have := hs.length
      omega
    have hb := splitBytes_eq_groupBytes _ gs hn
    simp only [joinGroups_eq, h3, hb, Except.ok.injEq]
    constructor
    · exact fun h => ⟨gs, hs, h⟩
    · rintro ⟨gs', h', rfl⟩
      have := (decodeGroups_ok_iff ht).2 h'
      rw [hd] at this
      rw [Except.ok.inj this]

theorem splitGroups_length (k x : Nat) : (splitGroups k x).length = k := by simp [splitGroups]

theorem splitBytes_length (m x : Nat) : (splitBytes m x).length = m := by simp [splitBytes]

/-- The bytes a decoded string has. -/
theorem stringDecode_length {t : Vector Byte 64} {ss d : List Byte} (h : stringDecode t ss = .ok d) :
    d.length = 3 * ss.length / 4 := by
  unfold stringDecode at h
  split at h
  · simp at h
  · cases h
    exact splitBytes_length _ _

/-- The symbols an encoded string has. -/
theorem stringEncode_length (t : Vector Byte 64) (bs : List Byte) :
    (stringEncode t bs).length = 4 * bs.length / 3 := by
  simp [stringEncode, splitGroups_length]

/-- The symbols an encoded field has. -/
theorem fieldEncode_length {t : Vector Byte 64} {w x : Nat} {syms : List Byte} (h : fieldEncode t w x = some syms) :
    syms.length = symbolCount w := by
  unfold fieldEncode at h
  split at h
  · cases h
    simp [splitGroups_length]
  · simp at h

end Sys2Proof.Machine
end

