-- ==== Sys2Proof/Laws/Memory.lean ====
section
/-! SUPPORT. The laws of the memory: reading after writing, and every operation keeps the canonical form. -/

namespace Sys2Proof.Machine

@[simp] theorem Memory.read?_nil (a : Nat) : Memory.read? [] a = none := rfl

@[simp] theorem Memory.wf_nil : Memory.wf [] = true := rfl

theorem Memory.wf_cons {b : Nat} {w : Byte} {m : Memory} :
    Memory.wf ((b, w) :: m) = true ↔ (∀ c ∈ m, b < c.1) ∧ Memory.wf m = true := by
  simp [Memory.wf]

/-- Every address listed after a write was listed before, or is the one written. -/
theorem Memory.mem_write {m : Memory} {a : Nat} {v : Byte} {c : Host.Cell} (h : c ∈ Memory.write m a v) :
    c = (a, v) ∨ c ∈ m := by
  induction m with
  | nil => simpa [Memory.write] using h
  | cons e m ih =>
    obtain ⟨b, w⟩ := e
    simp only [Memory.write] at h
    split at h
    · simpa using h
    · split at h
      · rcases List.mem_cons.1 h with h | h
        · exact .inl h
        · exact .inr (List.mem_cons_of_mem _ h)
      · rcases List.mem_cons.1 h with h | h
        · exact .inr (h ▸ List.mem_cons_self)
        · exact (ih h).imp id (List.mem_cons_of_mem _)

/-- A write keeps the canonical form. -/
theorem Memory.write_wf {m : Memory} (a : Nat) (v : Byte) (h : Memory.wf m = true) :
    Memory.wf (Memory.write m a v) = true := by
  induction m with
  | nil => rfl
  | cons e m ih =>
    obtain ⟨b, w⟩ := e
    obtain ⟨hlt, hm⟩ := Memory.wf_cons.1 h
    simp only [Memory.write]
    split
    case isTrue hab =>
      refine Memory.wf_cons.2 ⟨fun c hc => ?_, h⟩
      rcases List.mem_cons.1 hc with rfl | hc
      · exact hab
      · exact Nat.lt_trans hab (hlt c hc)
    case isFalse hab =>
      split
      case isTrue heq => exact Memory.wf_cons.2 ⟨heq ▸ hlt, hm⟩
      case isFalse hne =>
        refine Memory.wf_cons.2 ⟨fun c hc => ?_, ih hm⟩
        rcases Memory.mem_write hc with rfl | hc
        · show b < a
          omega
        · exact hlt c hc

/-- Several writes keep the canonical form. -/
theorem Memory.writeAll_wf {m : Memory} (cells : List Host.Cell) (h : Memory.wf m = true) :
    Memory.wf (Memory.writeAll m cells) = true := by
  induction cells generalizing m with
  | nil => exact h
  | cons c cs ih => exact ih (Memory.write_wf _ _ h)

/-- Every address listed after several writes was listed before or is one of those written. -/
theorem Memory.mem_writeAll {m : Memory} {cells : List Host.Cell} {c : Host.Cell}
    (h : c ∈ Memory.writeAll m cells) : c ∈ cells ∨ c ∈ m := by
  induction cells generalizing m with
  | nil => exact .inr h
  | cons d ds ih =>
    rcases ih h with h | h
    · exact .inl (List.mem_cons_of_mem _ h)
    · exact (Memory.mem_write h).imp (fun e => by subst e; exact List.mem_cons_self) id

/-- A read after a write: the byte written at its address, any other address as before. -/
theorem Memory.read?_write (m : Memory) (a b : Nat) (v : Byte) (h : Memory.wf m = true) :
    Memory.read? (Memory.write m a v) b = if b = a then some v else Memory.read? m b := by
  induction m with
  | nil => rfl
  | cons e m ih =>
    obtain ⟨c, w⟩ := e
    obtain ⟨-, hm⟩ := Memory.wf_cons.1 h
    simp only [Memory.write]
    split
    · simp only [Memory.read?]
    · split
      case isTrue heq =>
        subst heq
        simp only [Memory.read?]
        split <;> rfl
      case isFalse hab =>
        simp only [Memory.read?, ih hm]
        split <;> split <;> first | rfl | omega

/-- A write that is not at the address read changes nothing there, whatever the memory's form. -/
theorem Memory.read?_write_other (m : Memory) (a b : Nat) (v : Byte) (h : b ≠ a) :
    Memory.read? (Memory.write m a v) b = Memory.read? m b := by
  induction m with
  | nil => simp [Memory.write, Memory.read?, h]
  | cons e m ih =>
    obtain ⟨c, w⟩ := e
    simp only [Memory.write]
    split
    · simp [Memory.read?, h]
    · split
      case isTrue heq => simp [Memory.read?, h, ← heq]
      case isFalse hne => simp [Memory.read?, ih]

/-- A read of the address just written gives the byte written, whatever the memory's form. -/
theorem Memory.read?_write_self (m : Memory) (a : Nat) (v : Byte) :
    Memory.read? (Memory.write m a v) a = some v := by
  induction m with
  | nil => simp [Memory.write, Memory.read?]
  | cons e m ih =>
    obtain ⟨c, w⟩ := e
    simp only [Memory.write]
    split
    · simp [Memory.read?]
    · split
      case isTrue => simp [Memory.read?]
      case isFalse hne => simp [Memory.read?, hne, ih]

/-- Several writes leave an address none of them names as it was. -/
theorem Memory.read?_writeAll_other (cells : List Host.Cell) (m : Memory) (b : Nat) (h : ∀ c ∈ cells, c.1 ≠ b) :
    Memory.read? (Memory.writeAll m cells) b = Memory.read? m b := by
  induction cells generalizing m with
  | nil => rfl
  | cons c cs ih =>
    refine (ih _ (fun d hd => h d (List.mem_cons_of_mem _ hd))).trans ?_
    exact Memory.read?_write_other _ _ _ _ (fun e => h c List.mem_cons_self e.symm)

/-- `cellsAt` as a recursion over the bytes. -/
theorem cellsAt_cons (addr : Nat) (b : Byte) (bs : List Byte) :
    cellsAt addr (b :: bs) = (addr, b) :: cellsAt (addr + 1) bs := by
  simp only [cellsAt, List.length_cons, List.range_succ_eq_map, List.zip_cons_cons, List.map_cons, Nat.add_zero,
    List.cons.injEq, true_and]
  rw [List.zip_map_left, List.map_map]
  refine List.map_congr_left (fun c _ => ?_)
  simp only [Function.comp, Prod.map, id, Prod.mk.injEq, and_true]
  omega

@[simp] theorem cellsAt_nil (addr : Nat) : cellsAt addr [] = [] := rfl

/-- The addresses of consecutive bytes. -/
theorem mem_cellsAt {addr : Nat} {bs : List Byte} {c : Host.Cell} (h : c ∈ cellsAt addr bs) :
    addr ≤ c.1 ∧ c.1 < addr + bs.length := by
  induction bs generalizing addr with
  | nil => simp at h
  | cons b bs ih =>
    rw [cellsAt_cons] at h
    rcases List.mem_cons.1 h with rfl | h
    · simp
    · have := ih h
      simp only [List.length_cons]
      omega

/-- Reading after consecutive bytes were written: the byte of that index, any other address as before. -/
theorem Memory.read?_writeAll_cellsAt (addr : Nat) (bs : List Byte) (m : Memory) (b : Nat) :
    Memory.read? (Memory.writeAll m (cellsAt addr bs)) b =
      if h : addr ≤ b ∧ b < addr + bs.length then some (bs[b - addr]'(by omega)) else Memory.read? m b := by
  induction bs generalizing addr m with
  | nil =>
    rw [dif_neg (by simp)]
    rfl
  | cons v vs ih =>
    rw [cellsAt_cons]
    show Memory.read? (Memory.writeAll (Memory.write m addr v) (cellsAt (addr + 1) vs)) b = _
    rw [ih]
    by_cases hb : b = addr
    · subst hb
      rw [dif_neg (by omega), dif_pos (by simp), Memory.read?_write_self]
      simp
    · by_cases hr : addr + 1 ≤ b ∧ b < addr + 1 + vs.length
      · rw [dif_pos hr, dif_pos (by simp only [List.length_cons]; omega)]
        congr 1
        have : b - addr = (b - (addr + 1)) + 1 := by omega
        simp [this]
      · rw [dif_neg hr, dif_neg (by simp only [List.length_cons]; omega), Memory.read?_write_other _ _ _ _ hb]

/-- The machine right after reset has the canonical memory. -/
theorem State.resetOf_mem_wf (c : Config) : Memory.wf (State.resetOf c).mem = true := rfl

/-- The machine right after reset has the canonical memory. -/
theorem State.reset_mem_wf : Memory.wf State.reset.mem = true := rfl

end Sys2Proof.Machine
end

