-- ==== Sys2Proof/Laws/State.lean ====
section
/-! SUPPORT. One lemma per field of State per named update, true by rfl. -/

namespace Sys2Proof.Machine

/-! ### startCommand -/

@[simp] theorem State.startCommand_cfg (s : State) (op : Byte) : (s.startCommand op).cfg = s.cfg := rfl
@[simp] theorem State.startCommand_cmd (s : State) (op : Byte) : (s.startCommand op).cmd = op := rfl
@[simp] theorem State.startCommand_status (s : State) (op : Byte) : (s.startCommand op).status = statusStart s.status := rfl
@[simp] theorem State.startCommand_errCode (s : State) (op : Byte) : (s.startCommand op).errCode = 0x00#8 := rfl
@[simp] theorem State.startCommand_ctrl (s : State) (op : Byte) : (s.startCommand op).ctrl = s.ctrl := rfl
@[simp] theorem State.startCommand_pktLen (s : State) (op : Byte) : (s.startCommand op).pktLen = s.pktLen := rfl
@[simp] theorem State.startCommand_keyCount (s : State) (op : Byte) : (s.startCommand op).keyCount = s.keyCount := rfl
@[simp] theorem State.startCommand_invKeyCount (s : State) (op : Byte) : (s.startCommand op).invKeyCount = s.invKeyCount := rfl
@[simp] theorem State.startCommand_inFlags (s : State) (op : Byte) : (s.startCommand op).inFlags = s.inFlags := rfl
@[simp] theorem State.startCommand_arg (s : State) (op : Byte) : (s.startCommand op).arg = s.arg := rfl
@[simp] theorem State.startCommand_res (s : State) (op : Byte) : (s.startCommand op).res = s.res := rfl
@[simp] theorem State.startCommand_pipe (s : State) (op : Byte) : (s.startCommand op).pipe = s.pipe := rfl
@[simp] theorem State.startCommand_mem (s : State) (op : Byte) : (s.startCommand op).mem = s.mem := rfl
@[simp] theorem State.startCommand_seqOp (s : State) (op : Byte) : (s.startCommand op).seqOp = op := rfl
@[simp] theorem State.startCommand_snap (s : State) (op : Byte) : (s.startCommand op).snap = s.arg := rfl
@[simp] theorem State.startCommand_stage (s : State) (op : Byte) : (s.startCommand op).stage = 0 := rfl
@[simp] theorem State.startCommand_loopIdx (s : State) (op : Byte) : (s.startCommand op).loopIdx = 0 := rfl
@[simp] theorem State.startCommand_rstPin (s : State) (op : Byte) : (s.startCommand op).rstPin = s.rstPin := rfl
@[simp] theorem State.startCommand_port (s : State) (op : Byte) : (s.startCommand op).port = s.port := rfl
@[simp] theorem State.startCommand_rdata (s : State) (op : Byte) : (s.startCommand op).rdata = s.rdata := rfl
@[simp] theorem State.startCommand_left (s : State) (op : Byte) : (s.startCommand op).left = s.left := rfl
@[simp] theorem State.startCommand_draws (s : State) (op : Byte) : (s.startCommand op).draws = s.draws := rfl
@[simp] theorem State.startCommand_epoch (s : State) (op : Byte) : (s.startCommand op).epoch = s.epoch := rfl

/-! ### applyEffect -/

@[simp] theorem State.applyEffect_cfg (s : State) (e : Effect) : (s.applyEffect e).cfg = s.cfg := rfl
@[simp] theorem State.applyEffect_cmd (s : State) (e : Effect) : (s.applyEffect e).cmd = s.cmd := rfl
@[simp] theorem State.applyEffect_status (s : State) (e : Effect) : (s.applyEffect e).status = s.status := rfl
@[simp] theorem State.applyEffect_errCode (s : State) (e : Effect) : (s.applyEffect e).errCode = s.errCode := rfl
@[simp] theorem State.applyEffect_ctrl (s : State) (e : Effect) : (s.applyEffect e).ctrl = s.ctrl := rfl
@[simp] theorem State.applyEffect_pktLen (s : State) (e : Effect) : (s.applyEffect e).pktLen = s.pktLen := rfl
@[simp] theorem State.applyEffect_keyCount (s : State) (e : Effect) : (s.applyEffect e).keyCount = s.keyCount := rfl
@[simp] theorem State.applyEffect_invKeyCount (s : State) (e : Effect) : (s.applyEffect e).invKeyCount = s.invKeyCount := rfl
@[simp] theorem State.applyEffect_inFlags (s : State) (e : Effect) : (s.applyEffect e).inFlags = s.inFlags := rfl
@[simp] theorem State.applyEffect_arg (s : State) (e : Effect) : (s.applyEffect e).arg = s.arg := rfl
@[simp] theorem State.applyEffect_res (s : State) (e : Effect) : (s.applyEffect e).res = writeRes s.res e.res := rfl
@[simp] theorem State.applyEffect_pipe (s : State) (e : Effect) : (s.applyEffect e).pipe = (match e.pipe with | some p => p.regs | none => s.pipe) := rfl
@[simp] theorem State.applyEffect_mem (s : State) (e : Effect) : (s.applyEffect e).mem = Memory.writeAll s.mem e.mem := rfl
@[simp] theorem State.applyEffect_seqOp (s : State) (e : Effect) : (s.applyEffect e).seqOp = s.seqOp := rfl
@[simp] theorem State.applyEffect_snap (s : State) (e : Effect) : (s.applyEffect e).snap = s.snap := rfl
@[simp] theorem State.applyEffect_stage (s : State) (e : Effect) : (s.applyEffect e).stage = (match e.pipe with | some p => p.stage | none => s.stage) := rfl
@[simp] theorem State.applyEffect_loopIdx (s : State) (e : Effect) : (s.applyEffect e).loopIdx = (match e.pipe with | some p => p.loopIdx | none => s.loopIdx) := rfl
@[simp] theorem State.applyEffect_rstPin (s : State) (e : Effect) : (s.applyEffect e).rstPin = s.rstPin := rfl
@[simp] theorem State.applyEffect_port (s : State) (e : Effect) : (s.applyEffect e).port = s.port := rfl
@[simp] theorem State.applyEffect_rdata (s : State) (e : Effect) : (s.applyEffect e).rdata = s.rdata := rfl
@[simp] theorem State.applyEffect_left (s : State) (e : Effect) : (s.applyEffect e).left = s.left := rfl
@[simp] theorem State.applyEffect_draws (s : State) (e : Effect) : (s.applyEffect e).draws = s.draws := rfl
@[simp] theorem State.applyEffect_epoch (s : State) (e : Effect) : (s.applyEffect e).epoch = s.epoch := rfl

/-! ### complete -/

@[simp] theorem State.complete_cfg (s : State) (e : ErrCode) : (s.complete e).cfg = s.cfg := rfl
@[simp] theorem State.complete_cmd (s : State) (e : ErrCode) : (s.complete e).cmd = s.cmd := rfl
@[simp] theorem State.complete_status (s : State) (e : ErrCode) : (s.complete e).status = statusComplete s.status e.code := rfl
@[simp] theorem State.complete_errCode (s : State) (e : ErrCode) : (s.complete e).errCode = e.code := rfl
@[simp] theorem State.complete_ctrl (s : State) (e : ErrCode) : (s.complete e).ctrl = s.ctrl := rfl
@[simp] theorem State.complete_pktLen (s : State) (e : ErrCode) : (s.complete e).pktLen = s.pktLen := rfl
@[simp] theorem State.complete_keyCount (s : State) (e : ErrCode) : (s.complete e).keyCount = s.keyCount := rfl
@[simp] theorem State.complete_invKeyCount (s : State) (e : ErrCode) : (s.complete e).invKeyCount = s.invKeyCount := rfl
@[simp] theorem State.complete_inFlags (s : State) (e : ErrCode) : (s.complete e).inFlags = s.inFlags := rfl
@[simp] theorem State.complete_arg (s : State) (e : ErrCode) : (s.complete e).arg = s.arg := rfl
@[simp] theorem State.complete_res (s : State) (e : ErrCode) : (s.complete e).res = s.res := rfl
@[simp] theorem State.complete_pipe (s : State) (e : ErrCode) : (s.complete e).pipe = s.pipe := rfl
@[simp] theorem State.complete_mem (s : State) (e : ErrCode) : (s.complete e).mem = s.mem := rfl
@[simp] theorem State.complete_seqOp (s : State) (e : ErrCode) : (s.complete e).seqOp = s.seqOp := rfl
@[simp] theorem State.complete_snap (s : State) (e : ErrCode) : (s.complete e).snap = s.snap := rfl
@[simp] theorem State.complete_stage (s : State) (e : ErrCode) : (s.complete e).stage = s.stage := rfl
@[simp] theorem State.complete_loopIdx (s : State) (e : ErrCode) : (s.complete e).loopIdx = s.loopIdx := rfl
@[simp] theorem State.complete_rstPin (s : State) (e : ErrCode) : (s.complete e).rstPin = s.rstPin := rfl
@[simp] theorem State.complete_port (s : State) (e : ErrCode) : (s.complete e).port = s.port := rfl
@[simp] theorem State.complete_rdata (s : State) (e : ErrCode) : (s.complete e).rdata = s.rdata := rfl
@[simp] theorem State.complete_left (s : State) (e : ErrCode) : (s.complete e).left = s.left := rfl
@[simp] theorem State.complete_draws (s : State) (e : ErrCode) : (s.complete e).draws = s.draws := rfl
@[simp] theorem State.complete_epoch (s : State) (e : ErrCode) : (s.complete e).epoch = s.epoch := rfl

/-! ### finish -/

@[simp] theorem State.finish_cfg (s : State) : (s.finish).cfg = s.cfg := rfl
@[simp] theorem State.finish_cmd (s : State) : (s.finish).cmd = s.cmd := rfl
@[simp] theorem State.finish_status (s : State) : (s.finish).status = statusComplete s.status (effectOf s.seqOp s).err.code := rfl
@[simp] theorem State.finish_errCode (s : State) : (s.finish).errCode = (effectOf s.seqOp s).err.code := rfl
@[simp] theorem State.finish_ctrl (s : State) : (s.finish).ctrl = s.ctrl := rfl
@[simp] theorem State.finish_pktLen (s : State) : (s.finish).pktLen = s.pktLen := rfl
@[simp] theorem State.finish_keyCount (s : State) : (s.finish).keyCount = s.keyCount := rfl
@[simp] theorem State.finish_invKeyCount (s : State) : (s.finish).invKeyCount = s.invKeyCount := rfl
@[simp] theorem State.finish_inFlags (s : State) : (s.finish).inFlags = s.inFlags := rfl
@[simp] theorem State.finish_arg (s : State) : (s.finish).arg = s.arg := rfl
@[simp] theorem State.finish_res (s : State) : (s.finish).res = writeRes s.res (effectOf s.seqOp s).res := rfl
@[simp] theorem State.finish_pipe (s : State) : (s.finish).pipe = (s.applyEffect (effectOf s.seqOp s)).pipe := rfl
@[simp] theorem State.finish_mem (s : State) : (s.finish).mem = Memory.writeAll s.mem (effectOf s.seqOp s).mem := rfl
@[simp] theorem State.finish_seqOp (s : State) : (s.finish).seqOp = s.seqOp := rfl
@[simp] theorem State.finish_snap (s : State) : (s.finish).snap = s.snap := rfl
@[simp] theorem State.finish_stage (s : State) : (s.finish).stage = (s.applyEffect (effectOf s.seqOp s)).stage := rfl
@[simp] theorem State.finish_loopIdx (s : State) : (s.finish).loopIdx = (s.applyEffect (effectOf s.seqOp s)).loopIdx := rfl
@[simp] theorem State.finish_rstPin (s : State) : (s.finish).rstPin = s.rstPin := rfl
@[simp] theorem State.finish_port (s : State) : (s.finish).port = s.port := rfl
@[simp] theorem State.finish_rdata (s : State) : (s.finish).rdata = s.rdata := rfl
@[simp] theorem State.finish_left (s : State) : (s.finish).left = s.left := rfl
@[simp] theorem State.finish_draws (s : State) : (s.finish).draws = s.draws := rfl
@[simp] theorem State.finish_epoch (s : State) : (s.finish).epoch = s.epoch := rfl

/-! ### consume -/

@[simp] theorem State.consume_cfg (s : State) : (s.consume).cfg = s.cfg := rfl
@[simp] theorem State.consume_cmd (s : State) : (s.consume).cmd = s.cmd := rfl
@[simp] theorem State.consume_status (s : State) : (s.consume).status = s.status := rfl
@[simp] theorem State.consume_errCode (s : State) : (s.consume).errCode = s.errCode := rfl
@[simp] theorem State.consume_ctrl (s : State) : (s.consume).ctrl = s.ctrl := rfl
@[simp] theorem State.consume_pktLen (s : State) : (s.consume).pktLen = s.pktLen := rfl
@[simp] theorem State.consume_keyCount (s : State) : (s.consume).keyCount = s.keyCount := rfl
@[simp] theorem State.consume_invKeyCount (s : State) : (s.consume).invKeyCount = s.invKeyCount := rfl
@[simp] theorem State.consume_inFlags (s : State) : (s.consume).inFlags = s.inFlags := rfl
@[simp] theorem State.consume_arg (s : State) : (s.consume).arg = s.arg := rfl
@[simp] theorem State.consume_res (s : State) : (s.consume).res = s.res := rfl
@[simp] theorem State.consume_pipe (s : State) : (s.consume).pipe = s.pipe := rfl
@[simp] theorem State.consume_mem (s : State) : (s.consume).mem = s.mem := rfl
@[simp] theorem State.consume_seqOp (s : State) : (s.consume).seqOp = s.seqOp := rfl
@[simp] theorem State.consume_snap (s : State) : (s.consume).snap = s.snap := rfl
@[simp] theorem State.consume_stage (s : State) : (s.consume).stage = s.stage := rfl
@[simp] theorem State.consume_loopIdx (s : State) : (s.consume).loopIdx = s.loopIdx := rfl
@[simp] theorem State.consume_rstPin (s : State) : (s.consume).rstPin = s.rstPin := rfl
@[simp] theorem State.consume_port (s : State) : (s.consume).port = s.port.tail := rfl
@[simp] theorem State.consume_rdata (s : State) : (s.consume).rdata = s.rdata := rfl
@[simp] theorem State.consume_left (s : State) : (s.consume).left = s.left := rfl
@[simp] theorem State.consume_draws (s : State) : (s.consume).draws = s.draws := rfl
@[simp] theorem State.consume_epoch (s : State) : (s.consume).epoch = s.epoch := rfl

/-! ### present -/

@[simp] theorem State.present_cfg (s : State) (w : BusWord) : (s.present w).cfg = s.cfg := rfl
@[simp] theorem State.present_cmd (s : State) (w : BusWord) : (s.present w).cmd = s.cmd := rfl
@[simp] theorem State.present_status (s : State) (w : BusWord) : (s.present w).status = s.status := rfl
@[simp] theorem State.present_errCode (s : State) (w : BusWord) : (s.present w).errCode = s.errCode := rfl
@[simp] theorem State.present_ctrl (s : State) (w : BusWord) : (s.present w).ctrl = s.ctrl := rfl
@[simp] theorem State.present_pktLen (s : State) (w : BusWord) : (s.present w).pktLen = s.pktLen := rfl
@[simp] theorem State.present_keyCount (s : State) (w : BusWord) : (s.present w).keyCount = s.keyCount := rfl
@[simp] theorem State.present_invKeyCount (s : State) (w : BusWord) : (s.present w).invKeyCount = s.invKeyCount := rfl
@[simp] theorem State.present_inFlags (s : State) (w : BusWord) : (s.present w).inFlags = s.inFlags := rfl
@[simp] theorem State.present_arg (s : State) (w : BusWord) : (s.present w).arg = s.arg := rfl
@[simp] theorem State.present_res (s : State) (w : BusWord) : (s.present w).res = s.res := rfl
@[simp] theorem State.present_pipe (s : State) (w : BusWord) : (s.present w).pipe = s.pipe := rfl
@[simp] theorem State.present_mem (s : State) (w : BusWord) : (s.present w).mem = s.mem := rfl
@[simp] theorem State.present_seqOp (s : State) (w : BusWord) : (s.present w).seqOp = s.seqOp := rfl
@[simp] theorem State.present_snap (s : State) (w : BusWord) : (s.present w).snap = s.snap := rfl
@[simp] theorem State.present_stage (s : State) (w : BusWord) : (s.present w).stage = s.stage := rfl
@[simp] theorem State.present_loopIdx (s : State) (w : BusWord) : (s.present w).loopIdx = s.loopIdx := rfl
@[simp] theorem State.present_rstPin (s : State) (w : BusWord) : (s.present w).rstPin = false := rfl
@[simp] theorem State.present_port (s : State) (w : BusWord) : (s.present w).port = .bus w :: s.port := rfl
@[simp] theorem State.present_rdata (s : State) (w : BusWord) : (s.present w).rdata = s.rdata := rfl
@[simp] theorem State.present_left (s : State) (w : BusWord) : (s.present w).left = s.left := rfl
@[simp] theorem State.present_draws (s : State) (w : BusWord) : (s.present w).draws = s.draws := rfl
@[simp] theorem State.present_epoch (s : State) (w : BusWord) : (s.present w).epoch = s.epoch := rfl

/-! ### releaseReset -/

@[simp] theorem State.releaseReset_cfg (s : State) : (s.releaseReset).cfg = s.cfg := rfl
@[simp] theorem State.releaseReset_cmd (s : State) : (s.releaseReset).cmd = s.cmd := rfl
@[simp] theorem State.releaseReset_status (s : State) : (s.releaseReset).status = s.status := rfl
@[simp] theorem State.releaseReset_errCode (s : State) : (s.releaseReset).errCode = s.errCode := rfl
@[simp] theorem State.releaseReset_ctrl (s : State) : (s.releaseReset).ctrl = s.ctrl := rfl
@[simp] theorem State.releaseReset_pktLen (s : State) : (s.releaseReset).pktLen = s.pktLen := rfl
@[simp] theorem State.releaseReset_keyCount (s : State) : (s.releaseReset).keyCount = s.keyCount := rfl
@[simp] theorem State.releaseReset_invKeyCount (s : State) : (s.releaseReset).invKeyCount = s.invKeyCount := rfl
@[simp] theorem State.releaseReset_inFlags (s : State) : (s.releaseReset).inFlags = s.inFlags := rfl
@[simp] theorem State.releaseReset_arg (s : State) : (s.releaseReset).arg = s.arg := rfl
@[simp] theorem State.releaseReset_res (s : State) : (s.releaseReset).res = s.res := rfl
@[simp] theorem State.releaseReset_pipe (s : State) : (s.releaseReset).pipe = s.pipe := rfl
@[simp] theorem State.releaseReset_mem (s : State) : (s.releaseReset).mem = s.mem := rfl
@[simp] theorem State.releaseReset_seqOp (s : State) : (s.releaseReset).seqOp = s.seqOp := rfl
@[simp] theorem State.releaseReset_snap (s : State) : (s.releaseReset).snap = s.snap := rfl
@[simp] theorem State.releaseReset_stage (s : State) : (s.releaseReset).stage = s.stage := rfl
@[simp] theorem State.releaseReset_loopIdx (s : State) : (s.releaseReset).loopIdx = s.loopIdx := rfl
@[simp] theorem State.releaseReset_rstPin (s : State) : (s.releaseReset).rstPin = false := rfl
@[simp] theorem State.releaseReset_port (s : State) : (s.releaseReset).port = s.port := rfl
@[simp] theorem State.releaseReset_rdata (s : State) : (s.releaseReset).rdata = s.rdata := rfl
@[simp] theorem State.releaseReset_left (s : State) : (s.releaseReset).left = s.left := rfl
@[simp] theorem State.releaseReset_draws (s : State) : (s.releaseReset).draws = s.draws := rfl
@[simp] theorem State.releaseReset_epoch (s : State) : (s.releaseReset).epoch = s.epoch := rfl

/-! ### assertReset -/

@[simp] theorem State.assertReset_cfg (s : State) : (s.assertReset).cfg = s.cfg := rfl
@[simp] theorem State.assertReset_cmd (s : State) : (s.assertReset).cmd = 0x00#8 := rfl
@[simp] theorem State.assertReset_status (s : State) : (s.assertReset).status = 0x00#8 := rfl
@[simp] theorem State.assertReset_errCode (s : State) : (s.assertReset).errCode = 0x00#8 := rfl
@[simp] theorem State.assertReset_ctrl (s : State) : (s.assertReset).ctrl = 0x00#8 := rfl
@[simp] theorem State.assertReset_pktLen (s : State) : (s.assertReset).pktLen = 0x00#8 := rfl
@[simp] theorem State.assertReset_keyCount (s : State) : (s.assertReset).keyCount = 0x00#8 := rfl
@[simp] theorem State.assertReset_invKeyCount (s : State) : (s.assertReset).invKeyCount = 0x00#8 := rfl
@[simp] theorem State.assertReset_inFlags (s : State) : (s.assertReset).inFlags = 0x01#8 := rfl
@[simp] theorem State.assertReset_arg (s : State) : (s.assertReset).arg = Vector.replicate 16 0x00#8 := rfl
@[simp] theorem State.assertReset_pipe (s : State) : (s.assertReset).pipe = PipeRegs.cleared := rfl
@[simp] theorem State.assertReset_mem (s : State) : (s.assertReset).mem = [] := rfl
@[simp] theorem State.assertReset_seqOp (s : State) : (s.assertReset).seqOp = 0x00#8 := rfl
@[simp] theorem State.assertReset_snap (s : State) : (s.assertReset).snap = Vector.replicate 16 0x00#8 := rfl
@[simp] theorem State.assertReset_stage (s : State) : (s.assertReset).stage = 0 := rfl
@[simp] theorem State.assertReset_loopIdx (s : State) : (s.assertReset).loopIdx = 0 := rfl
@[simp] theorem State.assertReset_rstPin (s : State) : (s.assertReset).rstPin = true := rfl
@[simp] theorem State.assertReset_port (s : State) : (s.assertReset).port = s.port := rfl
@[simp] theorem State.assertReset_rdata (s : State) : (s.assertReset).rdata = s.rdata := rfl
@[simp] theorem State.assertReset_left (s : State) : (s.assertReset).left = 0 := rfl
@[simp] theorem State.assertReset_draws (s : State) : (s.assertReset).draws = s.draws := rfl
@[simp] theorem State.assertReset_epoch (s : State) : (s.assertReset).epoch = s.epoch + 1 := rfl

/-! ### The working record of PKT_PROC -/

@[simp] theorem PipeRun.enter_regs (p : PipeRun) (n : Fin 10) : (p.enter n).regs = p.regs := rfl
@[simp] theorem PipeRun.enter_decodeOk (p : PipeRun) (n : Fin 10) : (p.enter n).decodeOk = p.decodeOk := rfl
@[simp] theorem PipeRun.enter_stage (p : PipeRun) (n : Fin 10) : (p.enter n).stage = n := rfl
@[simp] theorem PipeRun.enter_loopIdx (p : PipeRun) (n : Fin 10) : (p.enter n).loopIdx = p.loopIdx := rfl
@[simp] theorem PipeRun.mapRegs_regs (p : PipeRun) (f : PipeRegs → PipeRegs) : (p.mapRegs f).regs = f p.regs := rfl
@[simp] theorem PipeRun.mapRegs_decodeOk (p : PipeRun) (f : PipeRegs → PipeRegs) :
    (p.mapRegs f).decodeOk = p.decodeOk := rfl
@[simp] theorem PipeRun.mapRegs_stage (p : PipeRun) (f : PipeRegs → PipeRegs) : (p.mapRegs f).stage = p.stage := rfl
@[simp] theorem PipeRun.mapRegs_loopIdx (p : PipeRun) (f : PipeRegs → PipeRegs) :
    (p.mapRegs f).loopIdx = p.loopIdx := rfl
@[simp] theorem PipeRun.decodeFailed_regs (p : PipeRun) : p.decodeFailed.regs = p.regs := rfl
@[simp] theorem PipeRun.decodeFailed_decodeOk (p : PipeRun) : p.decodeFailed.decodeOk = false := rfl

/-! ### FLAGS, FIELD_ERR and FAIL_REASON -/

@[simp] theorem PipeRegs.setFlag_flags (p : PipeRegs) (i : Nat) : (p.setFlag i).flags = setBit p.flags i := rfl
@[simp] theorem PipeRegs.setFlag_fieldErr (p : PipeRegs) (i : Nat) : (p.setFlag i).fieldErr = p.fieldErr := rfl
@[simp] theorem PipeRegs.setFlag_failReason (p : PipeRegs) (i : Nat) : (p.setFlag i).failReason = p.failReason := rfl
@[simp] theorem PipeRegs.setFlag_pid (p : PipeRegs) (i : Nat) : (p.setFlag i).pid = p.pid := rfl
@[simp] theorem PipeRegs.setFlag_kind (p : PipeRegs) (i : Nat) : (p.setFlag i).kind = p.kind := rfl
@[simp] theorem PipeRegs.setFlag_pidFlags (p : PipeRegs) (i : Nat) : (p.setFlag i).pidFlags = p.pidFlags := rfl
@[simp] theorem PipeRegs.setFlag_rptrDid (p : PipeRegs) (i : Nat) : (p.setFlag i).rptrDid = p.rptrDid := rfl
@[simp] theorem PipeRegs.setFlag_dstDid (p : PipeRegs) (i : Nat) : (p.setFlag i).dstDid = p.dstDid := rfl
@[simp] theorem PipeRegs.setFlag_srcDid (p : PipeRegs) (i : Nat) : (p.setFlag i).srcDid = p.srcDid := rfl
@[simp] theorem PipeRegs.setFlag_nid (p : PipeRegs) (i : Nat) : (p.setFlag i).nid = p.nid := rfl
@[simp] theorem PipeRegs.setFlag_hcrcRx (p : PipeRegs) (i : Nat) : (p.setFlag i).hcrcRx = p.hcrcRx := rfl
@[simp] theorem PipeRegs.setFlag_hcrcCalc (p : PipeRegs) (i : Nat) : (p.setFlag i).hcrcCalc = p.hcrcCalc := rfl
@[simp] theorem PipeRegs.setFlag_pldCrcRx (p : PipeRegs) (i : Nat) : (p.setFlag i).pldCrcRx = p.pldCrcRx := rfl
@[simp] theorem PipeRegs.setFlag_pldCrcCalc (p : PipeRegs) (i : Nat) : (p.setFlag i).pldCrcCalc = p.pldCrcCalc := rfl
@[simp] theorem PipeRegs.setFlag_keyIdx (p : PipeRegs) (i : Nat) : (p.setFlag i).keyIdx = p.keyIdx := rfl
@[simp] theorem PipeRegs.setFlag_keyRing (p : PipeRegs) (i : Nat) : (p.setFlag i).keyRing = p.keyRing := rfl
@[simp] theorem PipeRegs.setFlag_variant (p : PipeRegs) (i : Nat) : (p.setFlag i).variant = p.variant := rfl
@[simp] theorem PipeRegs.setFlag_msgId (p : PipeRegs) (i : Nat) : (p.setFlag i).msgId = p.msgId := rfl
@[simp] theorem PipeRegs.setFlag_msgType (p : PipeRegs) (i : Nat) : (p.setFlag i).msgType = p.msgType := rfl
@[simp] theorem PipeRegs.setFlag_adminType (p : PipeRegs) (i : Nat) : (p.setFlag i).adminType = p.adminType := rfl
@[simp] theorem PipeRegs.setFlag_respKind (p : PipeRegs) (i : Nat) : (p.setFlag i).respKind = p.respKind := rfl
@[simp] theorem PipeRegs.setFlag_respReason (p : PipeRegs) (i : Nat) : (p.setFlag i).respReason = p.respReason := rfl
@[simp] theorem PipeRegs.setFlag_respHandle (p : PipeRegs) (i : Nat) : (p.setFlag i).respHandle = p.respHandle := rfl
@[simp] theorem PipeRegs.setFlag_respLen (p : PipeRegs) (i : Nat) : (p.setFlag i).respLen = p.respLen := rfl
@[simp] theorem PipeRegs.setFlag_hops (p : PipeRegs) (i : Nat) : (p.setFlag i).hops = p.hops := rfl
@[simp] theorem PipeRegs.setFlag_maxHops (p : PipeRegs) (i : Nat) : (p.setFlag i).maxHops = p.maxHops := rfl
@[simp] theorem PipeRegs.setFlag_pldLen (p : PipeRegs) (i : Nat) : (p.setFlag i).pldLen = p.pldLen := rfl
@[simp] theorem PipeRegs.setFlag_rounds (p : PipeRegs) (i : Nat) : (p.setFlag i).rounds = p.rounds := rfl
@[simp] theorem PipeRegs.setFlag_keysTried (p : PipeRegs) (i : Nat) : (p.setFlag i).keysTried = p.keysTried := rfl
@[simp] theorem PipeRegs.setFieldErr_flags (p : PipeRegs) (i : Nat) : (p.setFieldErr i).flags = p.flags := rfl
@[simp] theorem PipeRegs.setFieldErr_fieldErr (p : PipeRegs) (i : Nat) : (p.setFieldErr i).fieldErr = setBit p.fieldErr i := rfl
@[simp] theorem PipeRegs.setFieldErr_failReason (p : PipeRegs) (i : Nat) : (p.setFieldErr i).failReason = p.failReason := rfl
@[simp] theorem PipeRegs.setFieldErr_pid (p : PipeRegs) (i : Nat) : (p.setFieldErr i).pid = p.pid := rfl
@[simp] theorem PipeRegs.setFieldErr_kind (p : PipeRegs) (i : Nat) : (p.setFieldErr i).kind = p.kind := rfl
@[simp] theorem PipeRegs.setFieldErr_pidFlags (p : PipeRegs) (i : Nat) : (p.setFieldErr i).pidFlags = p.pidFlags := rfl
@[simp] theorem PipeRegs.setFieldErr_rptrDid (p : PipeRegs) (i : Nat) : (p.setFieldErr i).rptrDid = p.rptrDid := rfl
@[simp] theorem PipeRegs.setFieldErr_dstDid (p : PipeRegs) (i : Nat) : (p.setFieldErr i).dstDid = p.dstDid := rfl
@[simp] theorem PipeRegs.setFieldErr_srcDid (p : PipeRegs) (i : Nat) : (p.setFieldErr i).srcDid = p.srcDid := rfl
@[simp] theorem PipeRegs.setFieldErr_nid (p : PipeRegs) (i : Nat) : (p.setFieldErr i).nid = p.nid := rfl
@[simp] theorem PipeRegs.setFieldErr_hcrcRx (p : PipeRegs) (i : Nat) : (p.setFieldErr i).hcrcRx = p.hcrcRx := rfl
@[simp] theorem PipeRegs.setFieldErr_hcrcCalc (p : PipeRegs) (i : Nat) : (p.setFieldErr i).hcrcCalc = p.hcrcCalc := rfl
@[simp] theorem PipeRegs.setFieldErr_pldCrcRx (p : PipeRegs) (i : Nat) : (p.setFieldErr i).pldCrcRx = p.pldCrcRx := rfl
@[simp] theorem PipeRegs.setFieldErr_pldCrcCalc (p : PipeRegs) (i : Nat) : (p.setFieldErr i).pldCrcCalc = p.pldCrcCalc := rfl
@[simp] theorem PipeRegs.setFieldErr_keyIdx (p : PipeRegs) (i : Nat) : (p.setFieldErr i).keyIdx = p.keyIdx := rfl
@[simp] theorem PipeRegs.setFieldErr_keyRing (p : PipeRegs) (i : Nat) : (p.setFieldErr i).keyRing = p.keyRing := rfl
@[simp] theorem PipeRegs.setFieldErr_variant (p : PipeRegs) (i : Nat) : (p.setFieldErr i).variant = p.variant := rfl
@[simp] theorem PipeRegs.setFieldErr_msgId (p : PipeRegs) (i : Nat) : (p.setFieldErr i).msgId = p.msgId := rfl
@[simp] theorem PipeRegs.setFieldErr_msgType (p : PipeRegs) (i : Nat) : (p.setFieldErr i).msgType = p.msgType := rfl
@[simp] theorem PipeRegs.setFieldErr_adminType (p : PipeRegs) (i : Nat) : (p.setFieldErr i).adminType = p.adminType := rfl
@[simp] theorem PipeRegs.setFieldErr_respKind (p : PipeRegs) (i : Nat) : (p.setFieldErr i).respKind = p.respKind := rfl
@[simp] theorem PipeRegs.setFieldErr_respReason (p : PipeRegs) (i : Nat) : (p.setFieldErr i).respReason = p.respReason := rfl
@[simp] theorem PipeRegs.setFieldErr_respHandle (p : PipeRegs) (i : Nat) : (p.setFieldErr i).respHandle = p.respHandle := rfl
@[simp] theorem PipeRegs.setFieldErr_respLen (p : PipeRegs) (i : Nat) : (p.setFieldErr i).respLen = p.respLen := rfl
@[simp] theorem PipeRegs.setFieldErr_hops (p : PipeRegs) (i : Nat) : (p.setFieldErr i).hops = p.hops := rfl
@[simp] theorem PipeRegs.setFieldErr_maxHops (p : PipeRegs) (i : Nat) : (p.setFieldErr i).maxHops = p.maxHops := rfl
@[simp] theorem PipeRegs.setFieldErr_pldLen (p : PipeRegs) (i : Nat) : (p.setFieldErr i).pldLen = p.pldLen := rfl
@[simp] theorem PipeRegs.setFieldErr_rounds (p : PipeRegs) (i : Nat) : (p.setFieldErr i).rounds = p.rounds := rfl
@[simp] theorem PipeRegs.setFieldErr_keysTried (p : PipeRegs) (i : Nat) : (p.setFieldErr i).keysTried = p.keysTried := rfl

@[simp] theorem PipeRegs.fail_failReason (p : PipeRegs) (r : FailReason) :
    (p.fail r).failReason = if p.failReason = 0x00#8 then r.code else p.failReason := by
  unfold PipeRegs.fail; split <;> simp_all
@[simp] theorem PipeRegs.fail_flags (p : PipeRegs) (r : FailReason) : (p.fail r).flags = p.flags := by
  unfold PipeRegs.fail; split <;> rfl
@[simp] theorem PipeRegs.fail_fieldErr (p : PipeRegs) (r : FailReason) : (p.fail r).fieldErr = p.fieldErr := by
  unfold PipeRegs.fail; split <;> rfl
@[simp] theorem PipeRegs.fail_pid (p : PipeRegs) (r : FailReason) : (p.fail r).pid = p.pid := by
  unfold PipeRegs.fail; split <;> rfl
@[simp] theorem PipeRegs.fail_kind (p : PipeRegs) (r : FailReason) : (p.fail r).kind = p.kind := by
  unfold PipeRegs.fail; split <;> rfl
@[simp] theorem PipeRegs.fail_pidFlags (p : PipeRegs) (r : FailReason) : (p.fail r).pidFlags = p.pidFlags := by
  unfold PipeRegs.fail; split <;> rfl
@[simp] theorem PipeRegs.fail_rptrDid (p : PipeRegs) (r : FailReason) : (p.fail r).rptrDid = p.rptrDid := by
  unfold PipeRegs.fail; split <;> rfl
@[simp] theorem PipeRegs.fail_dstDid (p : PipeRegs) (r : FailReason) : (p.fail r).dstDid = p.dstDid := by
  unfold PipeRegs.fail; split <;> rfl
@[simp] theorem PipeRegs.fail_srcDid (p : PipeRegs) (r : FailReason) : (p.fail r).srcDid = p.srcDid := by
  unfold PipeRegs.fail; split <;> rfl
@[simp] theorem PipeRegs.fail_nid (p : PipeRegs) (r : FailReason) : (p.fail r).nid = p.nid := by
  unfold PipeRegs.fail; split <;> rfl
@[simp] theorem PipeRegs.fail_hcrcRx (p : PipeRegs) (r : FailReason) : (p.fail r).hcrcRx = p.hcrcRx := by
  unfold PipeRegs.fail; split <;> rfl
@[simp] theorem PipeRegs.fail_hcrcCalc (p : PipeRegs) (r : FailReason) : (p.fail r).hcrcCalc = p.hcrcCalc := by
  unfold PipeRegs.fail; split <;> rfl
@[simp] theorem PipeRegs.fail_pldCrcRx (p : PipeRegs) (r : FailReason) : (p.fail r).pldCrcRx = p.pldCrcRx := by
  unfold PipeRegs.fail; split <;> rfl
@[simp] theorem PipeRegs.fail_pldCrcCalc (p : PipeRegs) (r : FailReason) : (p.fail r).pldCrcCalc = p.pldCrcCalc := by
  unfold PipeRegs.fail; split <;> rfl
@[simp] theorem PipeRegs.fail_keyIdx (p : PipeRegs) (r : FailReason) : (p.fail r).keyIdx = p.keyIdx := by
  unfold PipeRegs.fail; split <;> rfl
@[simp] theorem PipeRegs.fail_keyRing (p : PipeRegs) (r : FailReason) : (p.fail r).keyRing = p.keyRing := by
  unfold PipeRegs.fail; split <;> rfl
@[simp] theorem PipeRegs.fail_variant (p : PipeRegs) (r : FailReason) : (p.fail r).variant = p.variant := by
  unfold PipeRegs.fail; split <;> rfl
@[simp] theorem PipeRegs.fail_msgId (p : PipeRegs) (r : FailReason) : (p.fail r).msgId = p.msgId := by
  unfold PipeRegs.fail; split <;> rfl
@[simp] theorem PipeRegs.fail_msgType (p : PipeRegs) (r : FailReason) : (p.fail r).msgType = p.msgType := by
  unfold PipeRegs.fail; split <;> rfl
@[simp] theorem PipeRegs.fail_adminType (p : PipeRegs) (r : FailReason) : (p.fail r).adminType = p.adminType := by
  unfold PipeRegs.fail; split <;> rfl
@[simp] theorem PipeRegs.fail_respKind (p : PipeRegs) (r : FailReason) : (p.fail r).respKind = p.respKind := by
  unfold PipeRegs.fail; split <;> rfl
@[simp] theorem PipeRegs.fail_respReason (p : PipeRegs) (r : FailReason) : (p.fail r).respReason = p.respReason := by
  unfold PipeRegs.fail; split <;> rfl
@[simp] theorem PipeRegs.fail_respHandle (p : PipeRegs) (r : FailReason) : (p.fail r).respHandle = p.respHandle := by
  unfold PipeRegs.fail; split <;> rfl
@[simp] theorem PipeRegs.fail_respLen (p : PipeRegs) (r : FailReason) : (p.fail r).respLen = p.respLen := by
  unfold PipeRegs.fail; split <;> rfl
@[simp] theorem PipeRegs.fail_hops (p : PipeRegs) (r : FailReason) : (p.fail r).hops = p.hops := by
  unfold PipeRegs.fail; split <;> rfl
@[simp] theorem PipeRegs.fail_maxHops (p : PipeRegs) (r : FailReason) : (p.fail r).maxHops = p.maxHops := by
  unfold PipeRegs.fail; split <;> rfl
@[simp] theorem PipeRegs.fail_pldLen (p : PipeRegs) (r : FailReason) : (p.fail r).pldLen = p.pldLen := by
  unfold PipeRegs.fail; split <;> rfl
@[simp] theorem PipeRegs.fail_rounds (p : PipeRegs) (r : FailReason) : (p.fail r).rounds = p.rounds := by
  unfold PipeRegs.fail; split <;> rfl
@[simp] theorem PipeRegs.fail_keysTried (p : PipeRegs) (r : FailReason) : (p.fail r).keysTried = p.keysTried := by
  unfold PipeRegs.fail; split <;> rfl

/-! ### withLatency -/

@[simp] theorem State.withLatency_cfg (s : State) (l : Latency) : (s.withLatency l).cfg = { s.cfg with latency := l } := rfl
@[simp] theorem State.withLatency_cmd (s : State) (l : Latency) : (s.withLatency l).cmd = s.cmd := rfl
@[simp] theorem State.withLatency_status (s : State) (l : Latency) : (s.withLatency l).status = s.status := rfl
@[simp] theorem State.withLatency_errCode (s : State) (l : Latency) : (s.withLatency l).errCode = s.errCode := rfl
@[simp] theorem State.withLatency_ctrl (s : State) (l : Latency) : (s.withLatency l).ctrl = s.ctrl := rfl
@[simp] theorem State.withLatency_pktLen (s : State) (l : Latency) : (s.withLatency l).pktLen = s.pktLen := rfl
@[simp] theorem State.withLatency_keyCount (s : State) (l : Latency) : (s.withLatency l).keyCount = s.keyCount := rfl
@[simp] theorem State.withLatency_invKeyCount (s : State) (l : Latency) : (s.withLatency l).invKeyCount = s.invKeyCount := rfl
@[simp] theorem State.withLatency_inFlags (s : State) (l : Latency) : (s.withLatency l).inFlags = s.inFlags := rfl
@[simp] theorem State.withLatency_arg (s : State) (l : Latency) : (s.withLatency l).arg = s.arg := rfl
@[simp] theorem State.withLatency_res (s : State) (l : Latency) : (s.withLatency l).res = s.res := rfl
@[simp] theorem State.withLatency_pipe (s : State) (l : Latency) : (s.withLatency l).pipe = s.pipe := rfl
@[simp] theorem State.withLatency_mem (s : State) (l : Latency) : (s.withLatency l).mem = s.mem := rfl
@[simp] theorem State.withLatency_seqOp (s : State) (l : Latency) : (s.withLatency l).seqOp = s.seqOp := rfl
@[simp] theorem State.withLatency_snap (s : State) (l : Latency) : (s.withLatency l).snap = s.snap := rfl
@[simp] theorem State.withLatency_stage (s : State) (l : Latency) : (s.withLatency l).stage = s.stage := rfl
@[simp] theorem State.withLatency_loopIdx (s : State) (l : Latency) : (s.withLatency l).loopIdx = s.loopIdx := rfl
@[simp] theorem State.withLatency_rstPin (s : State) (l : Latency) : (s.withLatency l).rstPin = s.rstPin := rfl
@[simp] theorem State.withLatency_port (s : State) (l : Latency) : (s.withLatency l).port = s.port := rfl
@[simp] theorem State.withLatency_rdata (s : State) (l : Latency) : (s.withLatency l).rdata = s.rdata := rfl
@[simp] theorem State.withLatency_left (s : State) (l : Latency) : (s.withLatency l).left = s.left := rfl
@[simp] theorem State.withLatency_draws (s : State) (l : Latency) : (s.withLatency l).draws = s.draws := rfl
@[simp] theorem State.withLatency_epoch (s : State) (l : Latency) : (s.withLatency l).epoch = s.epoch := rfl

end Sys2Proof.Machine
end

