-- ==== Sys2Proof/Laws/Map.lean ====
section
/-! SUPPORT. The laws of the address map: what `peek` shows at each kind of address, and what a command's writes do to
it. -/

namespace Sys2Proof.Machine

/-- The eight control and status registers in address order, as they read. -/
def State.ctlBytes (s : State) : List Byte :=
  [s.cmd, s.status &&& 0x0F#8, s.errCode, s.ctrl &&& 0x01#8, s.pktLen, s.keyCount, s.invKeyCount, s.inFlags &&& 0x01#8]

@[simp] theorem PipeRegs.bytes_length (p : PipeRegs) : p.bytes.length = 36 := by
  simp [PipeRegs.bytes, bytesLE]

@[simp] theorem State.regBytes_length (s : State) : s.regBytes.length = 0x044 := by
  simp [State.regBytes]

@[simp] theorem bytesLE_length (n v : Nat) : (bytesLE n v).length = n := by simp [bytesLE]

@[simp] theorem State.bufBytes_length (s : State) (base off n : Nat) : (s.bufBytes base off n).length = n := by
  simp [State.bufBytes]

theorem State.bufBytes_getElem (s : State) (base off n i : Nat) (h : i < (s.bufBytes base off n).length) :
    (s.bufBytes base off n)[i] = s.readByte (base + off + i) := by
  simp [State.bufBytes]

/-- A buffer address shows the buffer byte. -/
theorem State.peek_buffer (s : State) (a : Nat) (h : 0x100 ≤ a ∧ a < 0x700) : s.peek a = s.readByte a := by
  simp [State.peek, isBufferAddr, h.1, h.2]

/-- A reserved address reads 0x00 (20_memory.md R74). -/
theorem State.peek_reserved (s : State) (a : Nat) (h : isReservedAddr a) : s.peek a = 0x00#8 := by
  have hb : isBufferAddr a = false := by
    rcases h with h | h <;> simp [isBufferAddr] <;> omega
  have hl : 0x044 ≤ a := by rcases h with h | h <;> omega
  simp [State.peek, hb, List.getD_eq_getElem?_getD, hl]

/-- What `peek` shows, by the four groups of registers (20_memory.md R71). -/
theorem State.peek_register (s : State) (a : Nat) (h : a < 0x044) :
    s.peek a =
      if a < 0x008 then s.ctlBytes.getD a 0x00#8
      else if a < 0x018 then s.arg.toList.getD (a - 0x008) 0x00#8
      else if a < 0x020 then s.res.toList.getD (a - 0x018) 0x00#8
      else s.pipe.bytes.getD (a - 0x020) 0x00#8 := by
  have hb : isBufferAddr a = false := by simp [isBufferAddr]; omega
  have e : s.regBytes = s.ctlBytes ++ (s.arg.toList ++ (s.res.toList ++ s.pipe.bytes)) := by
    simp [State.regBytes, State.ctlBytes]
  have hl : s.ctlBytes.length = 8 := rfl
  simp only [State.peek, hb, Bool.false_eq_true, if_false, e, List.getD_eq_getElem?_getD]
  split
  · rw [List.getElem?_append_left (by omega)]
  · rw [List.getElem?_append_right (by omega)]
    split
    · rw [List.getElem?_append_left (by simp; omega)]
      simp [hl]
    · rw [List.getElem?_append_right (by simp; omega)]
      split
      · rw [List.getElem?_append_left (by simp; omega)]
        congr 2
        simp [hl]; omega
      · rw [List.getElem?_append_right (by simp; omega)]
        congr 2
        simp [hl]; omega

/-- Two states show the same at an address when the parts of the map there are the same. -/
theorem State.peek_congr (s t : State) (a : Nat)
    (ctl : a < 0x008 → t.ctlBytes.getD a 0x00#8 = s.ctlBytes.getD a 0x00#8)
    (arg : 0x008 ≤ a → a < 0x018 → t.arg.toList.getD (a - 0x008) 0x00#8 = s.arg.toList.getD (a - 0x008) 0x00#8)
    (res : 0x018 ≤ a → a < 0x020 → t.res.toList.getD (a - 0x018) 0x00#8 = s.res.toList.getD (a - 0x018) 0x00#8)
    (pipe : 0x020 ≤ a → a < 0x044 → t.pipe.bytes.getD (a - 0x020) 0x00#8 = s.pipe.bytes.getD (a - 0x020) 0x00#8)
    (buf : 0x100 ≤ a → a < 0x700 → t.readByte a = s.readByte a) : t.peek a = s.peek a := by
  by_cases hr : a < 0x044
  · rw [State.peek_register s a hr, State.peek_register t a hr]
    split
    · exact ctl ‹_›
    · split
      · exact arg (by omega) ‹_›
      · split
        · exact res (by omega) ‹_›
        · exact pipe (by omega) hr
  · by_cases hb : 0x100 ≤ a ∧ a < 0x700
    · rw [State.peek_buffer s a hb, State.peek_buffer t a hb]
      exact buf hb.1 hb.2
    · have h : isReservedAddr a := by
        unfold isReservedAddr; omega
      rw [State.peek_reserved s a h, State.peek_reserved t a h]

/-- What a read of a buffer byte shows depends on the memory and the count of resets only. -/
theorem State.readByte_congr {s t : State} (hm : t.mem = s.mem) (he : t.epoch = s.epoch) (a : Nat) :
    t.readByte a = s.readByte a := by
  simp [State.readByte, hm, he]

theorem State.bufBytes_congr {s t : State} (hm : t.mem = s.mem) (he : t.epoch = s.epoch) (base off n : Nat) :
    t.bufBytes base off n = s.bufBytes base off n := by
  simp [State.bufBytes, State.readByte_congr hm he]

/-- A buffer byte after a command's writes of consecutive bytes. -/
theorem State.readByte_applyEffect (s : State) (e : Effect) (addr : Nat) (bs : List Byte) (a : Nat)
    (h : e.mem = cellsAt addr bs) :
    (s.applyEffect e).readByte a =
      if h : addr ≤ a ∧ a < addr + bs.length then bs[a - addr]'(by omega) else s.readByte a := by
  simp only [State.readByte, State.applyEffect_mem, State.applyEffect_epoch, h, Memory.read?_writeAll_cellsAt]
  split <;> rfl

/-- RES registers no write names are unchanged. -/
theorem writeRes_getElem_other (ws : List (Nat × Byte)) (r : Vector Byte 8) (i : Nat) (h : i < 8)
    (hw : ∀ w ∈ ws, w.1 ≠ i) : (writeRes r ws)[i] = r[i] := by
  induction ws generalizing r with
  | nil => rfl
  | cons w ws ih =>
    show (writeRes (r.setIfInBounds w.1 w.2) ws)[i] = r[i]
    rw [ih _ (fun v hv => hw v (List.mem_cons_of_mem _ hv))]
    exact Vector.getElem_setIfInBounds_ne h (hw w List.mem_cons_self)

/-- The last write to a RES register is the one it holds. -/
theorem writeRes_append_singleton (ws : List (Nat × Byte)) (r : Vector Byte 8) (i : Nat) (v : Byte) :
    writeRes r (ws ++ [(i, v)]) = (writeRes r ws).setIfInBounds i v := by
  simp [writeRes, List.foldl_append]

end Sys2Proof.Machine
end

