-- ==== Sys2Proof/Laws/Ops.lean ====
section
/-! SUPPORT. The laws of the shared operations of a transaction: what STATUS becomes, what a command's start, its wait,
its completion and a dropped write each do, and what a step can do. -/

namespace Sys2Proof.Machine

/-! ### The bits of STATUS -/

theorem statusStart_bits (st : Byte) :
    (statusStart st).getLsbD 0 = true ∧ (statusStart st).getLsbD 1 = false ∧ (statusStart st).getLsbD 2 = false ∧
      (statusStart st).getLsbD 3 = st.getLsbD 3 ∧ statusStart st &&& 0xF0#8 = st &&& 0xF0#8 := by
  revert st; decide

theorem statusStart_reads (st : Byte) : statusStart st &&& 0x0F#8 = (st &&& 0x0F#8 &&& 0x08#8) ||| 0x01#8 := by
  revert st; decide

theorem statusComplete_bits (st code : Byte) :
    (statusComplete st code).getLsbD 0 = false ∧ (statusComplete st code).getLsbD 1 = true ∧
      (statusComplete st code).getLsbD 2 = decide (code ≠ 0x00#8) ∧
      (statusComplete st code).getLsbD 3 = st.getLsbD 3 ∧ statusComplete st code &&& 0xF0#8 = st &&& 0xF0#8 := by
  unfold statusComplete
  split
  case isTrue h =>
    simp only [h, ne_eq, not_true, decide_false]
    revert st; decide
  case isFalse h =>
    simp only [h, ne_eq, not_false_iff, decide_true]
    revert st; decide

theorem statusW1C_bits (st d : Byte) :
    (statusW1C st d).getLsbD 0 = st.getLsbD 0 ∧ (statusW1C st d).getLsbD 1 = (st.getLsbD 1 && !d.getLsbD 1) ∧
      (statusW1C st d).getLsbD 2 = (st.getLsbD 2 && !d.getLsbD 2) ∧
      (statusW1C st d).getLsbD 3 = (st.getLsbD 3 && !d.getLsbD 3) ∧ statusW1C st d &&& 0xF0#8 = st &&& 0xF0#8 := by
  refine ⟨?_, ?_, ?_, ?_, ?_⟩
  all_goals unfold statusW1C
  · simp
  · simp
  · simp
  · simp
  · rw [BitVec.and_assoc]
    congr 1
    revert d; decide

theorem statusW1C_reads (st d : Byte) : statusW1C st d &&& 0x0F#8 = (st &&& 0x0F#8) &&& ~~~(d &&& 0x0E#8) := by
  unfold statusW1C
  rw [BitVec.and_assoc, BitVec.and_assoc]
  congr 1
  exact BitVec.and_comm _ _

theorem statusBusyWrite_bits (st : Byte) :
    (statusBusyWrite st).getLsbD 0 = st.getLsbD 0 ∧ (statusBusyWrite st).getLsbD 1 = st.getLsbD 1 ∧
      (statusBusyWrite st).getLsbD 2 = st.getLsbD 2 ∧ (statusBusyWrite st).getLsbD 3 = true ∧
      statusBusyWrite st &&& 0xF0#8 = st &&& 0xF0#8 := by
  revert st; decide

/-! ### BUSY after each operation -/

theorem State.startCommand_busy (s : State) (op : Byte) : (s.startCommand op).busy = true :=
  (statusStart_bits s.status).1

theorem State.complete_busy (s : State) (e : ErrCode) : (s.complete e).busy = false :=
  (statusComplete_bits s.status e.code).1

theorem State.finish_busy (s : State) : s.finish.busy = false := State.complete_busy _ _

theorem State.busyWrite_busy (s : State) (a : BusAddr) (d : Byte) : (s.busyWrite a d).busy = s.busy := by
  unfold State.busyWrite State.busy
  split
  · exact (statusW1C_bits _ _).1
  · split
    · rfl
    · exact (statusBusyWrite_bits _).1

theorem State.idleWrite_busy (s : State) (a : BusAddr) (d : Byte) : (s.idleWrite a d).busy = s.busy := by
  unfold State.idleWrite State.busy
  split
  · exact (statusW1C_bits _ _).1
  · repeat (first | rfl | split)

/-! ### What each operation can do, said once -/

/-- A write dropped while BUSY: the three things it can do (43_control.md R244). -/
theorem State.busyWrite_cases (s : State) (a : BusAddr) (d : Byte) :
    (a = 0x001#12 ∧ s.busyWrite a d = { s with status := statusW1C s.status d }) ∨
    (a = 0x003#12 ∧ s.busyWrite a d = { s with ctrl := d &&& 0x01#8 }) ∨
    (a ≠ 0x001#12 ∧ a ≠ 0x003#12 ∧ s.busyWrite a d = { s with status := statusBusyWrite s.status }) := by
  unfold State.busyWrite
  split
  · exact .inl ⟨‹_›, rfl⟩
  · split
    · exact .inr (.inl ⟨‹_›, rfl⟩)
    · exact .inr (.inr ⟨‹_›, ‹_›, rfl⟩)

/-- A host write while IDLE: everything it can do, by the address (43_control.md R241). -/
theorem State.idleWrite_cases (s : State) (a : BusAddr) (d : Byte) :
    (a.toNat = 0x001 ∧ s.idleWrite a d = { s with status := statusW1C s.status d }) ∨
    (a.toNat = 0x003 ∧ s.idleWrite a d = { s with ctrl := d &&& 0x01#8 }) ∨
    (a.toNat = 0x004 ∧ s.idleWrite a d = { s with pktLen := d }) ∨
    (a.toNat = 0x005 ∧ s.idleWrite a d = { s with keyCount := capCount d }) ∨
    (a.toNat = 0x006 ∧ s.idleWrite a d = { s with invKeyCount := capCount d }) ∨
    (a.toNat = 0x007 ∧ s.idleWrite a d = { s with inFlags := d &&& 0x01#8 }) ∨
    (0x008 ≤ a.toNat ∧ a.toNat < 0x018 ∧
      s.idleWrite a d = { s with arg := s.arg.setIfInBounds (a.toNat - 0x008) d }) ∨
    (isHostWritableBufferAddr a.toNat = true ∧ s.idleWrite a d = { s with mem := Memory.write s.mem a.toNat d }) ∨
    (isHostWritableBufferAddr a.toNat = false ∧ (a.toNat = 0x000 ∨ a.toNat = 0x002 ∨ 0x018 ≤ a.toNat) ∧
      s.idleWrite a d = s) := by
  have e : ∀ b : BusAddr, a = b ↔ a.toNat = b.toNat := fun b => BitVec.toNat_inj.symm
  simp only [State.idleWrite, e, BitVec.toNat_ofNat, Nat.reducePow, Nat.reduceMod]
  split
  · simp_all
  split
  · simp_all
  split
  · simp_all
  split
  · simp_all
  split
  · simp_all
  split
  · simp_all
  split
  · simp_all
  split
  · simp_all
  · refine .inr (.inr (.inr (.inr (.inr (.inr (.inr (.inr ⟨Bool.eq_false_of_not_eq_true ‹_›, ?_, rfl⟩)))))))
    omega

/-- A machine built with a constant LATENCY takes it for every command. -/
@[simp] theorem State.nextLatency_withLatency_fixed (s : State) (n : Nat) (op : Byte) :
    (s.withLatency (.fixed n)).nextLatency op = n := rfl

/-- A host write of `op` to CMD: dropped while BUSY; else the command starts, and completes in this transaction or
stays BUSY (43_control.md R242, R244, 70_reset_and_hazards.md R301). -/
theorem State.hostCommand_cases (s : State) (op : Byte) :
    (s.busy = true ∧ s.hostCommand op = { s with status := statusBusyWrite s.status }) ∨
    (s.busy = false ∧ s.nextLatency op = 0 ∧
      s.hostCommand op = State.finish { s.startCommand op with left := 0 }) ∨
    (∃ n, s.busy = false ∧ s.nextLatency op = n + 1 ∧ s.hostCommand op = { s.startCommand op with left := n }) := by
  unfold State.hostCommand
  split
  · exact .inl ⟨‹_›, rfl⟩
  · refine .inr ?_
    cases h : s.nextLatency op with
    | zero => exact .inl ⟨Bool.eq_false_of_not_eq_true ‹_›, rfl, by simp⟩
    | succ n => exact .inr ⟨n, Bool.eq_false_of_not_eq_true ‹_›, rfl, by simp⟩

/-- The sequencer's part of a step: nothing in IDLE, one transaction less to outlast, or completion. -/
theorem State.tick_cases (s : State) :
    (s.busy = false ∧ s.tick = s) ∨ (s.busy = true ∧ s.left = 0 ∧ s.tick = s.finish) ∨
      (∃ n, s.busy = true ∧ s.left = n + 1 ∧ s.tick = { s with left := n }) := by
  unfold State.tick
  split
  · refine .inr ?_
    split
    · exact .inl ⟨‹_›, ‹_›, rfl⟩
    · exact .inr ⟨_, ‹_›, ‹_›, rfl⟩
  · exact .inl ⟨Bool.eq_false_of_not_eq_true ‹_›, rfl⟩

/-- A host read: a fresh free value, or the byte the address map holds (43_control.md R240, 20_memory.md R81). -/
theorem execHostRd_cases (s : State) (a : BusAddr) (d : Byte) :
    (s.busy = true ∧ 4 ≤ a.toNat ∧
      execHostRd a d s = .next { s with rdata := Config.busyByte s.draws, draws := s.draws + 1 }) ∨
    ((s.busy = false ∨ a.toNat < 4) ∧ execHostRd a d s = .next { s with rdata := s.peek a.toNat }) := by
  unfold execHostRd readableWhileBusy
  split
  case isTrue h =>
    simp only [Bool.and_eq_true, Bool.not_eq_true', decide_eq_false_iff_not, not_lt] at h
    exact .inl ⟨h.1, h.2, rfl⟩
  case isFalse h =>
    simp only [Bool.and_eq_true, Bool.not_eq_true', decide_eq_false_iff_not, not_lt, not_and, not_le] at h
    refine .inr ⟨?_, rfl⟩
    cases hb : s.busy with
    | false => exact .inl rfl
    | true => exact .inr (h hb)

/-! ### Decoded commands -/

/-- A write of `op` to CMD decodes by the opcode map. -/
theorem decode_commandWord (op : Byte) : decode (commandWord op) = decodeCommand op := by
  revert op; decide +kernel

/-- Every command instruction, of any opcode, is the host's write of that opcode to CMD. -/
theorem exec_decodeCommand (op : Byte) (s : State) : exec (decodeCommand op) s = .next (s.hostCommand op) := by
  unfold decodeCommand
  split
  case h_1 h => rw [show op = 0x00#8 from BitVec.eq_of_toNat_eq h]; rfl
  case h_2 h => rw [show op = 0x01#8 from BitVec.eq_of_toNat_eq h]; rfl
  case h_3 h => rw [show op = 0x02#8 from BitVec.eq_of_toNat_eq h]; rfl
  case h_4 h => rw [show op = 0x03#8 from BitVec.eq_of_toNat_eq h]; rfl
  case h_5 h => rw [show op = 0x04#8 from BitVec.eq_of_toNat_eq h]; rfl
  case h_6 h => rw [show op = 0x05#8 from BitVec.eq_of_toNat_eq h]; rfl
  case h_7 h => rw [show op = 0x06#8 from BitVec.eq_of_toNat_eq h]; rfl
  case h_8 h => rw [show op = 0x07#8 from BitVec.eq_of_toNat_eq h]; rfl
  case h_9 h => rw [show op = 0x10#8 from BitVec.eq_of_toNat_eq h]; rfl
  case h_10 => rfl

/-- What `exec` answers for a decoded command word. -/
theorem exec_command (op : Byte) (s : State) : exec (decode (commandWord op)) s = .next (s.hostCommand op) := by
  rw [decode_commandWord, exec_decodeCommand]

/-- Every instruction of `exec` is one of four operations: a command, a read, a write while BUSY, a write while
IDLE. -/
theorem exec_cases {i : Instr} {s t : State} (h : exec i s = .next t) :
    (∃ op, t = s.hostCommand op) ∨ (∃ a d, i = .hostRd a d ∧ execHostRd a d s = .next t) ∨
      (∃ a d, i = .hostWr a d ∧ a ≠ 0x000#12 ∧ s.busy = true ∧ t = s.busyWrite a d) ∨
      (∃ a d, i = .hostWr a d ∧ a ≠ 0x000#12 ∧ s.busy = false ∧ t = s.idleWrite a d) := by
  cases i with
  | hostRd a d => exact .inr (.inl ⟨a, d, rfl, h⟩)
  | hostWr a d =>
    have h' : execHostWr a d s = .next t := h
    unfold execHostWr at h'
    split at h'
    · exact .inl ⟨d, by simpa using h'.symm⟩
    · split at h'
      · exact .inr (.inr (.inl ⟨a, d, rfl, ‹_›, ‹_›, by simpa using h'.symm⟩))
      · exact .inr (.inr (.inr ⟨a, d, rfl, ‹_›, by simpa using ‹¬ s.busy = true›, by simpa using h'.symm⟩))
  | _ => exact .inl ⟨_, by simpa [exec, execNop, execSymEnc, execSymDec, execFldEnc, execFldDec, execStrEnc, execStrDec,
      execCrc, execPktProc, execIllegal] using h.symm⟩

/-- Everything a step can do: nothing at the pins, a transaction while reset is asserted, a transaction, the reset
input asserted, or released. -/
theorem step_cases {s t : State} (h : step s = .next t) :
    (s.port = [] ∧ t = s.tick) ∨
    (∃ w rest, s.port = .bus w :: rest ∧ s.rstPin = true ∧ t = { s with port := rest }) ∨
    (∃ w rest, s.port = .bus w :: rest ∧ s.rstPin = false ∧
      exec (decode w) ({ s with port := rest } : State).tick = .next t) ∨
    (∃ rest, s.port = .assertReset :: rest ∧ t = ({ s with port := rest } : State).assertReset) ∨
    (∃ rest, s.port = .releaseReset :: rest ∧ t = { s with port := rest, rstPin := false }) := by
  unfold step State.nextEvent State.consume at h
  cases hp : s.port with
  | nil =>
    simp only [hp, List.head?_nil, Host.Outcome.next.injEq] at h
    exact .inl ⟨rfl, h.symm⟩
  | cons e rest =>
    refine .inr ?_
    simp only [hp, List.head?_cons, List.tail_cons] at h
    cases e with
    | bus w =>
      simp only at h
      split at h
      · simp only [Host.Outcome.next.injEq] at h
        exact .inl ⟨w, rest, rfl, ‹_›, h.symm⟩
      · exact .inr (.inl ⟨w, rest, rfl, Bool.eq_false_of_not_eq_true ‹_›, h⟩)
    | assertReset =>
      simp only [Host.Outcome.next.injEq] at h
      exact .inr (.inr (.inl ⟨rest, rfl, h.symm⟩))
    | releaseReset =>
      simp only [Host.Outcome.next.injEq] at h
      exact .inr (.inr (.inr ⟨rest, rfl, h.symm⟩))

end Sys2Proof.Machine
end

