-- ==== Sys2Proof/Laws/Effects.lean ====
section
/-! SUPPORT. The laws of the commands' effects: what they read, which RES registers and which bytes they may write, and
which commands touch the pipeline results. -/

namespace Sys2Proof.Machine

/-! ### What an effect reads -/

/-- The parts of the state that a command reads: the parameters, the argument snapshot, the buffers, and the four
inputs of PKT_PROC (30_encoding.md R103, R104). The time it takes is no input of its effect. -/
structure SameInputs (s t : State) : Prop where
  params : t.params = s.params
  snap : t.snap = s.snap
  mem : t.mem = s.mem
  epoch : t.epoch = s.epoch
  pktLen : t.pktLen = s.pktLen
  inFlags : t.inFlags = s.inFlags
  keyCount : t.keyCount = s.keyCount
  invKeyCount : t.invKeyCount = s.invKeyCount

/-- Trial decryption depends on a command's inputs only. -/
theorem trialLoop_congr {s t : State} (h : SameInputs s t) (k : Kind) (ct : List Byte) (is : List Nat) (p : PipeRun) :
    trialLoop t k ct is p = trialLoop s k ct is p := by
  induction is generalizing p with
  | nil => rfl
  | cons i is ih =>
    have hp := h.params
    have hk : t.plaintext k ct i = s.plaintext k ct i := by
      simp [State.plaintext, State.ringKey, State.bufBytes_congr h.mem h.epoch, hp]
    simp only [trialLoop, hp, hk, ih]

/-- Stage 7 depends on a command's inputs only. -/
theorem stage7_congr {s t : State} (h : SameInputs s t) (k : Kind) (d : List Byte) (p : PipeRun) :
    stage7 t k d p = stage7 s k d p := by
  have hp := h.params
  have hn : t.ringCount k = s.ringCount k := by simp [State.ringCount, h.keyCount, h.invKeyCount]
  simp only [stage7, hp, hn, trialLoop_congr h]

/-- The state whose fields are all those of `s` but for a command's inputs, which are those of `t`. -/
def State.withInputs (s t : State) : State :=
  { s with
    cfg := { t.cfg with latency := s.cfg.latency }
    snap := t.snap
    mem := t.mem
    epoch := t.epoch
    pktLen := t.pktLen
    inFlags := t.inFlags
    keyCount := t.keyCount
    invKeyCount := t.invKeyCount }

theorem State.withInputs_self {s t : State} (h : SameInputs s t) : s.withInputs t = s := by
  obtain ⟨h1, h2, h3, h4, h5, h6, h7, h8⟩ := h
  have hc : ({ t.cfg with latency := s.cfg.latency } : Config) = s.cfg := by
    change t.cfg.params = s.cfg.params at h1
    revert h1
    generalize t.cfg = b
    generalize s.cfg = a
    rintro h1
    cases a
    cases b
    simpa using h1
  simp only [State.withInputs, hc, h2, h3, h4, h5, h6, h7, h8]

/-- PKT_PROC depends on a command's inputs only. -/
theorem pktProcEffect_congr {s t : State} (h : SameInputs s t) : pktProcEffect t = pktProcEffect s := by
  have e : stage0Abort t = stage0Abort s := by
    rw [← State.withInputs_self h]; rfl
  have e1 : stage1 t = stage1 s := by rw [← State.withInputs_self h]; rfl
  have e2 : stage2 t = stage2 s := by rw [← State.withInputs_self h]; rfl
  have e3 : stage3 t = stage3 s := by rw [← State.withInputs_self h]; rfl
  have e4 : stage4 t = stage4 s := by rw [← State.withInputs_self h]; rfl
  have e5 : stage5 t = stage5 s := by rw [← State.withInputs_self h]; rfl
  have e6 : stage6 t = stage6 s := by rw [← State.withInputs_self h]; rfl
  have e8 : stage8 t = stage8 s := by rw [← State.withInputs_self h]; rfl
  have er : runPayload t = runPayload s := by
    funext k d p
    simp only [runPayload, stage7_congr h, e8]
  have ec : runClassified t = runClassified s := by
    funext k p
    simp only [runClassified, e5, e6, er]
  have es : runStages t = runStages s := by
    funext p
    simp only [runStages, e1, e2, e3, e4, ec]
  simp only [pktProcEffect, e, es]

/-- A command's effect depends on its inputs only (20_memory.md R83). -/
theorem effectOf_congr {s t : State} (h : SameInputs s t) (op : Byte) : effectOf op t = effectOf op s := by
  unfold effectOf
  rw [pktProcEffect_congr h, ← State.withInputs_self h]
  rfl

/-! ### What an effect writes -/

/-- The bytes of a command's writes all lie in PLD_BUF or OUT_BUF, its RES writes name RES registers. -/
structure EffectInBounds (e : Effect) : Prop where
  mem : ∀ c ∈ e.mem, (0x200 ≤ c.1 ∧ c.1 < 0x300) ∨ (0x600 ≤ c.1 ∧ c.1 < 0x700)
  res : ∀ w ∈ e.res, w.1 < 8

theorem raiseErr_inBounds (e : ErrCode) : EffectInBounds (raiseErr e) :=
  ⟨by simp [raiseErr], by simp [raiseErr]⟩

theorem raiseAtSymbol_inBounds (i : Nat) : EffectInBounds (raiseAtSymbol i) :=
  ⟨by simp [raiseAtSymbol], by simp [raiseAtSymbol]⟩

/-- Consecutive bytes of OUT_BUF that fit lie in OUT_BUF. -/
theorem cellsAt_outBuf {o : Nat} {bs : List Byte} (h : o + bs.length ≤ 256) :
    ∀ c ∈ cellsAt (outBufBase + o) bs, (0x200 ≤ c.1 ∧ c.1 < 0x300) ∨ (0x600 ≤ c.1 ∧ c.1 < 0x700) := by
  intro c hc
  have := mem_cellsAt hc
  simp only [outBufBase] at this
  omega

theorem symEncEffect_inBounds (s : State) : EffectInBounds (symEncEffect s) := by
  unfold symEncEffect
  split
  · exact raiseErr_inBounds _
  · exact ⟨by simp, by simp⟩

theorem symDecEffect_inBounds (s : State) : EffectInBounds (symDecEffect s) := by
  unfold symDecEffect
  split
  · exact raiseErr_inBounds _
  · exact ⟨by simp, by simp⟩

theorem fldEncEffect_inBounds (s : State) : EffectInBounds (fldEncEffect s) := by
  unfold fldEncEffect
  extract_lets
  split
  · exact raiseErr_inBounds _
  split
  · exact raiseErr_inBounds _
  split
  · exact raiseErr_inBounds _
  · refine ⟨cellsAt_outBuf ?_, by simp⟩
    rw [fieldEncode_length ‹_›]
    simpa [fitsBuffer] using ‹¬ (!fitsBuffer _ _) = true›

theorem fldDecEffect_inBounds (s : State) : EffectInBounds (fldDecEffect s) := by
  unfold fldDecEffect
  extract_lets
  split
  · exact raiseErr_inBounds _
  split
  · exact raiseErr_inBounds _
  split
  · exact raiseAtSymbol_inBounds _
  · exact raiseErr_inBounds _
  · refine ⟨by simp, fun w hw => ?_⟩
    simp only [bytesLE, List.mem_append, List.mem_cons, List.not_mem_nil, or_false] at hw
    rcases hw with hw | rfl | rfl
    · have := (List.of_mem_zip hw).1
      simp only [List.mem_range] at this
      omega
    · simp
    · simp

theorem strEncEffect_inBounds (s : State) : EffectInBounds (strEncEffect s) := by
  unfold strEncEffect
  extract_lets
  split
  · exact raiseErr_inBounds _
  split
  · exact raiseErr_inBounds _
  split
  · exact raiseErr_inBounds _
  · refine ⟨cellsAt_outBuf ?_, by simp⟩
    rw [stringEncode_length, State.bufBytes_length]
    simpa [fitsBuffer] using ‹¬ (!fitsBuffer _ (4 * _ / 3)) = true›

theorem strDecEffect_inBounds (s : State) : EffectInBounds (strDecEffect s) := by
  unfold strDecEffect
  extract_lets
  split
  · exact raiseErr_inBounds _
  split
  · exact raiseErr_inBounds _
  split
  · exact raiseErr_inBounds _
  split
  · exact raiseAtSymbol_inBounds _
  · refine ⟨cellsAt_outBuf ?_, by simp⟩
    rw [stringDecode_length ‹_›, State.bufBytes_length]
    simpa [fitsBuffer] using ‹¬ (!fitsBuffer _ (3 * _ / 4)) = true›

theorem crcEffect_inBounds (s : State) : EffectInBounds (crcEffect s) := by
  unfold crcEffect
  split
  · exact raiseErr_inBounds _
  · exact raiseErr_inBounds _
  · simp only
    split
    · exact raiseErr_inBounds _
    · exact ⟨by simp, by simp⟩

end Sys2Proof.Machine
end

