-- ==== Sys2Proof/Laws/Pipeline.lean ====
section
/-! SUPPORT. The laws of PKT_PROC: the paths it can take, what the trial-decryption loop finds, the header as the
statements of Safety see it, and where its writes lie. -/

namespace Sys2Proof.Machine

/-! ### The configuration's constraints, as the laws use them -/

/-- The table of a state is injective. -/
theorem State.symTable_injective (s : State) : TableInjective s.symTable := fun i j hi hj h =>
  Config.symTable_injective s.cfg i j hi hj h

theorem Kind.mem_all (k : Kind) : k ∈ Kind.all := by cases k <;> decide

/-- The payload of every kind is a multiple of four symbols, at least four, and longer than its trailer; its checksum
byte and its message identifier lie in the cipher region (00_scope.md R8). -/
theorem Config.payload_constraints (c : Config) (k : Kind) :
    c.params.payloadSymbols k % 4 = 0 ∧ 4 ≤ c.params.payloadSymbols k ∧
      c.params.pldTrailerLen < 3 * c.params.payloadSymbols k / 4 ∧ c.params.pldCrcIdx < c.params.regionLen k ∧
      c.params.msgIdIdx < c.params.regionLen k := by
  have hl := c.legal
  simp only [Params.legal, Bool.and_eq_true, and_assoc] at hl
  have h := List.all_eq_true.1 hl.2.2.2.2.2.2.2.2.1 k (Kind.mem_all k)
  simp only [Bool.and_eq_true, decide_eq_true_eq, and_assoc] at h
  exact ⟨h.1, h.2.1, h.2.2.1, h.2.2.2.1, h.2.2.2.2.1⟩

/-- The two flag bits of a PID are bits 6 and 7, in some order (00_scope.md R8). -/
theorem Config.pid_flag_bits (c : Config) :
    (c.params.pidMhBit = 6 ∧ c.params.pidSaBit = 7) ∨ (c.params.pidMhBit = 7 ∧ c.params.pidSaBit = 6) := by
  have hl := c.legal
  simp only [Params.legal, Bool.and_eq_true, and_assoc, Bool.or_eq_true, decide_eq_true_eq] at hl
  exact hl.2.2.2.2.2.2.1

/-! ### Trial decryption (42_pipeline.md R201) -/

/-- Keys that do not match are tried and passed over. -/
theorem trialLoop_append (s : State) (k : Kind) (ct : List Byte) (is js : List Nat) (p : PipeRun)
    (h : ∀ i ∈ is, ¬ KeyMatches s k ct i) :
    trialLoop s k ct (is ++ js) p =
      trialLoop s k ct js (is.foldl (fun q i => tryKey s.params i (s.plaintext k ct i) q) p) := by
  induction is generalizing p with
  | nil => rfl
  | cons i is ih =>
    have hi := h i List.mem_cons_self
    unfold KeyMatches at hi
    simp only [List.cons_append, trialLoop, if_neg hi, List.foldl_cons]
    exact ih _ (fun j hj => h j (List.mem_cons_of_mem _ hj))

/-- A later trial overwrites all that an earlier one wrote. -/
theorem tryKey_tryKey (c : Params) (i j : Nat) (pt qt : List Byte) (p : PipeRun) :
    tryKey c i pt (tryKey c j qt p) = tryKey c i pt p := rfl

theorem foldl_tryKey (s : State) (k : Kind) (ct : List Byte) (is : List Nat) (i : Nat) (p : PipeRun) :
    tryKey s.params i (s.plaintext k ct i)
        (is.foldl (fun q j => tryKey s.params j (s.plaintext k ct j) q) p) =
      tryKey s.params i (s.plaintext k ct i) p := by
  induction is generalizing p with
  | nil => rfl
  | cons j js ih => rw [List.foldl_cons, ih, tryKey_tryKey]

/-- The first matching key ends the loop; the record is that of its trial alone. -/
theorem trialLoop_accepts (s : State) (k : Kind) (ct : List Byte) (n i : Nat) (p : PipeRun) (hi : i < n)
    (hm : KeyMatches s k ct i) (hf : ∀ j < i, ¬ KeyMatches s k ct j) :
    trialLoop s k ct (List.range n) p =
      (tryKey s.params i (s.plaintext k ct i) p, some (i, s.plaintext k ct i)) := by
  obtain ⟨m, rfl⟩ : ∃ m, n = i + (m + 1) := ⟨n - i - 1, by omega⟩
  rw [List.range_add, trialLoop_append _ _ _ _ _ _ (fun j hj => hf j (List.mem_range.1 hj)), List.range_succ_eq_map]
  unfold KeyMatches at hm
  simp only [List.map_cons, Nat.add_zero, trialLoop, if_pos hm, foldl_tryKey]

/-- The record after `n` keys were tried and none matched: that of the last trial. -/
def lastTrial (s : State) (k : Kind) (ct : List Byte) (p : PipeRun) : Nat → PipeRun
  | 0 => p
  | m + 1 => tryKey s.params m (s.plaintext k ct m) p

/-- With no matching key the record is that of the last trial, if there was one. -/
theorem trialLoop_fails (s : State) (k : Kind) (ct : List Byte) (n : Nat) (p : PipeRun)
    (hf : ∀ j < n, ¬ KeyMatches s k ct j) :
    trialLoop s k ct (List.range n) p = (lastTrial s k ct p n, none) := by
  cases n with
  | zero => rfl
  | succ m =>
    have hm := hf m (by omega)
    unfold KeyMatches at hm
    rw [List.range_succ, trialLoop_append _ _ _ _ _ _ (fun j hj => hf j (by have := List.mem_range.1 hj; omega))]
    simp only [trialLoop, if_neg hm, foldl_tryKey, lastTrial]

/-- Either a first key of the ring matches or none does. -/
theorem accepted_or_none (s : State) (k : Kind) (d : List Byte) :
    (∃ i, Accepted s k d i) ∨ ∀ j < s.ringCount k, ¬ KeyMatches s k (cipherRegion s.params d) j := by
  by_cases h : ∃ j, j < s.ringCount k ∧ KeyMatches s k (cipherRegion s.params d) j
  · refine .inl ?_
    classical
    have hs := Nat.find_spec h
    refine ⟨Nat.find h, hs.1, hs.2, fun j hj hm => Nat.find_min h hj ⟨?_, hm⟩⟩
    omega
  · exact .inr (fun j hj hm => h ⟨j, hj, hm⟩)

/-- Nothing is accepted exactly when no key of the ring matches. -/
theorem not_accepted_iff (s : State) (k : Kind) (d : List Byte) :
    (∀ i, ¬ Accepted s k d i) ↔ ∀ j < s.ringCount k, ¬ KeyMatches s k (cipherRegion s.params d) j := by
  constructor
  · intro h
    rcases accepted_or_none s k d with ⟨i, hi⟩ | hn
    · exact absurd hi (h i)
    · exact hn
  · intro h i hi
    exact h i hi.1 hi.2.1

/-- Stage 7 with an accepted key. -/
theorem stage7_accepts {s : State} {k : Kind} {d : List Byte} {i : Nat} (p : PipeRun) (h : Accepted s k d i) :
    stage7 s k d p =
      ((tryKey s.params i (s.plaintext k (cipherRegion s.params d) i)
          ((p.enter 7).mapRegs (fun r =>
            { r with keyRing := boolByte (kindIsInvite k), rounds := BitVec.ofNat 8 (roundsOf s.params k) }))).mapRegs
          (fun r => ({ r with keyIdx := BitVec.ofNat 8 i }.setFlag flagValidDecrypt).setFlag flagValidPayloadChecksum),
        some (s.plaintext k (cipherRegion s.params d) i),
        s.plaintext k (cipherRegion s.params d) i ++ trailer s.params d) := by
  unfold stage7
  simp only [trialLoop_accepts s k _ _ i _ h.1 h.2.1 h.2.2]

/-- Stage 7 with no matching key. -/
theorem stage7_fails {s : State} {k : Kind} {d : List Byte} (p : PipeRun)
    (h : ∀ j < s.ringCount k, ¬ KeyMatches s k (cipherRegion s.params d) j) :
    stage7 s k d p =
      ((lastTrial s k (cipherRegion s.params d)
          ((p.enter 7).mapRegs (fun r =>
            { r with keyRing := boolByte (kindIsInvite k), rounds := BitVec.ofNat 8 (roundsOf s.params k) }))
          (s.ringCount k)).mapRegs (fun r => r.fail .decrypt),
        none, d) := by
  unfold stage7
  simp only [trialLoop_fails s k _ _ _ h]

/-! ### Lengths -/

theorem cipherDec_length (c : Cipher) (key : List Byte) (n : Nat) (ct : List Byte) :
    (cipherDec c key n ct).length = ct.length := by
  simp [cipherDec]

theorem State.plaintext_length (s : State) (k : Kind) (ct : List Byte) (i : Nat) :
    (s.plaintext k ct i).length = ct.length := cipherDec_length _ _ _ _

theorem cipherRegion_length (c : Params) (d : List Byte) :
    (cipherRegion c d).length = d.length - c.pldTrailerLen := by
  simp [cipherRegion]

theorem trailer_length (c : Params) (d : List Byte) :
    (trailer c d).length = d.length - (d.length - c.pldTrailerLen) := by
  simp [trailer]

/-- The cipher region followed by the trailer is the decoded payload (42_pipeline.md R199). -/
theorem cipherRegion_append_trailer (c : Params) (d : List Byte) : cipherRegion c d ++ trailer c d = d :=
  List.take_append_drop _ _

/-- PLD_BUF receives as many bytes as the decoded payload has. -/
theorem stage7_out_length (s : State) (k : Kind) (d : List Byte) (p : PipeRun) :
    (stage7 s k d p).2.2.length = d.length := by
  rcases accepted_or_none s k d with ⟨i, h⟩ | h
  · rw [stage7_accepts p h]
    simp only [List.length_append, State.plaintext_length, cipherRegion_length, trailer_length]
    omega
  · rw [stage7_fails p h]

/-! ### The paths of PKT_PROC -/

/-- The working record after stages 1 and 2 of an admitted packet. -/
def headerRun (s : State) : PipeRun :=
  stage2 s (stage1 s (PipeRun.start.mapRegs (fun r => r.setFlag flagValidDigits)))

/-- The packet is admitted exactly when stage 0 does not abort. -/
theorem stage0Abort_none_iff (s : State) : stage0Abort s = none ↔ PacketAdmitted s := by
  unfold stage0Abort PacketAdmitted
  split
  · simp [*]
  · split
    · simp only [reduceCtorEq, false_iff, not_and]
      intro _ h
      simp_all
    · split
      · simp only [reduceCtorEq, false_iff, not_and, not_le]
        exact fun _ _ => ‹_›
      · simp only [true_iff]
        exact ⟨‹_›, by simpa using ‹¬ s.inFlags.getLsbD 0 = false›, by omega⟩

/-- What stage 6 answers, and stages 7 to 9 after it. -/
inductive PayloadPath (s : State) (k : Kind) (p : PipeRun) : PipeRun → List Byte → Prop where
  /-- The payload holds an invalid symbol. -/
  | undecodable (h : ∀ d, ¬ StringReads s.symTable (payloadSyms s k) d) :
      PayloadPath s k p
        ((p.enter 6).decodeFailed.mapRegs (fun r => (r.setFieldErr fieldErrPld).fail .pldDecode)) []
  /-- No key of the ring matches. -/
  | noKey (d : List Byte) (hd : StringReads s.symTable (payloadSyms s k) d) (hl : d.length = 3 * s.params.payloadSymbols k / 4)
      (h : ∀ j < s.ringCount k, ¬ KeyMatches s k (cipherRegion s.params d) j) :
      PayloadPath s k p
        (stage7 s k d ((p.enter 6).mapRegs (fun r => { r with pldLen := BitVec.ofNat 8 d.length }))).1 d
  /-- Key `i` is accepted. -/
  | accepted (d : List Byte) (i : Nat) (hd : StringReads s.symTable (payloadSyms s k) d)
      (hl : d.length = 3 * s.params.payloadSymbols k / 4) (h : Accepted s k d i) :
      PayloadPath s k p
        (stage8 s k (s.plaintext k (cipherRegion s.params d) i)
          (stage7 s k d ((p.enter 6).mapRegs (fun r => { r with pldLen := BitVec.ofNat 8 d.length }))).1)
        (s.plaintext k (cipherRegion s.params d) i ++ trailer s.params d)

/-- The bytes of the payload symbols. -/
theorem payloadSyms_length (s : State) (k : Kind) : (payloadSyms s k).length = s.params.payloadSymbols k :=
  State.bufBytes_length _ _ _ _

/-- Stages 5 to 8 take one of the three paths. -/
theorem runClassified_path (s : State) (k : Kind) (p : PipeRun) :
    PayloadPath s k (stage5 s k p) (runClassified s k p).1 (runClassified s k p).2 := by
  have hl4 : (payloadSyms s k).length % 4 = 0 := by
    rw [payloadSyms_length]
    exact (Config.payload_constraints s.cfg k).1
  unfold runClassified stage6
  generalize stage5 s k p = q
  cases hd : stringDecode s.symTable (payloadSyms s k) with
  | error j =>
    have hd' : stringDecode s.symTable (s.pktBytes s.params.hdrEncLen (s.params.payloadSymbols k)) = .error j := hd
    simp only [hd']
    refine .undecodable (fun d h => ?_)
    rw [← stringDecode_ok_iff s.symTable_injective hl4, hd] at h
    cases h
  | ok d =>
    have hd' : stringDecode s.symTable (s.pktBytes s.params.hdrEncLen (s.params.payloadSymbols k)) = .ok d := hd
    have hr := (stringDecode_ok_iff s.symTable_injective hl4).1 hd
    have hlen : d.length = 3 * s.params.payloadSymbols k / 4 := by
      rw [stringDecode_length hd, payloadSyms_length]
    simp only [hd', runPayload]
    rcases accepted_or_none s k d with ⟨i, h⟩ | h
    · have e := PayloadPath.accepted (p := q) d i hr hlen h
      rw [stage7_accepts _ h] at e ⊢
      exact e
    · have e := PayloadPath.noKey (p := q) d hr hlen h
      rw [stage7_fails _ h] at e ⊢
      exact e

/-! ### The header (42_pipeline.md R186 to R194) -/

theorem HdrField.width_pos (f : HdrField) : 1 ≤ f.width ∧ f.width ≤ 48 := by cases f <;> decide

/-- A header field decodes to what its symbols stand for. -/
theorem State.hdrValue_eq_some_iff (s : State) (f : HdrField) (x : Nat) :
    s.hdrValue f = some x ↔ HeaderReads s f x := by
  unfold State.hdrValue State.pktField HeaderReads
  rw [← fieldDecode_ok_iff s.symTable_injective]
  cases fieldDecode s.symTable f.width (s.pktBytes (f.offset s.params) (symbolCount f.width)) <;>
    simp [Except.toOption]

theorem State.hdrValue_eq_none_iff (s : State) (f : HdrField) :
    s.hdrValue f = none ↔ ∀ x, ¬ HeaderReads s f x := by
  simp only [← State.hdrValue_eq_some_iff, Option.eq_none_iff_forall_ne_some, ne_eq]

/-- A header field's value fits its width. -/
theorem HeaderReads.lt {s : State} {f : HdrField} {x : Nat} (h : HeaderReads s f x) : x < 2 ^ f.width := by
  obtain ⟨gs, -, -, h⟩ := h
  exact h

/-- A header field stands for at most one value. -/
theorem HeaderReads.unique {s : State} {f : HdrField} {x y : Nat} (hx : HeaderReads s f x) (hy : HeaderReads s f y) :
    x = y := by
  rw [← State.hdrValue_eq_some_iff] at hx hy
  exact Option.some.inj (hx.symm.trans hy)

/-- The register of a field that decodes. -/
theorem State.hdrReg_toNat {s : State} {f : HdrField} {x : Nat} (h : HeaderReads s f x) :
    (s.hdrReg f f.width).toNat = x := by
  have := h.lt
  rw [← State.hdrValue_eq_some_iff] at h
  simp only [State.hdrReg, h, Option.getD_some, BitVec.toNat_ofNat]
  exact Nat.mod_eq_of_lt this

/-- The register of a field that does not decode. -/
theorem State.hdrReg_zero {s : State} {f : HdrField} (h : ∀ x, ¬ HeaderReads s f x) (n : Nat) : s.hdrReg f n = 0#n := by
  simp [State.hdrReg, (State.hdrValue_eq_none_iff s f).2 h]

/-- FIELD_ERR after stage 1: one bit for each field that does not decode, the other bits 0. -/
theorem State.hdrFieldErr_bits (s : State) :
    (∀ f : HdrField, s.hdrFieldErr.getLsbD f.bit = (s.hdrValue f).isNone) ∧ s.hdrFieldErr &&& 0xC0#8 = 0x00#8 ∧
      s.hdrFieldErr &&& 0x3F#8 = s.hdrFieldErr := by
  have k : ∀ b0 b1 b2 b3 b4 b5 : Bool,
      let e0 := if b0 = true then setBit 0x00#8 0 else 0x00#8
      let e1 := if b1 = true then setBit e0 1 else e0
      let e2 := if b2 = true then setBit e1 2 else e1
      let e3 := if b3 = true then setBit e2 3 else e2
      let e4 := if b4 = true then setBit e3 4 else e3
      let e5 := if b5 = true then setBit e4 5 else e4
      (e5.getLsbD 0 = b0 ∧ e5.getLsbD 1 = b1 ∧ e5.getLsbD 2 = b2 ∧ e5.getLsbD 3 = b3 ∧ e5.getLsbD 4 = b4 ∧
        e5.getLsbD 5 = b5) ∧ e5 &&& 0xC0#8 = 0x00#8 ∧ e5 &&& 0x3F#8 = e5 := by decide
  obtain ⟨⟨h0, h1, h2, h3, h4, h5⟩, h⟩ := k (s.hdrValue .rptr).isNone (s.hdrValue .hcrc).isNone
    (s.hdrValue .dst).isNone (s.hdrValue .nid).isNone (s.hdrValue .src).isNone (s.hdrValue .pid).isNone
  refine ⟨fun f => ?_, h⟩
  cases f
  exacts [h0, h1, h2, h3, h4, h5]

/-- Every header field decodes. -/
theorem State.hdrFieldErr_zero_iff (s : State) : s.hdrFieldErr = 0x00#8 ↔ ∀ f : HdrField, ∃ x, HeaderReads s f x := by
  have hb := s.hdrFieldErr_bits
  have hs : ∀ f, (∃ x, HeaderReads s f x) ↔ (s.hdrValue f).isNone = false := by
    intro f
    simp only [← State.hdrValue_eq_some_iff]
    cases s.hdrValue f <;> simp
  constructor
  · intro h f
    rw [hs, ← hb.1 f, h]
    simp
  · intro h
    have k : ∀ e : Byte, e &&& 0xC0#8 = 0x00#8 → e.getLsbD 0 = false → e.getLsbD 1 = false → e.getLsbD 2 = false →
        e.getLsbD 3 = false → e.getLsbD 4 = false → e.getLsbD 5 = false → e = 0x00#8 := by decide
    have b : ∀ f : HdrField, s.hdrFieldErr.getLsbD f.bit = false := fun f => by rw [hb.1 f, ← hs]; exact h f
    exact k _ hb.2.1 (b .rptr) (b .hcrc) (b .dst) (b .nid) (b .src) (b .pid)

/-- The HCRC field decoded to the checksum computed. -/
def State.hdrCrcOk (s : State) : Prop := HeaderReads s .hcrc s.hdrCrc.toNat

/-- Stage 2's test says that the HCRC field decoded to the checksum computed. -/
theorem hdrCrc_test_iff (s : State) :
    (s.hdrFieldErr.getLsbD HdrField.hcrc.bit = false ∧ s.hdrReg .hcrc 8 = s.hdrCrc) ↔ s.hdrCrcOk := by
  rw [s.hdrFieldErr_bits.1 .hcrc]
  constructor
  · rintro ⟨hn, he⟩
    cases hv : s.hdrValue .hcrc with
    | none => simp [hv] at hn
    | some x =>
      have hr := (State.hdrValue_eq_some_iff s .hcrc x).1 hv
      have := State.hdrReg_toNat hr
      unfold State.hdrCrcOk
      rw [← he]
      have e2 : (s.hdrReg .hcrc 8).toNat = x := this
      rw [e2]
      exact hr
  · intro h
    refine ⟨by rw [(State.hdrValue_eq_some_iff s .hcrc _).2 h]; rfl, ?_⟩
    exact BitVec.eq_of_toNat_eq (State.hdrReg_toNat h)

open Classical in
/-- The working record after stages 1 and 2, in full. -/
theorem headerRun_eq (s : State) :
    headerRun s =
      { regs := { PipeRegs.cleared with
          flags := if s.hdrCrcOk then 0x05#8 else 0x01#8
          fieldErr := s.hdrFieldErr
          failReason := if s.hdrFieldErr ≠ 0x00#8 then 0x01#8 else if s.hdrCrcOk then 0x00#8 else 0x02#8
          pid := s.hdrReg .pid 8
          rptrDid := s.hdrReg .rptr 12
          dstDid := s.hdrReg .dst 12
          srcDid := s.hdrReg .src 12
          nid := s.hdrReg .nid 36
          hcrcRx := s.hdrReg .hcrc 8
          hcrcCalc := s.hdrCrc }
        decodeOk := decide (s.hdrFieldErr = 0x00#8)
        stage := 2
        loopIdx := 0 } := by
  have ht := hdrCrc_test_iff s
  unfold headerRun stage2 stage1
  by_cases he : s.hdrFieldErr = 0x00#8 <;> by_cases hc : s.hdrCrcOk
  all_goals
    have hc' := hc
    rw [← ht] at hc'
    simp only [he, if_true, if_false, PipeRun.mapRegs, PipeRun.enter, PipeRun.decodeFailed, PipeRegs.setFlag,
      PipeRegs.fail, hc, hc', not_true, not_false_iff, ne_eq, decide_true, decide_false]
  · simp only [he] at hc'
    simp [hc', PipeRun.start, PipeRegs.cleared, flagValidDigits, flagValidHeaderChecksum, setBit]
  · simp only [he] at hc'
    simp [PipeRun.start, PipeRegs.cleared, flagValidDigits, setBit, FailReason.code]
    simpa using hc'
  · simp [PipeRun.start, PipeRegs.cleared, flagValidDigits, flagValidHeaderChecksum, setBit, FailReason.code]
    exact hc'.1
  · simp [PipeRun.start, PipeRegs.cleared, flagValidDigits, setBit, FailReason.code]
    exact fun h1 h2 => absurd ⟨h1, h2⟩ hc'

/-! ### Flags, failures, variants and the last stage -/

/-- A bit set is 1, every other bit is as it was. -/
theorem setBit_getLsbD (b : Byte) (i j : Nat) (hi : i < 8) (hj : j < 8) :
    (setBit b i).getLsbD j = (b.getLsbD j || decide (i = j)) := by
  have k : ∀ a : Byte, ∀ i, i < 8 → ∀ j, j < 8 → (setBit a i).getLsbD j = (a.getLsbD j || decide (i = j)) := by
    decide +kernel
  exact k b i hi j hj

/-- After a failure FAIL_REASON is not 0x00 (42_pipeline.md R184). -/
theorem PipeRegs.fail_failReason_ne (p : PipeRegs) (r : FailReason) (h : r ≠ .none) :
    (p.fail r).failReason ≠ 0x00#8 := by
  rw [PipeRegs.fail_failReason]
  split
  · cases r <;> first | exact absurd rfl h | decide
  · assumption

/-- Variant dispatch leaves FLAGS and FAIL_REASON alone, or records a parse failure (42_pipeline.md R206, R207). -/
theorem dispatchVariant_flags (c : Params) (k : Kind) (pt : List Byte) (r : PipeRegs) :
    ((dispatchVariant c k pt r).flags = r.flags ∧ (dispatchVariant c k pt r).failReason = r.failReason) ∨
    ((dispatchVariant c k pt r).flags = setBit r.flags flagParseErr ∧
      (dispatchVariant c k pt r).failReason = (r.fail .parse).failReason) := by
  unfold dispatchVariant
  split
  · unfold singleData
    dsimp only
    split
    iterate 4 exact .inl ⟨rfl, rfl⟩
    refine .inr ⟨by simp, ?_⟩
    simp only [PipeRegs.fail_failReason, PipeRegs.setFlag_failReason]
    rfl
  all_goals exact .inl ⟨rfl, rfl⟩

/-- Variant dispatch leaves FIELD_ERR alone. -/
theorem dispatchVariant_fieldErr (c : Params) (k : Kind) (pt : List Byte) (r : PipeRegs) :
    (dispatchVariant c k pt r).fieldErr = r.fieldErr := by
  unfold dispatchVariant
  split
  · unfold singleData
    dsimp only
    split <;> simp
  all_goals rfl

/-- Stage 9 changes FLAGS and nothing else of the result registers. -/
theorem stage9_regs (p : PipeRun) : (stage9 p).regs = { p.regs with flags := (stage9 p).regs.flags } := by
  unfold stage9
  dsimp only
  split <;> split <;> rfl

/-- FLAGS after stage 9 (42_pipeline.md R197, R209). -/
theorem stage9_flags (p : PipeRun) :
    (stage9 p).regs.flags =
      (let f := if p.decodeOk then setBit p.regs.flags flagValidDecode else p.regs.flags
       if allSubFlags f then setBit f flagValid else f) := by
  unfold stage9
  dsimp only
  split <;> split <;> simp_all

/-! ### Classification (42_pipeline.md R190 to R194) -/

/-- The PID register's two flag bits are those of the value decoded. -/
theorem pid_testBit (pid i : Nat) (hp : pid < 256) : (BitVec.ofNat 8 pid).getLsbD i = pid.testBit i := by
  rw [BitVec.getLsbD_ofNat]
  by_cases hi : i < 8
  · simp [hi]
  · rw [Nat.testBit_lt_two_pow]
    · simp
    · exact Nat.lt_of_lt_of_le (show pid < 2 ^ 8 from hp) (Nat.pow_le_pow_right (by omega) (Nat.not_lt.1 hi))

/-- Stage 3 of an admitted packet: the PID does not decode; it decodes and has no kind; it has a kind. -/
inductive Stage3Path (s : State) (p : PipeRun) : PipeRun × Option Kind → Prop where
  /-- The PID field does not decode. -/
  | undecodable (h : ∀ x, ¬ HeaderReads s .pid x) :
      Stage3Path s p ((p.enter 3).mapRegs (fun r => r.fail .pidUnknown), none)
  /-- The PID's low 6 bits have no kind. -/
  | unknown (pid : Nat) (h : HeaderReads s .pid pid) (hk : s.params.pidMap[pid % 64]'(by omega) = none) :
      Stage3Path s p
        ((p.enter 3).mapRegs (fun r =>
          ({ r with pidFlags := pidFlagsOf (pidMh s pid) (pidSa s pid) } : PipeRegs).fail .pidUnknown), none)
  /-- The PID has kind `k`. -/
  | known (pid : Nat) (k : Kind) (h : HeaderReads s .pid pid) (hk : s.params.pidMap[pid % 64]'(by omega) = some k) :
      Stage3Path s p
        ((p.enter 3).mapRegs (fun r =>
          { r with pidFlags := pidFlagsOf (pidMh s pid) (pidSa s pid), kind := kindCode k }), some k)

theorem stage3_path (s : State) : Stage3Path s (headerRun s) (stage3 s (headerRun s)) := by
  have hb : (headerRun s).regs.fieldErr.getLsbD HdrField.pid.bit = (s.hdrValue .pid).isNone := by
    rw [headerRun_eq]
    exact s.hdrFieldErr_bits.1 .pid
  have hpid : (headerRun s).regs.pid = s.hdrReg .pid 8 := by rw [headerRun_eq]
  unfold stage3
  simp only [PipeRun.enter_regs, hb]
  cases hv : s.hdrValue .pid with
  | none => exact .undecodable ((State.hdrValue_eq_none_iff s .pid).1 hv)
  | some pid =>
    have hr := (State.hdrValue_eq_some_iff s .pid pid).1 hv
    have hlt : pid < 256 := hr.lt
    have e : (headerRun s).regs.pid = BitVec.ofNat 8 pid := by
      rw [hpid]
      simp [State.hdrReg, hv]
    simp only [Option.isNone_some, Bool.false_eq_true, if_false, e, pid_testBit pid _ hlt]
    have ek : s.pidKind (BitVec.ofNat 8 pid) = s.params.pidMap[pid % 64]'(by omega) := by
      unfold State.pidKind
      congr 1
      simp only [BitVec.extractLsb'_toNat, BitVec.toNat_ofNat, Nat.shiftRight_zero]
      omega
    rw [ek]
    cases hk : s.params.pidMap[pid % 64]'(by omega) with
    | none => exact .unknown pid hr hk
    | some k => exact .known pid k hr hk

/-- PKT_PROC, by the path it takes. -/
inductive PktPath (s : State) : Effect → Prop where
  /-- Stage 0 aborts. -/
  | aborted (e : ErrCode) (h : stage0Abort s = some e) (hn : ¬ PacketAdmitted s) :
      PktPath s { err := e, pipe := some (PipeRun.start.mapRegs (fun r => { r with failReason := FailReason.aborted.code })) }
  /-- The packet has no kind. -/
  | unclassified (p : PipeRun) (ha : PacketAdmitted s) (h3 : Stage3Path s (headerRun s) (p, none)) :
      PktPath s { mem := [], pipe := some (stage9 p) }
  /-- The packet's length is not the one its PID implies. -/
  | badLength (p : PipeRun) (pid : Nat) (k : Kind) (hk : PidIs s pid k) (hc : ¬ Classified s pid k)
      (h3 : Stage3Path s (headerRun s) (p, some k)) :
      PktPath s { mem := [], pipe := some (stage9 ((p.enter 4).mapRegs (fun r => r.fail .lenMismatch))) }
  /-- The packet is classified. -/
  | classified (p q : PipeRun) (out : List Byte) (pid : Nat) (k : Kind) (hc : Classified s pid k)
      (h3 : Stage3Path s (headerRun s) (p, some k)) (hm : p.regs.mh = pidMh s pid)
      (h5 : PayloadPath s k (stage5 s k ((p.enter 4).mapRegs (fun r => r.setFlag flagValidPid))) q out) :
      PktPath s { mem := cellsAt pldBufBase out, pipe := some (stage9 q) }

theorem pidFlagsOf_bits (mh sa : Bool) :
    (pidFlagsOf mh sa).getLsbD 0 = mh ∧ (pidFlagsOf mh sa).getLsbD 1 = sa ∧ pidFlagsOf mh sa &&& 0xFC#8 = 0x00#8 := by
  revert mh sa; decide

/-- PKT_PROC takes one of the four paths. -/
theorem pktProc_path (s : State) : PktPath s (pktProcEffect s) := by
  unfold pktProcEffect
  cases h0 : stage0Abort s with
  | some e => exact .aborted e h0 (fun h => by rw [(stage0Abort_none_iff s).2 h] at h0; cases h0)
  | none =>
    have ha := (stage0Abort_none_iff s).1 h0
    have h3 := stage3_path s
    have e : stage2 s (stage1 s (PipeRun.start.mapRegs (fun r => r.setFlag flagValidDigits))) = headerRun s := rfl
    simp only [runStages, e]
    rcases hq : stage3 s (headerRun s) with ⟨p, ok⟩
    rw [hq] at h3
    cases ok with
    | none => exact .unclassified p ha h3
    | some k =>
      simp only
      cases h3 with
      | known pid _ h hk =>
        have hm : ((headerRun s).enter 3 |>.mapRegs (fun r =>
            { r with pidFlags := pidFlagsOf (pidMh s pid) (pidSa s pid), kind := kindCode k })).regs.mh = pidMh s pid :=
          (pidFlagsOf_bits _ _).1
        unfold stage4
        simp only [PipeRun.enter_regs, hm]
        by_cases hl : s.pktLen.toNat = expectedLen s.params k (pidMh s pid)
        · simp only [hl, if_true]
          exact .classified _ _ _ pid k ⟨⟨ha, h, hk⟩, hl⟩ (.known pid k h hk) hm (runClassified_path _ _ _)
        · simp only [hl, if_false]
          exact .badLength _ pid k ⟨ha, h, hk⟩ (fun hc => hl hc.2) (.known pid k h hk)

/-- The bytes a payload path writes: as many as the decoded payload has, or none. -/
theorem PayloadPath.out_length {s : State} {k : Kind} {p q : PipeRun} {out : List Byte}
    (h : PayloadPath s k p q out) : out.length ≤ 3 * s.params.payloadSymbols k / 4 := by
  cases h with
  | undecodable => simp
  | noKey _ _ hl => omega
  | accepted d i _ hl =>
    simp only [List.length_append, State.plaintext_length, cipherRegion_length, trailer_length]
    omega

/-- PKT_PROC's writes lie in PLD_BUF. -/
theorem pktProcEffect_inBounds (s : State) : EffectInBounds (pktProcEffect s) := by
  have h := pktProc_path s
  cases hd : pktProcEffect s with
  | mk err res mem pipe =>
    rw [hd] at h
    cases h with
    | aborted => exact ⟨by simp, by simp⟩
    | unclassified => exact ⟨by simp, by simp⟩
    | badLength => exact ⟨by simp, by simp⟩
    | classified p q out pid k hc h3 hm h5 =>
      refine ⟨fun c hcell => .inl ?_, by simp⟩
      have hm := mem_cellsAt hcell
      have ho := h5.out_length
      have hl := hc.2
      have h8 := s.pktLen.isLt
      simp only [pldBufBase] at hm
      split at hl <;> omega

/-- Every command's writes lie in PLD_BUF, OUT_BUF and the RES registers. -/
theorem effectOf_inBounds (op : Byte) (s : State) : EffectInBounds (effectOf op s) := by
  unfold effectOf
  split
  · exact ⟨by simp [nopEffect], by simp [nopEffect]⟩
  · exact symEncEffect_inBounds s
  · exact symDecEffect_inBounds s
  · exact fldEncEffect_inBounds s
  · exact fldDecEffect_inBounds s
  · exact strEncEffect_inBounds s
  · exact strDecEffect_inBounds s
  · exact crcEffect_inBounds s
  · exact pktProcEffect_inBounds s
  · exact raiseErr_inBounds _

end Sys2Proof.Machine
end

