-- ==== Sys2Proof/Laws/Commands.lean ====
section
/-! SUPPORT. The laws of a whole command: the state a prompt command leaves, its booking, and its frame. -/

namespace Sys2Proof.Machine

/-- The effect a command started now will have: its snapshot is ARG as it stands (43_control.md R242). -/
def State.effectNow (s : State) (op : Byte) : Effect := effectOf op { s with snap := s.arg }

/-- The effect of the started command is the one it has now, whatever its latency. -/
theorem effectOf_started (s : State) (op : Byte) (n : Nat) :
    effectOf op { s.startCommand op with left := n } = s.effectNow op :=
  effectOf_congr (s := { s with snap := s.arg }) (t := { s.startCommand op with left := n })
    ⟨rfl, rfl, rfl, rfl, rfl, rfl, rfl, rfl⟩ op

/-- The effect does not depend on the time the command takes. -/
theorem State.effectNow_withLatency (s : State) (l : Latency) (op : Byte) :
    (s.withLatency l).effectNow op = s.effectNow op :=
  effectOf_congr (s := { s with snap := s.arg }) (t := { s.withLatency l with snap := s.arg })
    ⟨rfl, rfl, rfl, rfl, rfl, rfl, rfl, rfl⟩ op

/-- What `finish` leaves, field by field. -/
theorem State.finish_eq (s : State) :
    s.finish =
      { s with
        errCode := (effectOf s.seqOp s).err.code
        status := statusComplete s.status (effectOf s.seqOp s).err.code
        res := writeRes s.res (effectOf s.seqOp s).res
        mem := Memory.writeAll s.mem (effectOf s.seqOp s).mem
        pipe := ((effectOf s.seqOp s).pipe.map PipeRun.regs).getD s.pipe
        stage := ((effectOf s.seqOp s).pipe.map PipeRun.stage).getD s.stage
        loopIdx := ((effectOf s.seqOp s).pipe.map PipeRun.loopIdx).getD s.loopIdx } := by
  unfold State.finish State.complete State.applyEffect
  cases (effectOf s.seqOp s).pipe <;> rfl

/-- The state a prompt command leaves, field by field. -/
theorem hostCommand_prompt {s : State} {op : Byte} (h : Prompt op s) :
    s.hostCommand op =
      { s with
        cmd := op
        seqOp := op
        snap := s.arg
        left := 0
        errCode := (s.effectNow op).err.code
        status := statusComplete (statusStart s.status) (s.effectNow op).err.code
        res := writeRes s.res (s.effectNow op).res
        mem := Memory.writeAll s.mem (s.effectNow op).mem
        pipe := ((s.effectNow op).pipe.map PipeRun.regs).getD s.pipe
        stage := ((s.effectNow op).pipe.map PipeRun.stage).getD 0
        loopIdx := ((s.effectNow op).pipe.map PipeRun.loopIdx).getD 0 } := by
  rcases s.hostCommand_cases op with ⟨hb, -⟩ | ⟨-, -, e⟩ | ⟨n, -, hn, -⟩
  · rw [h.1] at hb
    cases hb
  · rw [e, State.finish_eq]
    have e2 : effectOf op { s.startCommand op with left := 0 } = s.effectNow op :=
      effectOf_started s op _
    show ({ s.startCommand op with
        left := 0
        errCode := (effectOf op { s.startCommand op with left := 0 }).err.code
        status := statusComplete (statusStart s.status)
          (effectOf op { s.startCommand op with left := 0 }).err.code
        res := writeRes s.res (effectOf op { s.startCommand op with left := 0 }).res
        mem := Memory.writeAll s.mem (effectOf op { s.startCommand op with left := 0 }).mem
        pipe := ((effectOf op { s.startCommand op with left := 0 }).pipe.map
          PipeRun.regs).getD s.pipe
        stage := ((effectOf op { s.startCommand op with left := 0 }).pipe.map
          PipeRun.stage).getD 0
        loopIdx := ((effectOf op { s.startCommand op with left := 0 }).pipe.map
          PipeRun.loopIdx).getD 0 } : State) = _
    rw [e2]
    rfl
  · rw [h.2] at hn
    cases hn

/-- The booking of a prompt command (43_control.md R242, R243). -/
theorem commandRan_prompt {s : State} {op : Byte} (h : Prompt op s) :
    CommandRan op (s.effectNow op).err.code s (s.hostCommand op) := by
  have hs := statusStart_bits s.status
  have hc := statusComplete_bits (statusStart s.status) (s.effectNow op).err.code
  rw [hostCommand_prompt h]
  refine ⟨rfl, hc.1, hc.2.1, hc.2.2.1, ?_, rfl, rfl, rfl, ⟨rfl, rfl, rfl, rfl⟩, ⟨rfl, rfl⟩⟩
  exact hc.2.2.2.1.trans hs.2.2.2.1

/-- The frame of a prompt command: every address but CMD, STATUS, ERR_CODE, the RES registers and bytes its effect
names, and, if it has pipeline results, 0x020 to 0x043, shows what it showed. -/
theorem sameMap_prompt {s : State} {op : Byte} (h : Prompt op s) :
    SameMapExcept
      (fun a => isCommandReg a ∨ (∃ w ∈ (s.effectNow op).res, a = addrRes0 + w.1) ∨
        (∃ c ∈ (s.effectNow op).mem, a = c.1) ∨ ((s.effectNow op).pipe.isSome = true ∧ 0x020 ≤ a ∧ a < 0x044))
      s (s.hostCommand op) := by
  intro a ha hn
  rw [hostCommand_prompt h]
  simp only [not_or, not_exists, not_and, isCommandReg, addrCmd, addrStatus, addrErrCode, addrRes0] at hn
  obtain ⟨⟨h0, h1, h2⟩, hr, hm, hp⟩ := hn
  refine State.peek_congr _ _ a (fun hlt => ?_) (fun _ _ => rfl) (fun h8 h9 => ?_) (fun h8 h9 => ?_) (fun h8 h9 => ?_)
  · simp only [State.ctlBytes, List.getD_eq_getElem?_getD]
    rcases a with _ | _ | _ | a
    · exact absurd rfl h0
    · exact absurd rfl h1
    · exact absurd rfl h2
    · rfl
  · have hw : ∀ w ∈ (s.effectNow op).res, w.1 ≠ a - 0x018 := fun w hw e => hr w hw (by omega)
    have := writeRes_getElem_other _ s.res (a - 0x018) (by omega) hw
    simpa [List.getD_eq_getElem?_getD, show a - 0x018 < 8 by omega] using this
  · cases hx : (s.effectNow op).pipe with
    | none => rfl
    | some p => exact absurd h9 (hp (by simp [hx]) h8)
  · unfold State.readByte
    rw [Memory.read?_writeAll_other _ _ _ (fun c hc e => hm c hc e.symm)]

end Sys2Proof.Machine
end

