-- ==== Sys2Proof/Laws/PerInstr.lean ====
section
/-! SUPPORT. The family of statements made instruction by instruction: the word of each instruction carries the fixed
bits of its row of the opcode table. -/

namespace Sys2Proof.Laws.RowMatch

/-- The mask of an instruction's row (30_encoding.md R96, R98): bit W and field A for the commands, and OP where the row
fixes it; bit W for the two transactions. -/
def mask : Instr → BusWord
  | .nop | .symEnc | .symDec | .fldEnc | .fldDec | .strEnc | .strDec | .crc | .pktProc => 0x1FFFFF#21
  | .illegal _ => 0x1FFF00#21
  | .hostRd _ _ | .hostWr _ _ => 0x100000#21

/-- The fixed bits of an instruction's row (30_encoding.md R96, R98, R100). -/
def fixed : Instr → BusWord
  | .nop => 0x100000#21
  | .symEnc => 0x100001#21
  | .symDec => 0x100002#21
  | .fldEnc => 0x100003#21
  | .fldDec => 0x100004#21
  | .strEnc => 0x100005#21
  | .strDec => 0x100006#21
  | .crc => 0x100007#21
  | .pktProc => 0x100010#21
  | .illegal _ => 0x100000#21
  | .hostRd _ _ => 0x000000#21
  | .hostWr _ _ => 0x100000#21

/-- The word of a well-formed instruction carries the fixed bits of its row. -/
def Statement (i : Instr) : Prop := i.wf = true → encode i &&& mask i = fixed i

/-- Bit W of a word built from its fields. -/
theorem busWord_and_w (b : Bool) (a : BusAddr) (d : Byte) :
    busWord b a d &&& 0x100000#21 = if b then 0x100000#21 else 0x000000#21 := by
  apply BitVec.eq_of_getLsbD_eq
  intro i hi
  have m : ∀ j < 21, (0x100000#21).getLsbD j = decide (j = 20) := by decide
  rw [BitVec.getLsbD_and, m i hi]
  by_cases h : i = 20
  · subst h
    simp only [busWord, BitVec.getLsbD_append, decide_true, Bool.and_true]
    cases b <;> rfl
  · cases b <;> simp [h, m i hi]

theorem nop : Statement .nop := fun _ => rfl
theorem symEnc : Statement .symEnc := fun _ => rfl
theorem symDec : Statement .symDec := fun _ => rfl
theorem fldEnc : Statement .fldEnc := fun _ => rfl
theorem fldDec : Statement .fldDec := fun _ => rfl
theorem strEnc : Statement .strEnc := fun _ => rfl
theorem strDec : Statement .strDec := fun _ => rfl
theorem crc : Statement .crc := fun _ => rfl
theorem pktProc : Statement .pktProc := fun _ => rfl

theorem illegal (op : Byte) : Statement (.illegal op) := by
  intro _
  have h : ∀ o : Byte, commandWord o &&& 0x1FFF00#21 = 0x100000#21 := by decide +kernel
  exact h op

theorem hostRd (a : BusAddr) (d : Byte) : Statement (.hostRd a d) := fun _ => busWord_and_w false a d

theorem hostWr (a : BusAddr) (d : Byte) : Statement (.hostWr a d) := fun _ => busWord_and_w true a d

end Sys2Proof.Laws.RowMatch
end

