-- ==== Sys2Proof/Tests/Slice0.lean ====
section
/-! SUPPORT. The model's own tests: ill-formed terms are refused, words written out from the encoding decode, each
instruction's step on a vector of 95_test_vectors.md (REF), and a concrete case that meets the hypotheses of each
statement. -/

namespace Sys2Proof.Tests

/- One theorem at a time: many kernel evaluations at once ask for more threads than the sandbox gives. -/
set_option Elab.async false

open Sys2Proof.Machine

/-! ### Small states -/

/-- The reference instance right after reset. -/
def ref : State := State.resetOf Config.ref

/-- With these bytes in ARG0, ARG1, … and zeros above. -/
def args (bs : List Byte) (s : State) : State := { s with arg := Vector.ofFn (fun i : Fin 16 => bs.getD i.val 0x00#8) }

/-- With these bytes in a buffer from an address on. -/
def load (addr : Nat) (bs : List Byte) (s : State) : State := { s with mem := Memory.writeAll s.mem (cellsAt addr bs) }

/-- With a command running that outlasts `n` more transactions. -/
def running (op : Byte) (n : Nat) (s : State) : State :=
  { s with status := 0x01#8, cmd := op, seqOp := op, snap := s.arg, left := n }

/-- What the address map shows after an outcome. -/
def shows (o : Host.Outcome State Fault Refusal) (addrs : List Nat) : Option (List Byte) :=
  match o with
  | .next t => some (addrs.map t.peek)
  | _ => none

/-- The state after an outcome. -/
def after (o : Host.Outcome State Fault Refusal) (s : State) : State :=
  match o with
  | .next t => t
  | _ => s

/-! ### Well-formedness refuses ill-formed terms -/

theorem test_wf_refuses_illegal_of_an_assigned_opcode :
    (Instr.illegal 0x00#8).wf = false ∧ (Instr.illegal 0x07#8).wf = false ∧ (Instr.illegal 0x10#8).wf = false := by
  decide

theorem test_wf_accepts_illegal_of_reserved_opcodes :
    (Instr.illegal 0x08#8).wf = true ∧ (Instr.illegal 0x0F#8).wf = true ∧ (Instr.illegal 0x11#8).wf = true ∧
      (Instr.illegal 0xFF#8).wf = true := by decide

theorem test_wf_refuses_a_plain_write_to_cmd :
    (Instr.hostWr 0x000#12 0x07#8).wf = false ∧ (Instr.hostWr 0x001#12 0x07#8).wf = true := by decide

theorem test_config_refuses_a_table_with_a_symbol_twice :
    ({ Params.ref with symTable := Vector.replicate 64 0xB4#8 }).legal = false := by decide +kernel

/-! ### Decoding, from words written out bit by bit (30_encoding.md R96, R98, R100) -/

theorem test_decode_nop : decodeTableWord 24 0b1_000000000000_00000000 = some .nop := by decide
theorem test_decode_symEnc : decodeTableWord 24 0b1_000000000000_00000001 = some .symEnc := by decide
theorem test_decode_symDec : decodeTableWord 24 0b1_000000000000_00000010 = some .symDec := by decide
theorem test_decode_fldEnc : decodeTableWord 24 0b1_000000000000_00000011 = some .fldEnc := by decide
theorem test_decode_fldDec : decodeTableWord 24 0b1_000000000000_00000100 = some .fldDec := by decide
theorem test_decode_strEnc : decodeTableWord 24 0b1_000000000000_00000101 = some .strEnc := by decide
theorem test_decode_strDec : decodeTableWord 24 0b1_000000000000_00000110 = some .strDec := by decide
theorem test_decode_crc : decodeTableWord 24 0b1_000000000000_00000111 = some .crc := by decide
theorem test_decode_pktProc : decodeTableWord 24 0b1_000000000000_00010000 = some .pktProc := by decide
theorem test_decode_illegal : decodeTableWord 24 0b1_000000000000_00001000 = some (.illegal 0x08#8) := by decide

/-- `rd FAIL_REASON` (95_test_vectors.md P3): 0|022|00. -/
theorem test_decode_hostRd : decodeTableWord 24 0b0_000000100010_00000000 = some (.hostRd 0x022#12 0x00#8) := by decide

/-- `wr PKT_BUF+3, 0x55` (95_test_vectors.md P3): 1|103|55. -/
theorem test_decode_hostWr : decodeTableWord 24 0b1_000100000011_01010101 = some (.hostWr 0x103#12 0x55#8) := by decide

/-- A number of 22 bits is no transaction. -/
theorem test_decode_refuses_what_is_no_bus_word : decodeNumber 0x200000 = .error .notABusWord := by rfl

/-! ### One step of each instruction (95_test_vectors.md; shown addresses: STATUS, ERR_CODE, RES) -/

/-- P4: NOP completes with DONE. -/
theorem test_nop : shows (exec .nop ref) [0x000, 0x001, 0x002] = some [0x00#8, 0x02#8, 0x00#8] := by decide +kernel

/-- V-SYM2: 2A. -/
theorem test_symEnc :
    shows (exec .symEnc (args [0x2A#8] ref)) [0x000, 0x001, 0x002, 0x018] = some [0x01#8, 0x02#8, 0x00#8, 0x63#8] := by
  decide +kernel

/-- V-SYM2: 40 is RANGE. -/
theorem test_symEnc_range :
    shows (exec .symEnc (args [0x40#8] ref)) [0x001, 0x002, 0x018] = some [0x06#8, 0x03#8, 0x00#8] := by
  decide +kernel

/-- V-SYM3: A2. -/
theorem test_symDec :
    shows (exec .symDec (args [0xA2#8] ref)) [0x001, 0x002, 0x018] = some [0x02#8, 0x00#8, 0x3F#8] := by
  decide +kernel

/-- V-SYM3: B0 is no symbol. -/
theorem test_symDec_invalid :
    shows (exec .symDec (args [0xB0#8] ref)) [0x001, 0x002, 0x018] = some [0x06#8, 0x04#8, 0x00#8] := by
  decide +kernel

/-- V-FE5: pad bits, two groups. -/
theorem test_fldEnc :
    shows (exec .fldEnc (args [0x08#8, 0xA5#8] ref)) [0x001, 0x018, 0x600, 0x601] =
      some [0x02#8, 0x02#8, 0xB3#8, 0x56#8] := by decide +kernel

/-- V-FE20: every ARG byte counts toward x. -/
theorem test_fldEnc_range :
    shows (exec .fldEnc (args [0x08#8, 0xA5#8, 0x00#8, 0x00#8, 0x00#8, 0x00#8, 0x01#8] ref)) [0x001, 0x002, 0x018] =
      some [0x06#8, 0x03#8, 0x00#8] := by decide +kernel

/-- E2: 36 bits. -/
theorem test_fldDec :
    shows (exec .fldDec (load 0x300 [0xB5#8, 0x5A#8, 0x3C#8, 0x39#8, 0xD9#8, 0xCC#8] (args [0x24#8] ref)))
        [0x001, 0x018, 0x019, 0x01A, 0x01B, 0x01C, 0x01D, 0x01E, 0x01F] =
      some [0x02#8, 0x89#8, 0x67#8, 0x45#8, 0x23#8, 0x01#8, 0x00#8, 0x06#8, 0x00#8] := by decide +kernel

/-- 40_symbol_codec.md R134: w = 12 with B4 FF is INVALID_SYMBOL at 1. -/
theorem test_fldDec_invalid :
    shows (exec .fldDec (load 0x300 [0xB4#8, 0xFF#8] (args [0x0C#8] ref))) [0x001, 0x002, 0x018, 0x01F] =
      some [0x06#8, 0x04#8, 0x00#8, 0x01#8] := by decide +kernel

/-- 40_symbol_codec.md R135: 01 02 03. -/
theorem test_strEnc :
    shows (exec .strEnc (load 0x300 [0x01#8, 0x02#8, 0x03#8] (args [0x03#8] ref)))
        [0x001, 0x018, 0x600, 0x601, 0x602, 0x603] = some [0x02#8, 0x04#8, 0xB4#8, 0x34#8, 0xC4#8, 0xBA#8] := by
  decide +kernel

/-- 30_encoding.md R103: the count must be a multiple of 3. -/
theorem test_strEnc_bad_count :
    shows (exec .strEnc (args [0x04#8] ref)) [0x001, 0x002] = some [0x06#8, 0x02#8] := by decide +kernel

/-- 40_symbol_codec.md R136: B4 34 C4 BA. -/
theorem test_strDec :
    shows (exec .strDec (load 0x300 [0xB4#8, 0x34#8, 0xC4#8, 0xBA#8] (args [0x04#8] ref)))
        [0x001, 0x018, 0x01F, 0x600, 0x601, 0x602] = some [0x02#8, 0x03#8, 0x00#8, 0x01#8, 0x02#8, 0x03#8] := by
  decide +kernel

/-- P4: the symbol 00 at index 2. -/
theorem test_strDec_invalid :
    shows (exec .strDec (load 0x300 [0xB4#8, 0x34#8, 0x00#8, 0xBA#8] (args [0x04#8] ref)))
        [0x001, 0x002, 0x018, 0x01F] = some [0x06#8, 0x04#8, 0x00#8, 0x02#8] := by decide +kernel

/-- P2's data, "123456789". -/
def digits : List Byte := [0x31#8, 0x32#8, 0x33#8, 0x34#8, 0x35#8, 0x36#8, 0x37#8, 0x38#8, 0x39#8]

/-- P2: FORWARD, init 00, gives F4. -/
theorem test_crc_forward :
    shows (exec .crc (load 0x300 digits (args [0x00#8, 0x00#8, 0x00#8, 0x00#8, 0x09#8] ref))) [0x001, 0x018] =
      some [0x02#8, 0xF4#8] := by decide +kernel

/-- P2: REFLECTED, init FF, gives D0. -/
theorem test_crc_reflected :
    shows (exec .crc (load 0x300 digits (args [0xFF#8, 0x01#8, 0x00#8, 0x00#8, 0x09#8] ref))) [0x001, 0x018] =
      some [0x02#8, 0xD0#8] := by decide +kernel

/-- V-PP1's packet. -/
def pp1 : List Byte :=
  [0xB4#8, 0xB4#8, 0xBA#8, 0x55#8, 0xB4#8, 0xB3#8, 0xB5#8, 0x5A#8, 0x3C#8, 0x39#8, 0xD9#8, 0xCC#8, 0xB4#8, 0xBC#8]
  ++ [0xB4#8, 0xB4#8, 0x9C#8, 0x93#8, 0x34#8, 0x53#8, 0xC5#8, 0x54#8, 0xD4#8, 0x39#8, 0xD4#8, 0x52#8, 0xC4#8, 0xB4#8]

/-- V-PP8's packet, multi-hop: V-PP1 with another PID and checksum, and one hop symbol. -/
def pp8 (hop : Byte) : List Byte := [0xB4#8, 0xB4#8, 0xBC#8, 0xC5#8] ++ (pp1.drop 4).take 10 ++ [0xBC#8] ++ pp1.drop 15 ++ [hop]

/-- The keys K_B and K_A, in this order. -/
def keysBA : List Byte :=
  (List.range 16).map (fun i => BitVec.ofNat 8 (16 + i)) ++ (List.range 16).map (fun i => BitVec.ofNat 8 i)

/-- The packet stands in PKT_BUF, `n` keys of KEYRING = [K_B, K_A] count. -/
def packet (bytes : List Byte) (n : Byte) : State :=
  load 0x400 keysBA (load 0x100 bytes { ref with pktLen := BitVec.ofNat 8 bytes.length, keyCount := n })

/-- V-PP1: FLAGS, FIELD_ERR, FAIL_REASON, KIND, DST_DID, NID's low byte, HCRC_CALC, PLD_CRC_RX, KEY_IDX, VARIANT, MSG_ID,
PLD_LEN, KEYS_TRIED, and PLD_BUF. -/
theorem test_pktProc :
    shows (exec .pktProc (packet pp1 0x02#8))
        [0x001, 0x020, 0x021, 0x022, 0x024, 0x028, 0x02C, 0x032, 0x033, 0x035, 0x037, 0x038, 0x041, 0x043, 0x200, 0x207,
         0x208] =
      some [0x02#8, 0x7F#8, 0x00#8, 0x00#8, 0x00#8, 0x02#8, 0x89#8, 0xE4#8, 0xE7#8, 0x01#8, 0x01#8, 0x05#8, 0x09#8,
        0x02#8, 0xE7#8, 0x55#8, 0x00#8] := by decide +kernel

/-- V-PP13b: IN_FLAGS.VALID_DIGITS = 0 aborts with BAD_INPUT. -/
theorem test_pktProc_bad_input :
    shows (exec .pktProc { packet pp1 0x02#8 with inFlags := 0x00#8 }) [0x001, 0x002, 0x020, 0x022, 0x024, 0x037] =
      some [0x06#8, 0x06#8, 0x00#8, 0x09#8, 0xFF#8, 0x00#8] := by decide +kernel

/-- P4: the reserved opcode 08. -/
theorem test_illegal :
    shows (exec (.illegal 0x08#8) ref) [0x000, 0x001, 0x002] = some [0x08#8, 0x06#8, 0x01#8] := by decide +kernel

/-- KIND reads 0xFF after reset (10_state.md R44). -/
theorem test_hostRd : (after (exec (.hostRd 0x024#12 0x00#8) ref) ref).rdata = 0xFF#8 := by decide +kernel

/-- A reserved address reads 0x00 (20_memory.md R74). -/
theorem test_hostRd_reserved :
    (after (exec (.hostRd 0xFFF#12 0x00#8) { ref with rdata := 0x5A#8 }) ref).rdata = 0x00#8 := by decide +kernel

/-- P4: KEY_COUNT stores min(20, 10). -/
theorem test_hostWr_count : shows (exec (.hostWr 0x005#12 0x20#8) ref) [0x005] = some [0x10#8] := by decide +kernel

/-- W1C on STATUS leaves BUSY alone (43_control.md R241). -/
theorem test_hostWr_w1c :
    shows (exec (.hostWr 0x001#12 0x0F#8) { ref with status := 0x0E#8 }) [0x001] = some [0x00#8] ∧
    shows (exec (.hostWr 0x001#12 0x0F#8) { ref with status := 0x09#8 }) [0x001] = some [0x01#8] := by decide +kernel

/-! ### The host's two questions, on one word -/

/-- `withFetchWord` places the transaction, and the very next step runs it. -/
theorem test_placed_word_runs :
    shows (step ((args [0x2A#8] ref).withFetchWord 24 0x100001)) [0x000, 0x018] = some [0x01#8, 0x63#8] := by
  decide +kernel

/-! ### Concrete cases that meet the hypotheses of the statements

Each is named after its statement; where a statement has clauses, there is a case for each, at the ends of the ranges. -/

/-- Every instruction row has a well-formed instruction; the two with a check, at the ends of their ranges. -/
theorem witness_DecodeInvertsEncode :
    Instr.nop.wf = true ∧ (Instr.illegal 0x08#8).wf = true ∧ (Instr.illegal 0xFF#8).wf = true ∧
      (Instr.hostRd 0xFFF#12 0xFF#8).wf = true ∧ (Instr.hostWr 0x001#12 0xFF#8).wf = true ∧
      (Instr.hostWr 0xFFF#12 0x00#8).wf = true := by decide

/-- Both sides of the equivalence, true and false. -/
theorem witness_UnassignedOpcodesDecodeToIllegal :
    decode (commandWord 0x08#8) = .illegal 0x08#8 ∧ decode (commandWord 0x0F#8) = .illegal 0x0F#8 ∧
      decode (commandWord 0x11#8) = .illegal 0x11#8 ∧ decode (commandWord 0x07#8) = .crc ∧
      decode (commandWord 0x10#8) = .pktProc := by decide

theorem witness_StepRunsTheDecodedTransaction :
    let s : State := { ref with port := [.bus 0x100000#21, .assertReset] }
    let b : State := { running 0x01#8 3 ref with port := [.bus 0x100000#21] }
    (s.port = .bus 0x100000#21 :: [.assertReset] ∧ s.rstPin = false ∧ s.busy = false) ∧
      (b.port = .bus 0x100000#21 :: [] ∧ b.rstPin = false ∧ b.busy = true) := by decide

theorem witness_PlacedTransactionRunsNext : ref.busy = false ∧ 0x1FFFFF < 2 ^ 21 := by decide

theorem witness_NoStepChangesTheConfiguration : step ref = .next ref := rfl

/-- A reset while IDLE, and one that abandons SYM_ENC, which would have written RES0; a transaction follows. -/
theorem witness_AssertingResetAtAnyTime :
    let s : State := { ref with port := [.assertReset, .bus 0x100000#21] }
    let b : State := { running 0x01#8 3 ref with port := [.assertReset, .bus 0x100000#21] }
    (s.port = .assertReset :: [.bus 0x100000#21] ∧ s.busy = false) ∧
      (b.port = .assertReset :: [.bus 0x100000#21] ∧ b.busy = true ∧
        (effectOf b.seqOp b).res = [(0, 0xB4#8)]) := by decide +kernel

theorem pipeInv_cleared : PipeInv PipeRegs.cleared := by
  constructor <;> decide

/-- The invariant at an idle state. -/
theorem inv_idle : Inv ref := by
  constructor <;> first | exact pipeInv_cleared | decide

/-- The invariant at a busy state. -/
theorem inv_busy : Inv (running 0x01#8 3 ref) := by
  constructor <;> first | exact pipeInv_cleared | decide

theorem witness_EveryStepKeepsTheInvariant :
    (Inv ref ∧ step ref = .next ref) ∧
      (Inv (running 0x01#8 3 ref) ∧ step (running 0x01#8 3 ref) = .next (running 0x01#8 2 ref)) :=
  ⟨⟨inv_idle, rfl⟩, inv_busy, rfl⟩

theorem witness_IdleReadReturnsTheMappedByte : ref.busy = false := by decide

theorem witness_BusyReads :
    (running 0x01#8 3 ref).busy = true ∧ (0x003#12).toNat < 4 ∧ 4 ≤ (0x004#12).toNat ∧ Inv (running 0x01#8 3 ref) :=
  ⟨by decide, by decide, by decide, inv_busy⟩

theorem witness_ReservedAddressesReadZeroAndIgnoreWrites :
    ref.busy = false ∧ isReservedAddr (0x044#12).toNat ∧ isReservedAddr (0x0FF#12).toNat ∧
      isReservedAddr (0x700#12).toNat ∧ isReservedAddr (0xFFF#12).toNat := by
  unfold isReservedAddr; decide

/-- One address for each clause of the value stored, at the ends of the ranges: stored bytes, and addresses that ignore
the write. -/
theorem witness_IdleHostWrite :
    ref.busy = false ∧
      [(0x001, 0x0E), (0x003, 0xFF), (0x007, 0xFE), (0x005, 0x10), (0x006, 0x11), (0x004, 0xFF), (0x008, 0xA5), (0x017, 0xA5),
        (0x100, 0xA5), (0x1FF, 0xA5), (0x300, 0xA5), (0x5FF, 0xA5), (0x002, 0xA5), (0x018, 0xA5), (0x043, 0xA5),
        (0x0FF, 0xA5)].map
        (fun c : Nat × Nat =>
          shows (exec (.hostWr (BitVec.ofNat 12 c.1) (BitVec.ofNat 8 c.2)) { ref with status := 0x0E#8 }) [c.1]) =
      [0x00, 0x01, 0x00, 0x10, 0x10, 0xFF, 0xA5, 0xA5, 0xA5, 0xA5, 0xA5, 0xA5, 0x00, 0x00, 0x00, 0x00].map
        (fun v : Nat => some [BitVec.ofNat 8 v]) := by decide +kernel

/-- One address for each clause: STATUS, CTRL, and writes dropped. -/
theorem witness_BusyHostWrite :
    (running 0x01#8 3 ref).busy = true ∧
      [0x001, 0x003, 0x000, 0x002, 0xFFF].map
        (fun a : Nat => shows (exec (.hostWr (BitVec.ofNat 12 a) 0x0F#8) (running 0x01#8 3 ref)) [0x001, 0x003]) =
      [some [0x01#8, 0x00#8], some [0x01#8, 0x01#8], some [0x09#8, 0x00#8], some [0x09#8, 0x00#8],
        some [0x09#8, 0x00#8]] := by decide +kernel

theorem witness_CommandWhileBusyIsDropped : (running 0x01#8 3 ref).busy = true := by decide

theorem witness_RunningCommandSeesFixedInputs : (running 0x10#8 0 (packet pp1 0x02#8)).busy = true := by decide +kernel

theorem witness_CompletionComesBeforeTheTransaction :
    let s : State := { running 0x01#8 0 ref with port := [.bus (busWord true 0x001#12 0x02#8)] }
    s.busy = true ∧ s.left = 0 ∧ s.rstPin = false ∧ s.port = .bus (busWord true 0x001#12 0x02#8) :: [] ∧
      (0x02#8).getLsbD 1 = true := by decide

theorem witness_SlowCommandEndsAsThePromptOne :
    let s := ref.withLatency (.fixed 1)
    s.busy = false ∧ s.port = [] ∧ s.nextLatency 0x01#8 = 0 + 1 := by decide

/-- One transaction while the command runs, and one in the step that completes it. -/
theorem witness_SlowCommandCompletesUnderTraffic :
    let s : State := { ref.withLatency (.fixed 2) with port := [.bus 0x000100#21, .bus 0x000200#21] }
    s.busy = false ∧ s.rstPin = false ∧ s.nextLatency 0x01#8 = 1 + 1 ∧ [0x000100#21].length = 1 ∧
      s.port = [0x000100#21].map PortEvent.bus ++ [.bus 0x000200#21] := by decide

/-- A prompt command with IRQ_EN = 1, the two acknowledging bytes, a command that stays BUSY, and one that completes in
the next step with IRQ_EN = 1, the port quiet or a read standing at it. -/
theorem witness_CompletionInterrupt :
    let s : State := { ref with ctrl := 0x01#8 }
    let u := ref.withLatency (.fixed 1)
    let v : State := { running 0x01#8 0 ref with ctrl := 0x01#8 }
    let r : State := { v with port := [.bus (busWord false 0x001#12 0x00#8)] }
    (Prompt 0x01#8 s ∧ s.irqEn = true) ∧ (({ ref with status := 0x02#8 } : State).done = true ∧ (0x01#8).getLsbD 0 = true) ∧
      (0x02#8).getLsbD 1 = true ∧ (0x00#8).getLsbD 0 = false ∧
      (u.busy = false ∧ u.nextLatency 0x01#8 ≠ 0) ∧
      (v.busy = true ∧ v.left = 0 ∧ v.rstPin = false ∧ v.irqEn = true ∧ v.port = []) ∧
      (r.busy = true ∧ r.left = 0 ∧ r.rstPin = false ∧ r.irqEn = true ∧
        r.port = .bus (busWord false 0x001#12 0x00#8) :: []) := by decide

theorem witness_NopCompletesWithNoEffect : Prompt 0x00#8 ref := by decide

theorem witness_IllegalOpcodeIsReported :
    Prompt 0x08#8 ref ∧ Prompt 0xFF#8 ref ∧ (Instr.illegal 0x08#8).wf = true ∧ (Instr.illegal 0x0F#8).wf = true ∧
      (Instr.illegal 0x11#8).wf = true ∧ (Instr.illegal 0xFF#8).wf = true := by decide

/-- The last raw value, and the first byte that is none. -/
theorem witness_SymEncCommand :
    (Prompt 0x01#8 (args [0x3F#8] ref) ∧ (args [0x3F#8] ref).arg[0].toNat = (0x3F#6).toNat) ∧
      (Prompt 0x01#8 (args [0x40#8] ref) ∧ 64 ≤ (args [0x40#8] ref).arg[0].toNat) := by decide +kernel

/-- A symbol, and a byte that is none. -/
theorem witness_SymDecCommand :
    (Prompt 0x02#8 (args [0xA2#8] ref) ∧ (args [0xA2#8] ref).arg[0] = ref.symTable[(0x3F#6).toNat]) ∧
      (Prompt 0x02#8 (args [0x00#8] ref) ∧ ∀ r : Raw6, ref.symTable[r.toNat] ≠ (args [0x00#8] ref).arg[0]) := by
  decide +kernel

/-- One argument for each branch, at the ends of the ranges: widths 0, 1, 48 and 49; a last symbol at index 255 and at
256; x at 2^w - 1 and 2^w. -/
theorem witness_FldEncCommand :
    [[0x00#8], [0x01#8, 0x01#8], [0x30#8, 0xFF#8, 0xFF#8, 0xFF#8, 0xFF#8, 0xFF#8, 0xFF#8, 0xF8#8], [0x31#8],
      [0x30#8, 0x00#8, 0x00#8, 0x00#8, 0x00#8, 0x00#8, 0x00#8, 0xF9#8], [0x01#8, 0x02#8]].map
        (fun l => (decide (Prompt 0x03#8 (args l ref)), shows (exec .fldEnc (args l ref)) [0x002])) =
      [(true, some [0x02#8]), (true, some [0x00#8]), (true, some [0x00#8]), (true, some [0x02#8]),
        (true, some [0x02#8]), (true, some [0x03#8])] := by decide +kernel

/-- The three clauses past the argument checks: an invalid symbol, a pad bit that is 1, a value. -/
theorem witness_FldDecCommand :
    let s := args [0x01#8] ref
    Prompt 0x04#8 s ∧
      FirstInvalid s.symTable (State.bufBytes (load 0x300 [0x00#8] s) dataBufBase 0 1) 0 ∧
      (SymbolsOf s.symTable (State.bufBytes (load 0x300 [0xB3#8] s) dataBufBase 0 1) [0x02#6] ∧
        2 ^ 1 ≤ groupValue [0x02#6]) ∧
      FieldReads s.symTable 1 (State.bufBytes (load 0x300 [0xBC#8] s) dataBufBase 0 1) 1 := by
  refine ⟨by decide +kernel, ⟨⟨0x00#8, by decide +kernel, by decide +kernel⟩, by simp⟩,
    ⟨by unfold SymbolsOf; decide +kernel, by decide⟩, ⟨[0x01#6], by unfold SymbolsOf; decide +kernel, by decide, by decide⟩⟩

/-- FLD_DEC's argument checks: widths 0 and 49, a last symbol at index 256. -/
theorem witness_FldDecCommand_checks :
    [[0x00#8], [0x31#8], [0x30#8, 0x00#8, 0x00#8, 0x00#8, 0x00#8, 0x00#8, 0x00#8, 0xF9#8]].map
        (fun l => (decide (Prompt 0x04#8 (args l ref)), shows (exec .fldDec (args l ref)) [0x002])) =
      [(true, some [0x02#8]), (true, some [0x02#8]), (true, some [0x02#8])] := by decide +kernel

/-- Counts 0, 190 and 192 fail; so do a source and a destination that end at index 256; 3 bytes at 253 to 252 go
through. -/
theorem witness_StrEncCommand :
    [[0x00#8], [0xBE#8], [0xC0#8], [0x03#8, 0xFE#8], [0x03#8, 0xFD#8, 0xFD#8], [0x03#8, 0xFD#8, 0xFC#8]].map
        (fun l => (decide (Prompt 0x05#8 (args l ref)),
          shows (exec .strEnc (load 0x3FD [0x00#8, 0x00#8, 0x00#8] (args l ref))) [0x002])) =
      [(true, some [0x02#8]), (true, some [0x02#8]), (true, some [0x02#8]), (true, some [0x02#8]), (true, some [0x02#8]),
        (true, some [0x00#8])] := by decide +kernel

/-- The two clauses past the argument checks, at the end of both buffers: an invalid symbol, a string. -/
theorem witness_StrDecCommand :
    let s := args [0x04#8, 0xFC#8, 0xFD#8] ref
    Prompt 0x06#8 s ∧
      FirstInvalid s.symTable (State.bufBytes (load 0x3FC [0xB4#8, 0x00#8, 0xB4#8, 0xB4#8] s) dataBufBase 252 4) 1 ∧
      StringReads s.symTable (State.bufBytes (load 0x3FC [0xB4#8, 0x34#8, 0xC4#8, 0xBA#8] s) dataBufBase 252 4)
        [0x01#8, 0x02#8, 0x03#8] := by
  refine ⟨by decide +kernel, ⟨⟨0x00#8, by decide +kernel, by decide +kernel⟩, fun i hi => ?_⟩,
    ⟨[0x00#6, 0x10#6, 0x08#6, 0x03#6], by unfold SymbolsOf; decide +kernel, by decide⟩⟩
  obtain rfl : i = 0 := by omega
  exact ⟨0xB4#8, by decide +kernel, 0x00#6, by decide +kernel⟩

/-- STR_DEC's argument checks: counts 0, 6 and 255, a source and a destination that end at index 256. -/
theorem witness_StrDecCommand_checks :
    [[0x00#8], [0x06#8], [0xFF#8], [0x04#8, 0xFD#8], [0x04#8, 0x00#8, 0xFE#8]].map
        (fun l => (decide (Prompt 0x06#8 (args l ref)), shows (exec .strDec (args l ref)) [0x002])) =
      [(true, some [0x02#8]), (true, some [0x02#8]), (true, some [0x02#8]), (true, some [0x02#8]),
        (true, some [0x02#8])] := by decide +kernel

theorem witness_SymbolRoundTrip : dec8 Config.ref.params.symTable 0xA2#8 = some 0x3F#6 := by decide +kernel

theorem witness_FieldRoundTrip : (1 ≤ 1 ∧ 1 < 2 ^ 1) ∧ (48 ≤ 48 ∧ 2 ^ 48 - 1 < 2 ^ 48) := by decide

theorem witness_StringRoundTrip : ([] : List Byte).length % 3 = 0 ∧ [0x01#8, 0x02#8, 0x03#8].length % 3 = 0 := by decide

/-- One argument for each branch: a reserved mode bit, buffer 4, a range that ends at index 256, and each buffer with an
empty range at its last index. -/
theorem witness_CrcCommand :
    [[0x5A#8, 0x02#8], [0x5A#8, 0x00#8, 0x04#8], [0x5A#8, 0x00#8, 0x00#8, 0xFF#8, 0x02#8],
      [0x5A#8, 0x00#8, 0x00#8, 0xFF#8], [0x5A#8, 0x01#8, 0x01#8, 0xFF#8], [0x5A#8, 0x00#8, 0x02#8, 0xFF#8],
      [0x5A#8, 0x01#8, 0x03#8, 0xFF#8]].map
        (fun l => (decide (Prompt 0x07#8 (args l ref)), shows (exec .crc (args l ref)) [0x002, 0x018])) =
      [(true, some [0x02#8, 0x00#8]), (true, some [0x02#8, 0x00#8]), (true, some [0x02#8, 0x00#8]),
        (true, some [0x00#8, 0x5A#8]), (true, some [0x00#8, 0x5A#8]), (true, some [0x00#8, 0x5A#8]),
        (true, some [0x00#8, 0x5A#8])] := by decide +kernel

theorem witness_CrcCatchesEverySingleBitFlip : 0x07#8 ≠ 0x00#8 ∧ 7 < 8 := by decide

/-- The three aborts: an empty packet, an odd digit count, a packet one byte shorter than a header. -/
theorem witness_PktProcAborts :
    (Prompt 0x10#8 ref ∧ ref.pktLen = 0x00#8) ∧
      (Prompt 0x10#8 { ref with pktLen := 0x01#8, inFlags := 0x00#8 } ∧ (0x01#8 : Byte) ≠ 0x00#8 ∧ (0x00#8).getLsbD 0 = false) ∧
      (Prompt 0x10#8 { ref with pktLen := 0x0F#8 } ∧ (0x01#8).getLsbD 0 = true ∧
        (0x0F#8).toNat < ({ ref with pktLen := 0x0F#8 } : State).params.hdrEncLen) := by decide +kernel

/-- The shortest packet admitted. -/
theorem witness_PktProcWritesOnlyItsResults :
    Prompt 0x10#8 (packet (pp1.take 16) 0x02#8) ∧ PacketAdmitted (packet (pp1.take 16) 0x02#8) := by
  unfold PacketAdmitted; decide +kernel

/-- V-PP1 is admitted, with room for each key ring. -/
theorem packet_admitted (n : Byte) : PacketAdmitted (packet pp1 n) := by
  refine ⟨?_, ?_, ?_⟩
  · show BitVec.ofNat 8 pp1.length ≠ 0x00#8
    decide
  · show (0x01#8 : Byte).getLsbD 0 = true
    decide
  · show Params.ref.hdrEncLen ≤ (BitVec.ofNat 8 pp1.length).toNat
    decide +kernel

/-- A header field that decodes (RPTR 000) and one that does not (SRC with byte 12 = 00, V-PP3). -/
theorem witness_PktProcDecodesTheHeader :
    (Prompt 0x10#8 (packet pp1 0x02#8) ∧ PacketAdmitted (packet pp1 0x02#8) ∧ HeaderReads (packet pp1 0x02#8) .dst 2) ∧
      (PacketAdmitted (packet (pp1.set 12 0x00#8) 0x02#8) ∧
        ∀ x, ¬ HeaderReads (packet (pp1.set 12 0x00#8) 0x02#8) .src x) :=
  ⟨⟨by decide +kernel, packet_admitted _, (State.hdrValue_eq_some_iff _ _ _).1 (by decide +kernel)⟩,
    ⟨by decide, by decide, by decide +kernel⟩, (State.hdrValue_eq_none_iff _ _).1 (by decide +kernel)⟩

/-- HCRC E4 of V-PP1 is the checksum, HCRC 00 of V-PP2 is not. -/
theorem witness_PktProcChecksTheHeader :
    (Prompt 0x10#8 (packet pp1 0x02#8) ∧ PacketAdmitted (packet pp1 0x02#8) ∧
        HeaderReads (packet pp1 0x02#8) .hcrc (packet pp1 0x02#8).hdrCrc.toNat) ∧
      (PacketAdmitted (packet ((pp1.set 2 0xB4#8).set 3 0xB4#8) 0x02#8) ∧
        shows (exec .pktProc (packet ((pp1.set 2 0xB4#8).set 3 0xB4#8) 0x02#8)) [0x020, 0x021, 0x022] =
          some [0x3B#8, 0x00#8, 0x02#8]) :=
  ⟨⟨by decide +kernel, packet_admitted _, (State.hdrValue_eq_some_iff _ _ _).1 (by decide +kernel)⟩,
    ⟨by decide, by decide, by decide +kernel⟩, by decide +kernel⟩

/-- V-PP1 with kind SINGLE_DATA, V-PP4 with a PID that has no kind, and a PID that does not decode. -/
theorem witness_PktProcClassifiesByPid :
    PidIs (packet pp1 0x02#8) 0 .singleData ∧
      (HeaderReads (packet (pp1.set 15 0x54#8) 0x02#8) .pid 32 ∧
        (packet (pp1.set 15 0x54#8) 0x02#8).params.pidMap[32 % 64] = none) ∧
      ∀ x, ¬ HeaderReads (packet (pp1.set 15 0x00#8) 0x02#8) .pid x :=
  ⟨⟨packet_admitted _, (State.hdrValue_eq_some_iff _ _ _).1 (by decide +kernel), by decide +kernel⟩,
    ⟨(State.hdrValue_eq_some_iff _ _ _).1 (by decide +kernel), by decide +kernel⟩,
    (State.hdrValue_eq_none_iff _ _).1 (by decide +kernel)⟩

/-- V-PP1 is classified, with any count of keys. -/
theorem pp1_classified (n : Byte) : Classified (packet pp1 n) 0 .singleData := by
  have h : Classified (packet pp1 0x00#8) 0 .singleData :=
    ⟨⟨packet_admitted _, (State.hdrValue_eq_some_iff _ _ _).1 (by decide +kernel), by decide +kernel⟩, by decide +kernel⟩
  exact h

/-- V-PP1 is classified; V-PP5, one byte short, is not. -/
theorem witness_PktProcChecksTheLength :
    (Prompt 0x10#8 (packet pp1 0x02#8) ∧ PidIs (packet pp1 0x02#8) 0 .singleData ∧ Classified (packet pp1 0x02#8) 0 .singleData) ∧
      (PidIs (packet (pp1.take 27) 0x02#8) 0 .singleData ∧ ¬ Classified (packet (pp1.take 27) 0x02#8) 0 .singleData) :=
  ⟨⟨by decide +kernel, (pp1_classified _).1, pp1_classified _⟩,
    ⟨⟨by decide, by decide, by decide +kernel⟩, (State.hdrValue_eq_some_iff _ _ _).1 (by decide +kernel), by decide +kernel⟩,
    fun h => absurd h.2 (by decide +kernel)⟩

/-- A multi-hop packet is classified, whatever its hop symbol. -/
theorem pp8_classified :
    Classified (packet (pp8 0x3A#8) 0x02#8) 64 .singleData ∧ Classified (packet (pp8 0x00#8) 0x02#8) 64 .singleData :=
  ⟨⟨⟨⟨by decide, by decide, by decide +kernel⟩, (State.hdrValue_eq_some_iff _ _ _).1 (by decide +kernel),
      by decide +kernel⟩, by decide +kernel⟩,
    ⟨⟨by decide, by decide, by decide +kernel⟩, (State.hdrValue_eq_some_iff _ _ _).1 (by decide +kernel),
      by decide +kernel⟩, by decide +kernel⟩

/-- No hop field (V-PP1); a hop field that decodes (V-PP8, symbol 3A, raw 19); one that does not. -/
theorem witness_PktProcReadsTheHopField :
    (Prompt 0x10#8 (packet pp1 0x02#8) ∧ Classified (packet pp1 0x02#8) 0 .singleData ∧
        pidMh (packet pp1 0x02#8) 0 = false) ∧
      (Classified (packet (pp8 0x3A#8) 0x02#8) 64 .singleData ∧ pidMh (packet (pp8 0x3A#8) 0x02#8) 64 = true ∧
        FieldReads ref.symTable 6 [0x3A#8] 0x13) ∧
      (Classified (packet (pp8 0x00#8) 0x02#8) 64 .singleData ∧ ∀ h, ¬ FieldReads ref.symTable 6 [0x00#8] h) := by
  refine ⟨⟨by decide +kernel, pp1_classified _, by decide +kernel⟩,
    ⟨pp8_classified.1, by decide +kernel, [0x13#6], by unfold SymbolsOf; decide +kernel, by decide, by decide⟩,
    pp8_classified.2, fun h hr => ?_⟩
  rw [← fieldDecode_ok_iff ref.symTable_injective] at hr
  have e : fieldDecode ref.symTable 6 [0x00#8] = .error (.invalidSymbol 0) := by decide +kernel
  rw [e] at hr
  cases hr

/-- The bytes of V-PP1's payload. -/
def pp1Payload : List Byte := [0xC7#8, 0x24#8, 0x22#8, 0x32#8, 0x06#8, 0x16#8, 0x62#8, 0x72#8, 0x00#8]

theorem pp1_payload (n : Byte) :
    StringReads (packet pp1 n).symTable (payloadSyms (packet pp1 n) .singleData) pp1Payload := by
  have h : StringReads (packet pp1 0x00#8).symTable (payloadSyms (packet pp1 0x00#8) .singleData) pp1Payload :=
    ⟨[0x31#6, 0x32#6, 0x10#6, 0x22#6, 0x0C#6, 0x20#6, 0x18#6, 0x16#6, 0x18#6, 0x27#6, 0x08#6, 0x00#6],
      by unfold SymbolsOf; decide +kernel, by decide⟩
  exact h

/-- V-PP1's payload decodes; with an invalid symbol it does not. -/
theorem witness_PktProcDecodesThePayload :
    (Prompt 0x10#8 (packet pp1 0x02#8) ∧ Classified (packet pp1 0x02#8) 0 .singleData ∧
        StringReads (packet pp1 0x02#8).symTable (payloadSyms (packet pp1 0x02#8) .singleData) pp1Payload) ∧
      (Classified (packet (pp1.set 20 0xFF#8) 0x02#8) 0 .singleData ∧
        ∀ d, ¬ StringReads ref.symTable (payloadSyms (packet (pp1.set 20 0xFF#8) 0x02#8) .singleData) d) := by
  refine ⟨⟨by decide +kernel, pp1_classified _, pp1_payload _⟩,
    ⟨⟨⟨by decide, by decide, by decide +kernel⟩, (State.hdrValue_eq_some_iff _ _ _).1 (by decide +kernel), by decide +kernel⟩,
      by decide +kernel⟩, fun d hd => ?_⟩
  rw [← stringDecode_ok_iff ref.symTable_injective (by decide +kernel)] at hd
  have e : stringDecode ref.symTable (payloadSyms (packet (pp1.set 20 0xFF#8) 0x02#8) .singleData) = .error 4 := by
    decide +kernel
  rw [e] at hd
  cases hd

/-- Key 1, K_A, is the accepted one of V-PP1. -/
theorem pp1_accepted : Accepted (packet pp1 0x02#8) .singleData pp1Payload 1 := by
  refine ⟨by decide, by unfold KeyMatches; decide +kernel, fun j hj => ?_⟩
  obtain rfl : j = 0 := by omega
  unfold KeyMatches; decide +kernel

theorem witness_PktProcAcceptsTheFirstMatchingKey :
    Prompt 0x10#8 (packet pp1 0x02#8) ∧ Classified (packet pp1 0x02#8) 0 .singleData ∧
      StringReads (packet pp1 0x02#8).symTable (payloadSyms (packet pp1 0x02#8) .singleData) pp1Payload ∧
      Accepted (packet pp1 0x02#8) .singleData pp1Payload 1 :=
  ⟨by decide +kernel, pp1_classified _, pp1_payload _, pp1_accepted⟩

/-- An empty keyring, and the keyring [K_B]. -/
theorem witness_PktProcWithNoMatchingKey :
    (Prompt 0x10#8 (packet pp1 0x00#8) ∧ Classified (packet pp1 0x00#8) 0 .singleData ∧
        StringReads (packet pp1 0x00#8).symTable (payloadSyms (packet pp1 0x00#8) .singleData) pp1Payload ∧
        (packet pp1 0x00#8).ringCount .singleData = 0 ∧ ∀ i, ¬ Accepted (packet pp1 0x00#8) .singleData pp1Payload i) ∧
      (Classified (packet pp1 0x01#8) 0 .singleData ∧
        StringReads (packet pp1 0x01#8).symTable (payloadSyms (packet pp1 0x01#8) .singleData) pp1Payload ∧
        (packet pp1 0x01#8).ringCount .singleData = 0 + 1 ∧
        ∀ i, ¬ Accepted (packet pp1 0x01#8) .singleData pp1Payload i) := by
  refine ⟨⟨by decide +kernel, pp1_classified _, pp1_payload _, by decide, ?_⟩, pp1_classified _, pp1_payload _, by decide,
    ?_⟩
  · rw [not_accepted_iff]
    exact fun j hj => absurd hj (by simp [State.ringCount, packet, load, kindIsInvite])
  · rw [not_accepted_iff]
    intro j hj
    obtain rfl : j = 0 := by
      have : (packet pp1 0x01#8).ringCount .singleData = 1 := by decide
      omega
    unfold KeyMatches; decide +kernel

/-- V-PP1's message type 00 is application. -/
theorem witness_PktProcDispatchesTheVariant :
    Prompt 0x10#8 (packet pp1 0x02#8) ∧ Classified (packet pp1 0x02#8) 0 .singleData ∧
      StringReads (packet pp1 0x02#8).symTable (payloadSyms (packet pp1 0x02#8) .singleData) pp1Payload ∧
      Accepted (packet pp1 0x02#8) .singleData pp1Payload 1 ∧
      ref.params.msgTypeMap[(byteAt ((packet pp1 0x02#8).plaintext .singleData (cipherRegion ref.params pp1Payload) 1)
        ref.params.msgTypeIdx).toNat] = some .app :=
  ⟨by decide +kernel, pp1_classified _, pp1_payload _, pp1_accepted, by decide +kernel⟩

/-- Another legal configuration: REF with payloads of eight symbols for every kind. -/
def short : Config := ⟨{ Params.ref with pldEncLen := Vector.replicate 16 8 }, by decide +kernel, .fixed 0⟩

/-- A plaintext: its checksum, message identifier 05, then `mt`, then 06 and 07. -/
def madePlain (mt : Byte) : List Byte :=
  crc8 0x07#8 0x00#8 .forward [0x05#8, mt, 0x06#8, 0x07#8] :: [0x05#8, mt, 0x06#8, 0x07#8]

/-- Its payload, encrypted by TOY under K_B, with a trailer of 00. -/
def madePayload (k : Kind) (mt : Byte) : List Byte :=
  cipherDec .toy (keysBA.take 16) (roundsOf short.params k) (madePlain mt) ++ [0x00#8]

/-- A packet of kind `k` with that payload, K_B in slot 0 of both keyrings. -/
def made (k : Kind) (mt : Byte) : State :=
  { load 0x500 (keysBA.take 16)
      (packet (List.replicate 15 0xB4#8 ++ [enc6 refSymTable (BitVec.ofNat 6 k.index.val)] ++
        stringEncode refSymTable (madePayload k mt)) 0x01#8) with cfg := short, invKeyCount := 0x01#8 }

/-- Every message class and none, and a kind of every other variant. -/
def madeCases : List (Kind × Byte) :=
  [(.singleData, 0x00#8), (.singleData, 0x01#8), (.singleData, 0x02#8), (.singleData, 0x03#8), (.singleData, 0x04#8),
    (.route, 0x00#8), (.invite, 0x00#8), (.block, 0x00#8), (.streamTerm, 0x00#8), (.singleAck, 0x00#8),
    (.streamNack, 0x00#8)]

theorem made_checks : ∀ c ∈ madeCases,
    (made c.1 c.2).hdrValue .pid = some c.1.index.val ∧ short.params.pidMap[c.1.index.val % 64]? = some (some c.1) ∧
      (made c.1 c.2).pktLen.toNat = 16 + short.params.payloadSymbols c.1 ∧
      stringDecode refSymTable (payloadSyms (made c.1 c.2) c.1) = .ok (madePayload c.1 c.2) ∧
      (made c.1 c.2).ringCount c.1 = 1 ∧
      payloadCrc short.params ((made c.1 c.2).plaintext c.1 (cipherRegion short.params (madePayload c.1 c.2)) 0) =
        byteAt ((made c.1 c.2).plaintext c.1 (cipherRegion short.params (madePayload c.1 c.2)) 0) short.params.pldCrcIdx := by
  decide +kernel

/-- The hypotheses hold for a packet of every message class and of a kind of every variant. -/
theorem witness_PktProcDispatchesTheVariant_clauses : ∀ c ∈ madeCases,
    Prompt 0x10#8 (made c.1 c.2) ∧ Classified (made c.1 c.2) c.1.index.val c.1 ∧
      StringReads (made c.1 c.2).symTable (payloadSyms (made c.1 c.2) c.1) (madePayload c.1 c.2) ∧
      Accepted (made c.1 c.2) c.1 (madePayload c.1 c.2) 0 := by
  intro c hc
  obtain ⟨h1, h2, h3, h4, h5, h6⟩ := made_checks c hc
  have hi : c.1.index.val < 16 := c.1.index.isLt
  have hmh : pidMh (made c.1 c.2) c.1.index.val = false := by
    have k : ∀ n < 16, n.testBit short.params.pidMhBit = false := by decide
    exact k _ hi
  have hp : 4 ≤ short.params.payloadSymbols c.1 := (Config.payload_constraints short c.1).2.1
  have hl : (payloadSyms (made c.1 c.2) c.1).length % 4 = 0 := by
    rw [payloadSyms_length]
    exact (Config.payload_constraints short c.1).1
  refine ⟨⟨(by decide : (0x00#8 : Byte).getLsbD 0 = false), rfl⟩, ⟨⟨⟨?_, (by decide : (0x01#8 : Byte).getLsbD 0 = true), ?_⟩, (State.hdrValue_eq_some_iff _ _ _).1 h1, ?_⟩, ?_⟩, ?_, ?_, h6, by omega⟩
  · intro h
    rw [h] at h3
    simp at h3
    omega
  · show short.params.hdrEncLen ≤ _
    rw [h3]
    exact Nat.le_add_right 16 _
  · rw [Vector.getElem?_eq_getElem (by omega)] at h2
    exact Option.some.inj h2
  · rw [h3, hmh]
    rfl
  · exact (stringDecode_ok_iff (State.symTable_injective _) hl).1 h4
  · rw [h5]
    exact Nat.one_pos

theorem witness_PktProcOverallValidity :
    (Prompt 0x10#8 (packet pp1 0x02#8) ∧ PacketAdmitted (packet pp1 0x02#8)) ∧ (Prompt 0x10#8 ref ∧ ¬ PacketAdmitted ref) :=
  ⟨⟨by decide +kernel, packet_admitted _⟩, by decide, fun h => absurd rfl h.1⟩

theorem witness_NoFailReasonMeansAFullyValidPacket : Prompt 0x10#8 (packet pp1 0x02#8) := by decide +kernel

theorem witness_PktProcTwiceIsPktProcOnce :
    Prompt 0x10#8 (packet pp1 0x02#8) ∧
      Prompt 0x10#8 (after (exec .pktProc (packet pp1 0x02#8)) (packet pp1 0x02#8)) := by decide +kernel

/-- A write to ARG15, also in the step that completes a command. -/
theorem witness_OnlyHostWritesChangeArg :
    (∃ t, exec (.hostWr 0x017#12 0xA5#8) ref = .next t ∧ t.arg[15] ≠ ref.arg[15]) ∧
      let s : State := { running 0x00#8 0 ref with port := [.bus (busWord true 0x017#12 0xA5#8)] }
      ∃ t, step s = .next t ∧ ¬ ResetInStep s ∧ t.arg[15] ≠ s.arg[15] :=
  ⟨⟨_, rfl, by decide +kernel⟩, _, rfl, by simp [ResetInStep], by decide +kernel⟩

/-- PKT_PROC changes the pipeline results, SYM_ENC changes RES0; and so does a running command that completes. -/
theorem witness_OnlyCommandsChangeResults :
    ((∃ t, Instr.pktProc.wf = true ∧ exec .pktProc ref = .next t ∧ t.pipe ≠ ref.pipe) ∧
      (∃ t, Instr.symEnc.wf = true ∧ exec .symEnc ref = .next t ∧ t.res ≠ ref.res)) ∧
      (∃ t, step (running 0x10#8 0 ref) = .next t ∧ ¬ ResetInStep (running 0x10#8 0 ref) ∧
        t.pipe ≠ (running 0x10#8 0 ref).pipe) ∧
      (∃ t, step (running 0x01#8 0 ref) = .next t ∧ ¬ ResetInStep (running 0x01#8 0 ref) ∧
        t.res ≠ (running 0x01#8 0 ref).res) :=
  ⟨⟨⟨_, rfl, rfl, by decide +kernel⟩, ⟨_, rfl, rfl, by decide +kernel⟩⟩,
    ⟨_, rfl, by simp [ResetInStep, running, ref, State.resetOf], by decide +kernel⟩,
    ⟨_, rfl, by simp [ResetInStep, running, ref, State.resetOf], by decide +kernel⟩⟩

/-- A command that completes at once, and one that completes with nothing at the pins. -/
theorem witness_CommandsNeverWriteTheirInputs :
    (∃ t, exec (decode (commandWord 0x10#8)) ref = .next t) ∧
      (∃ t, step (running 0x10#8 0 ref) = .next t) ∧ ¬ ResetInStep (running 0x10#8 0 ref) ∧
      ∀ a d, ¬ HostWriteInStep (running 0x10#8 0 ref) a d :=
  ⟨⟨_, rfl⟩, ⟨_, rfl⟩, by simp [ResetInStep, running, ref, State.resetOf],
    by simp [HostWriteInStep, running, ref, State.resetOf]⟩

end Sys2Proof.Tests
end

/-! ARG and the results (10_state.md R62): which operation of the machine may change the ARG registers, the RES
registers and the pipeline result registers. -/

namespace Sys2Proof

/-! ### Instructions are commands or plain transactions -/

/-- A read, or a write to an address other than CMD: a transaction that starts no command (30_encoding.md R98). -/
def Instr.Plain : Instr → Prop
  | .hostRd _ _ => True
  | .hostWr a _ => a ≠ 0x000#12
  | _ => False

/-- The opcode map sends an unassigned opcode to ILLEGAL (30_encoding.md R101). -/
theorem decodeCommand_of_unassigned {op : Byte} (h : opcodeAssigned op = false) : decodeCommand op = .illegal op := by
  simp only [opcodeAssigned, Bool.or_eq_false_iff, decide_eq_false_iff_not, not_lt] at h
  unfold decodeCommand
  split
  case h_10 => rfl
  all_goals omega

/-- The codec and checksum opcodes 0x01 to 0x07 and their instructions (30_encoding.md R100). -/
theorem decodeCommand_codec_or_crc {op : Byte} (hlo : 0x01 ≤ op.toNat) (hhi : op.toNat ≤ 0x07) :
    decodeCommand op = .symEnc ∨ decodeCommand op = .symDec ∨ decodeCommand op = .fldEnc ∨
      decodeCommand op = .fldDec ∨ decodeCommand op = .strEnc ∨ decodeCommand op = .strDec ∨
      decodeCommand op = .crc := by
  have h : op.toNat = 0x01 ∨ op.toNat = 0x02 ∨ op.toNat = 0x03 ∨ op.toNat = 0x04 ∨ op.toNat = 0x05 ∨
      op.toNat = 0x06 ∨ op.toNat = 0x07 := by omega
  rcases h with h | h | h | h | h | h | h <;> simp [decodeCommand, h]

/-- A well-formed instruction is the reading of some opcode, or starts no command. -/
theorem Instr.command_or_plain {i : Instr} (h : i.wf = true) : (∃ op, i = decodeCommand op) ∨ i.Plain := by
  cases i with
  | nop => exact .inl ⟨0x00#8, rfl⟩
  | symEnc => exact .inl ⟨0x01#8, rfl⟩
  | symDec => exact .inl ⟨0x02#8, rfl⟩
  | fldEnc => exact .inl ⟨0x03#8, rfl⟩
  | fldDec => exact .inl ⟨0x04#8, rfl⟩
  | strEnc => exact .inl ⟨0x05#8, rfl⟩
  | strDec => exact .inl ⟨0x06#8, rfl⟩
  | crc => exact .inl ⟨0x07#8, rfl⟩
  | pktProc => exact .inl ⟨0x10#8, rfl⟩
  | illegal op => exact .inl ⟨op, (decodeCommand_of_unassigned (by simpa [Instr.wf] using h)).symm⟩
  | hostRd a d => exact .inr trivial
  | hostWr a d => exact .inr (by simpa [Instr.wf, Instr.Plain] using h)

/-- A BUS word is put together from its three fields (30_encoding.md R96). -/
theorem busWord_fields (w : BusWord) : busWord (busIsWrite w) (busAddr w) (busData w) = w := by
  apply BitVec.eq_of_getLsbD_eq
  intro i hi
  simp only [busWord, busIsWrite, busAddr, busData, BitVec.getLsbD_append, BitVec.getLsbD_extractLsb',
    BitVec.getLsbD_ofBool]
  by_cases h8 : i < 8
  · simp [h8]
  · by_cases h20 : i < 20
    · simp [h8, show i - 8 < 12 by omega, show 8 + (i - 8) = i by omega]
    · simp [show i = 20 by omega]

/-- A word is a write to CMD, or starts no command. -/
theorem decode_command_or_plain (w : BusWord) : (∃ op, w = commandWord op) ∨ (decode w).Plain := by
  unfold decode
  split
  case isTrue hw =>
    split
    case isTrue ha =>
      refine .inl ⟨busData w, ?_⟩
      rw [commandWord, ← ha, ← hw, busWord_fields]
    case isFalse ha => exact .inr ha
  case isFalse => exact .inr trivial

namespace Machine

/-! ### The ARG registers -/

@[simp] theorem State.hostCommand_arg (s : State) (op : Byte) : (s.hostCommand op).arg = s.arg := by
  rcases s.hostCommand_cases op with ⟨-, e⟩ | ⟨-, -, e⟩ | ⟨n, -, -, e⟩ <;> simp [e]

@[simp] theorem State.busyWrite_arg (s : State) (a : BusAddr) (d : Byte) : (s.busyWrite a d).arg = s.arg := by
  rcases s.busyWrite_cases a d with ⟨-, e⟩ | ⟨-, e⟩ | ⟨-, -, e⟩ <;> simp [e]

@[simp] theorem State.tick_arg (s : State) : s.tick.arg = s.arg := by
  rcases s.tick_cases with ⟨-, e⟩ | ⟨-, -, e⟩ | ⟨n, -, -, e⟩ <;> simp [e]

/-- A sequencer that is IDLE after its part of a step was IDLE before, or its command's time was over. -/
theorem State.tick_busy_eq_false {s : State} (h : s.tick.busy = false) : s.busy = false ∨ s.left = 0 := by
  rcases s.tick_cases with ⟨hb, -⟩ | ⟨-, hl, -⟩ | ⟨n, hb, -, e⟩
  · exact .inl hb
  · exact .inr hl
  · exact .inl ((congrArg State.busy e).symm.trans h)

/-- A write while IDLE changes the ARG register it addresses and no other (43_control.md R241). -/
theorem State.idleWrite_changes_arg {s : State} {a : BusAddr} {d : Byte} {n : Nat} (h : n < 16)
    (hne : (s.idleWrite a d).arg[n] ≠ s.arg[n]) : a.toNat = addrArg0 + n ∧ (s.idleWrite a d).arg[n] = d := by
  rcases s.idleWrite_cases a d with ⟨-, e⟩ | ⟨-, e⟩ | ⟨-, e⟩ | ⟨-, e⟩ | ⟨-, e⟩ | ⟨-, e⟩ | ⟨hlo, -, e⟩ | ⟨-, e⟩ |
    ⟨-, -, e⟩
  case inr.inr.inr.inr.inr.inr.inl =>
    simp only [e, Vector.getElem_setIfInBounds] at hne ⊢
    by_cases ha : a.toNat - 0x008 = n
    · simp only [ha, addrArg0, if_true, and_true]
      omega
    · simp [ha] at hne
  all_goals simp [e] at hne

/-- If a transaction changes an ARG register, it is a write of that register while IDLE (10_state.md R62). -/
theorem exec_changes_arg {s t : State} {i : Instr} {n : Nat} (h : n < 16) (he : exec i s = .next t)
    (hne : t.arg[n] ≠ s.arg[n]) :
    s.busy = false ∧ ∃ a d, i = .hostWr a d ∧ a.toNat = addrArg0 + n ∧ t.arg[n] = d := by
  rcases exec_cases he with ⟨op, rfl⟩ | ⟨a, d, -, hr⟩ | ⟨a, d, -, -, -, rfl⟩ | ⟨a, d, hi, -, hb, rfl⟩
  · simp at hne
  · rcases execHostRd_cases s a d with ⟨-, -, e⟩ | ⟨-, e⟩ <;>
      · cases e.symm.trans hr
        exact absurd rfl hne
  · simp at hne
  · exact ⟨hb, a, d, hi, State.idleWrite_changes_arg h hne⟩

/-- If a step without reset changes an ARG register, it takes a write of that register, in IDLE or right after a
completion (10_state.md R62). -/
theorem step_changes_arg {s t : State} {n : Nat} (h : n < 16) (hs : step s = .next t) (hr : ¬ ResetInStep s)
    (hne : t.arg[n] ≠ s.arg[n]) :
    (s.busy = false ∨ s.left = 0) ∧ ∃ a d, HostWriteInStep s a d ∧ a.toNat = addrArg0 + n ∧ t.arg[n] = d := by
  rcases step_cases hs with ⟨-, rfl⟩ | ⟨w, rest, -, -, rfl⟩ | ⟨w, rest, hp, hpin, he⟩ | ⟨rest, hp, -⟩ | ⟨rest, -, rfl⟩
  · simp at hne
  · exact absurd rfl hne
  · obtain ⟨hb, a, d, hw, ha, hd⟩ := exec_changes_arg h he (by simpa using hne)
    have hidle := State.tick_busy_eq_false hb
    exact ⟨hidle, a, d, ⟨w, rest, hp, hpin, hw⟩, ha, hd⟩
  · exact absurd ⟨rest, hp⟩ hr
  · exact absurd rfl hne

/-- Settles O53: the sequencer and the commands keep ARG, so that a change is the write's own. -/
theorem onlyHostWritesChangeArg : Obligations.OnlyHostWritesChangeArg :=
  ⟨fun _ _ _ _ h he hne => exec_changes_arg h he hne, fun _ _ _ h hs hr hne => step_changes_arg h hs hr hne⟩

/-! ### The results -/

/-- From `s` to `t` the results change only by a command whose opcode meets `P`: the pipeline results by PKT_PROC, RES
by a codec command or CRC (10_state.md R62). -/
structure ResultsChangedBy (P : Byte → Prop) (s t : State) : Prop where
  pipe : t.pipe ≠ s.pipe → P 0x10#8
  res : t.res ≠ s.res → ∃ op : Byte, 0x01 ≤ op.toNat ∧ op.toNat ≤ 0x07 ∧ P op

namespace ResultsChangedBy

variable {P Q : Byte → Prop} {s t u : State}

theorem of_eq (hp : t.pipe = s.pipe) (hr : t.res = s.res) : ResultsChangedBy P s t :=
  ⟨fun h => absurd hp h, fun h => absurd hr h⟩

theorem mono (h : ResultsChangedBy P s t) (hPQ : ∀ op, P op → Q op) : ResultsChangedBy Q s t where
  pipe hne := hPQ _ (h.pipe hne)
  res hne :=
    let ⟨op, hlo, hhi, hop⟩ := h.res hne
    ⟨op, hlo, hhi, hPQ op hop⟩

theorem trans (hst : ResultsChangedBy P s t) (htu : ResultsChangedBy P t u) : ResultsChangedBy P s u where
  pipe hne := by
    by_cases h : t.pipe = s.pipe
    · exact htu.pipe (h ▸ hne)
    · exact hst.pipe h
  res hne := by
    by_cases h : t.res = s.res
    · exact htu.res (h ▸ hne)
    · exact hst.res h

end ResultsChangedBy

/-! Which commands' effects have pipeline results, and which write RES (30_encoding.md R103). -/

theorem symEncEffect_pipe (s : State) : (symEncEffect s).pipe = none := by
  unfold symEncEffect
  split <;> rfl

theorem symDecEffect_pipe (s : State) : (symDecEffect s).pipe = none := by
  unfold symDecEffect
  split <;> rfl

theorem fldEncEffect_pipe (s : State) : (fldEncEffect s).pipe = none := by
  unfold fldEncEffect
  extract_lets
  split
  · rfl
  split
  · rfl
  split <;> rfl

theorem fldDecEffect_pipe (s : State) : (fldDecEffect s).pipe = none := by
  unfold fldDecEffect
  extract_lets
  split
  · rfl
  split
  · rfl
  split <;> rfl

theorem strEncEffect_pipe (s : State) : (strEncEffect s).pipe = none := by
  unfold strEncEffect
  extract_lets
  split
  · rfl
  split
  · rfl
  split <;> rfl

theorem strDecEffect_pipe (s : State) : (strDecEffect s).pipe = none := by
  unfold strDecEffect
  extract_lets
  split
  · rfl
  split
  · rfl
  split
  · rfl
  split <;> rfl

theorem crcEffect_pipe (s : State) : (crcEffect s).pipe = none := by
  unfold crcEffect
  split
  · rfl
  · rfl
  · dsimp only
    split <;> rfl

/-- PKT_PROC writes no RES register. -/
theorem pktProcEffect_res (s : State) : (pktProcEffect s).res = [] := by
  unfold pktProcEffect
  split <;> rfl

/-- No effect but that of PKT_PROC has pipeline results (10_state.md R55). -/
theorem effectOf_pipe_eq_none {op : Byte} (h : op ≠ 0x10#8) (s : State) : (effectOf op s).pipe = none := by
  unfold effectOf
  split
  case h_1 => rfl
  case h_2 => exact symEncEffect_pipe s
  case h_3 => exact symDecEffect_pipe s
  case h_4 => exact fldEncEffect_pipe s
  case h_5 => exact fldDecEffect_pipe s
  case h_6 => exact strEncEffect_pipe s
  case h_7 => exact strDecEffect_pipe s
  case h_8 => exact crcEffect_pipe s
  case h_9 h16 => exact absurd (BitVec.eq_of_toNat_eq h16) h
  case h_10 => rfl

/-- No effect but those of the opcodes 0x01 to 0x07 writes RES (10_state.md R40). -/
theorem effectOf_res_eq_nil {op : Byte} (h : ¬ (0x01 ≤ op.toNat ∧ op.toNat ≤ 0x07)) (s : State) :
    (effectOf op s).res = [] := by
  unfold effectOf
  split
  case h_1 => rfl
  case h_9 => exact pktProcEffect_res s
  case h_10 => rfl
  all_goals omega

/-- A completion changes the results only by the command that completes. -/
theorem State.finish_results (s : State) : ResultsChangedBy (· = s.seqOp) s s.finish where
  pipe hne := by
    by_contra hop
    exact hne (by simp [effectOf_pipe_eq_none (Ne.symm hop) s])
  res hne := by
    by_contra hop
    exact hne (by simp [effectOf_res_eq_nil (fun h => hop ⟨s.seqOp, h.1, h.2, rfl⟩) s, writeRes])

/-- A write to CMD changes the results only by the command it carries. -/
theorem State.hostCommand_results (s : State) (op : Byte) : ResultsChangedBy (· = op) s (s.hostCommand op) := by
  rcases s.hostCommand_cases op with ⟨-, e⟩ | ⟨-, -, e⟩ | ⟨n, -, -, e⟩
  · exact .of_eq (by simp [e]) (by simp [e])
  · have hf := State.finish_results { s.startCommand op with left := 0 }
    exact e ▸ ⟨hf.pipe, hf.res⟩
  · exact .of_eq (by simp [e]) (by simp [e])

/-- The sequencer's part of a step changes the results only by a running command whose time is over. -/
theorem State.tick_results (s : State) :
    ResultsChangedBy (fun op => s.busy = true ∧ s.left = 0 ∧ s.seqOp = op) s s.tick := by
  rcases s.tick_cases with ⟨-, e⟩ | ⟨hb, hl, e⟩ | ⟨n, -, -, e⟩
  · exact .of_eq (by simp [e]) (by simp [e])
  · exact e ▸ s.finish_results.mono fun op hop => ⟨hb, hl, hop.symm⟩
  · exact .of_eq (by simp [e]) (by simp [e])

/-- A write dropped while BUSY keeps the results (43_control.md R244). -/
theorem State.busyWrite_results (s : State) (a : BusAddr) (d : Byte) (P : Byte → Prop) :
    ResultsChangedBy P s (s.busyWrite a d) := by
  rcases s.busyWrite_cases a d with ⟨-, e⟩ | ⟨-, e⟩ | ⟨-, -, e⟩ <;> exact .of_eq (by simp [e]) (by simp [e])

/-- A write while IDLE keeps the results: their addresses are read-only (43_control.md R241). -/
theorem State.idleWrite_results (s : State) (a : BusAddr) (d : Byte) (P : Byte → Prop) :
    ResultsChangedBy P s (s.idleWrite a d) := by
  rcases s.idleWrite_cases a d with ⟨-, e⟩ | ⟨-, e⟩ | ⟨-, e⟩ | ⟨-, e⟩ | ⟨-, e⟩ | ⟨-, e⟩ | ⟨-, -, e⟩ | ⟨-, e⟩ |
    ⟨-, -, e⟩ <;> exact .of_eq (by simp [e]) (by simp [e])

/-- A write to an address other than CMD, by the state of the sequencer (43_control.md R241, R244). -/
theorem execHostWr_plain {a : BusAddr} (ha : a ≠ 0x000#12) (d : Byte) (s : State) :
    execHostWr a d s = .next (if s.busy then s.busyWrite a d else s.idleWrite a d) := by
  simp [execHostWr, ha]

/-- A transaction that starts no command keeps the results. -/
theorem exec_plain_results {i : Instr} (hi : i.Plain) {s t : State} (he : exec i s = .next t) (P : Byte → Prop) :
    ResultsChangedBy P s t := by
  cases i with
  | hostRd a d =>
    rcases execHostRd_cases s a d with ⟨-, -, e⟩ | ⟨-, e⟩ <;>
      · cases e.symm.trans he
        exact .of_eq rfl rfl
  | hostWr a d =>
    cases (execHostWr_plain hi d s).symm.trans he
    split
    · exact s.busyWrite_results a d P
    · exact s.idleWrite_results a d P
  | _ => exact hi.elim

/-- A transaction changes the results only by the command it is (10_state.md R62). -/
theorem exec_results {i : Instr} (hw : i.wf = true) {s t : State} (he : exec i s = .next t) :
    ResultsChangedBy (fun op => i = decodeCommand op) s t := by
  rcases Instr.command_or_plain hw with ⟨op, rfl⟩ | hplain
  · cases (exec_decodeCommand op s).symm.trans he
    exact (s.hostCommand_results op).mono fun _ hop => hop ▸ rfl
  · exact exec_plain_results hplain he _

/-- A step without reset changes the results only by the command that completes in it (10_state.md R62). -/
theorem step_results {s t : State} (hs : step s = .next t) (hr : ¬ ResetInStep s) :
    ResultsChangedBy (CommandInStep s) s t := by
  rcases step_cases hs with ⟨-, rfl⟩ | ⟨w, rest, -, -, rfl⟩ | ⟨w, rest, hp, hpin, he⟩ | ⟨rest, hp, -⟩ | ⟨rest, -, rfl⟩
  · exact s.tick_results.mono fun _ h => .inl h
  · exact .of_eq rfl rfl
  · have htick : ResultsChangedBy (CommandInStep s) { s with port := rest }
        ({ s with port := rest } : State).tick := (State.tick_results _).mono fun _ h => .inl h
    suffices ht : ResultsChangedBy (CommandInStep s) ({ s with port := rest } : State).tick t from
      ⟨(htick.trans ht).pipe, (htick.trans ht).res⟩
    rcases decode_command_or_plain w with ⟨op, rfl⟩ | hplain
    · cases (exec_command op _).symm.trans he
      exact (State.hostCommand_results _ op).mono fun _ hop => .inr ⟨rest, hop ▸ hp, hpin⟩
    · exact exec_plain_results hplain he _
  · exact absurd ⟨rest, hp⟩ hr
  · exact .of_eq rfl rfl

/-- Settles O54: the results change by a completion only, and by that of a command that writes them. -/
theorem onlyCommandsChangeResults : Obligations.OnlyCommandsChangeResults := by
  refine ⟨fun s t i hw he => ⟨(exec_results hw he).pipe, fun hne => ?_⟩,
    fun s t hs hr => ⟨(step_results hs hr).pipe, (step_results hs hr).res⟩⟩
  obtain ⟨op, hlo, hhi, rfl⟩ := (exec_results hw he).res hne
  exact decodeCommand_codec_or_crc hlo hhi

end Machine
end Sys2Proof

/-! Host transactions against a running command (20_memory.md R74, R81 to R83): what a transaction while BUSY leaves to
the command, what a busy or a reserved address reads, and a completion in the step of a transaction. -/

namespace Sys2Proof

/-! ### The fields of a BUS word -/

/-- The bits of a BUS word: D below A below W (30_encoding.md R96). -/
theorem busWord_getLsbD (isWrite : Bool) (a : BusAddr) (d : Byte) (i : Nat) :
    (busWord isWrite a d).getLsbD i =
      if i < 8 then d.getLsbD i else if i < 20 then a.getLsbD (i - 8) else (decide (i = 20) && isWrite) := by
  simp only [busWord, BitVec.getLsbD_append, BitVec.getLsbD_ofBool, show i - 8 < 12 ↔ i < 20 by omega]
  by_cases h8 : i < 8
  · simp [h8]
  · by_cases h20 : i < 20
    · simp [h8, h20]
    · simp [h8, h20, show i - 8 - 12 = 0 ↔ i = 20 by omega]

@[simp] theorem busIsWrite_busWord (isWrite : Bool) (a : BusAddr) (d : Byte) :
    busIsWrite (busWord isWrite a d) = isWrite := by
  rw [busIsWrite, busWord_getLsbD]
  simp

@[simp] theorem busAddr_busWord (isWrite : Bool) (a : BusAddr) (d : Byte) : busAddr (busWord isWrite a d) = a := by
  apply BitVec.eq_of_getLsbD_eq
  intro i hi
  simp [busAddr, busWord_getLsbD, hi, show 8 + i < 20 by omega]

@[simp] theorem busData_busWord (isWrite : Bool) (a : BusAddr) (d : Byte) : busData (busWord isWrite a d) = d := by
  apply BitVec.eq_of_getLsbD_eq
  intro i hi
  simp [busData, busWord_getLsbD, hi]

/-- A write to an address other than CMD decodes to a plain write (30_encoding.md R98). -/
theorem decode_plainWriteWord {a : BusAddr} (ha : a ≠ 0x000#12) (d : Byte) :
    decode (busWord true a d) = .hostWr a d := by
  simp [decode, ha]

namespace Machine

/-! ### A running command and the transactions beside it -/

/-- The command that runs in `s` runs in `t` too, with the same time left, and everything its effect and its completion
start from is the same: its inputs, the RES registers and the pipeline results (20_memory.md R83). -/
structure SameRunningCommand (s t : State) : Prop where
  busy : t.busy = s.busy
  seqOp : t.seqOp = s.seqOp
  left : t.left = s.left
  inputs : SameInputs s t
  res : t.res = s.res
  pipe : t.pipe = s.pipe

namespace SameRunningCommand

variable {s t : State}

/-- The effect is what it was, as a command reads its inputs only. -/
theorem effect (h : SameRunningCommand s t) : effectOf t.seqOp t = effectOf s.seqOp s := by
  rw [h.seqOp, effectOf_congr h.inputs]

theorem finish_res (h : SameRunningCommand s t) : t.finish.res = s.finish.res := by
  rw [State.finish_res, State.finish_res, h.res, h.effect]

theorem finish_mem (h : SameRunningCommand s t) : t.finish.mem = s.finish.mem := by
  rw [State.finish_mem, State.finish_mem, h.inputs.mem, h.effect]

theorem finish_pipe (h : SameRunningCommand s t) : t.finish.pipe = s.finish.pipe := by
  rw [State.finish_eq t, State.finish_eq s, h.pipe, h.effect]

theorem finish_errCode (h : SameRunningCommand s t) : t.finish.errCode = s.finish.errCode := by
  rw [State.finish_errCode, State.finish_errCode, h.effect]

end SameRunningCommand

/-- A write while BUSY reaches STATUS and CTRL only, and neither the BUSY bit nor an input of a command is there
(43_control.md R244). -/
theorem State.busyWrite_sameRunningCommand (s : State) (a : BusAddr) (d : Byte) :
    SameRunningCommand s (s.busyWrite a d) := by
  have hb := s.busyWrite_busy a d
  rcases s.busyWrite_cases a d with ⟨-, e⟩ | ⟨-, e⟩ | ⟨-, -, e⟩ <;>
    · rw [e] at hb ⊢
      exact ⟨hb, rfl, rfl, ⟨rfl, rfl, rfl, rfl, rfl, rfl, rfl, rfl⟩, rfl, rfl⟩

/-- A read changes nothing but what the host port shows of reads (20_memory.md R79). -/
theorem execHostRd_sameRunningCommand {a : BusAddr} {d : Byte} {s t : State} (h : execHostRd a d s = .next t) :
    SameRunningCommand s t := by
  rcases execHostRd_cases s a d with ⟨-, -, e⟩ | ⟨-, e⟩ <;>
    · cases e.symm.trans h
      exact ⟨rfl, rfl, rfl, ⟨rfl, rfl, rfl, rfl, rfl, rfl, rfl, rfl⟩, rfl, rfl⟩

/-- A write to CMD while BUSY is dropped like any other (43_control.md R244). -/
theorem State.hostCommand_of_busy {s : State} (hb : s.busy = true) (op : Byte) :
    s.hostCommand op = s.busyWrite 0x000#12 op := by
  simp [State.hostCommand, hb]

/-- Every transaction while BUSY leaves the running command as it was (20_memory.md R83). -/
theorem exec_sameRunningCommand {i : Instr} {s t : State} (hb : s.busy = true) (h : exec i s = .next t) :
    SameRunningCommand s t := by
  rcases exec_cases h with ⟨op, rfl⟩ | ⟨a, d, -, hr⟩ | ⟨a, d, -, -, -, rfl⟩ | ⟨a, d, -, -, hidle, -⟩
  · exact State.hostCommand_of_busy hb op ▸ s.busyWrite_sameRunningCommand _ op
  · exact execHostRd_sameRunningCommand hr
  · exact s.busyWrite_sameRunningCommand a d
  · exact absurd (hb.symm.trans hidle) (by decide)

/-- Every transaction completes: none is a fault or a refusal (30_encoding.md R96, 43_control.md R240, R241). -/
theorem exec_answers_next (i : Instr) (s : State) : ∃ t, exec i s = .next t := by
  cases i <;> exact ⟨_, rfl⟩

/-- Settles O20: a transaction while BUSY keeps every input of the running command, so its effect and its results stay
what they were. -/
theorem runningCommandSeesFixedInputs : Obligations.RunningCommandSeesFixedInputs := by
  intro s w hb
  obtain ⟨t, ht⟩ := exec_answers_next (decode w) s
  have h := exec_sameRunningCommand hb ht
  exact ⟨t, ht, h.busy.trans hb, h.seqOp, h.left, h.effect, h.finish_res, h.finish_mem, h.finish_pipe,
    h.finish_errCode⟩

/-! ### Reads while BUSY -/

/-- ERR_CODE stands at its address (20_memory.md R71). -/
theorem State.peek_errCode (s : State) : s.peek addrErrCode = s.errCode := rfl

/-- Settles O15: by the address, and for ERR_CODE by what the invariant says of BUSY. -/
theorem busyReads : Obligations.BusyReads := by
  intro s a d hb
  refine ⟨fun ha => ?_, fun hinv => ?_, fun ha => ?_⟩
  · rcases execHostRd_cases s a d with ⟨-, h4, -⟩ | ⟨-, e⟩
    · omega
    · exact e
  · obtain ⟨-, -, herr⟩ := hinv.busyClear hb
    exact s.peek_errCode.trans herr
  · rcases execHostRd_cases s a d with ⟨-, -, e⟩ | ⟨hidle | hlt, -⟩
    · exact e
    · exact absurd (hb.symm.trans hidle) (by decide)
    · omega

/-! ### Reserved addresses -/

/-- A read while IDLE hands over the byte the address map holds (43_control.md R240). -/
theorem execHostRd_of_idle {s : State} (hb : s.busy = false) (a : BusAddr) (d : Byte) :
    execHostRd a d s = .next { s with rdata := s.peek a.toNat } := by
  simp [execHostRd, hb]

/-- No write to a reserved address is a write to CMD. -/
theorem ne_cmd_of_isReservedAddr {a : BusAddr} (h : isReservedAddr a.toNat) : a ≠ 0x000#12 := by
  rintro rfl
  simp [isReservedAddr] at h

/-- No reserved address lies in a buffer that the host may write. -/
theorem isHostWritableBufferAddr_of_reserved {a : Nat} (h : isReservedAddr a) :
    isHostWritableBufferAddr a = false := by
  have hb : isBufferAddr a = false := by
    rcases h with h | h <;> simp [isBufferAddr] <;> omega
  simp [isHostWritableBufferAddr, hb]

/-- A write to a reserved address is ignored (20_memory.md R74): every arm that stores addresses another range. -/
theorem State.idleWrite_reserved (s : State) {a : BusAddr} (h : isReservedAddr a.toNat) (d : Byte) :
    s.idleWrite a d = s := by
  have hbuf := isHostWritableBufferAddr_of_reserved h
  have hlo : 0x044 ≤ a.toNat := by rcases h with h | h <;> omega
  rcases s.idleWrite_cases a d with ⟨ha, -⟩ | ⟨ha, -⟩ | ⟨ha, -⟩ | ⟨ha, -⟩ | ⟨ha, -⟩ | ⟨ha, -⟩ | ⟨-, ha, -⟩ |
    ⟨hw, -⟩ | ⟨-, -, e⟩
  case inr.inr.inr.inr.inr.inr.inr.inl => exact absurd (hbuf.symm.trans hw) (by decide)
  case inr.inr.inr.inr.inr.inr.inr.inr => exact e
  all_goals omega

/-- Settles O16: the map holds 0x00 there, and no arm of a write while IDLE stores there. -/
theorem reservedAddressesReadZeroAndIgnoreWrites : Obligations.ReservedAddressesReadZeroAndIgnoreWrites := by
  intro s a d hb h
  have hread : execHostRd a d s = .next { s with rdata := 0x00#8 } := by
    rw [execHostRd_of_idle hb, s.peek_reserved _ h]
  have hwrite : execHostWr a d s = .next s := by
    simp [execHostWr_plain (ne_cmd_of_isReservedAddr h), hb, s.idleWrite_reserved h]
  exact ⟨hread, hwrite⟩

/-! ### A completion and a transaction in one step -/

/-- A step in which a command completes takes its transaction after the completion (20_memory.md R82). -/
theorem step_completes_then_transacts {s : State} {w : BusWord} {rest : List PortEvent} (hb : s.busy = true)
    (hl : s.left = 0) (hr : s.rstPin = false) (hp : s.port = .bus w :: rest) :
    step s = exec (decode w) (State.finish { s with port := rest }) := by
  have htick : ({ s with port := rest } : State).tick = State.finish { s with port := rest } := by
    rcases State.tick_cases { s with port := rest } with ⟨hidle, -⟩ | ⟨-, -, e⟩ | ⟨n, -, hn, -⟩
    · exact absurd (hb.symm.trans hidle) (by decide)
    · exact e
    · exact absurd (hl.symm.trans hn) (Nat.succ_ne_zero n).symm
  rw [← htick]
  simp [step, State.nextEvent, State.consume, hp, hr]

/-- A write of 1 to STATUS.DONE while IDLE clears DONE, and BUSY stays 0 (43_control.md R241). -/
theorem execHostWr_clears_done {s : State} {d : Byte} (hb : s.busy = false) (hd : d.getLsbD 1 = true) :
    ∃ t, execHostWr 0x001#12 d s = .next t ∧ t.busy = false ∧ t.done = false := by
  obtain ⟨hbusy, hdone, -⟩ := statusW1C_bits s.status d
  refine ⟨{ s with status := statusW1C s.status d }, ?_, hbusy.trans hb, hdone.trans (by simp [hd])⟩
  simp [execHostWr_plain, hb, State.idleWrite]

/-- Settles O21: the completion leaves the sequencer IDLE, and the write then clears the DONE it set. -/
theorem completionComesBeforeTheTransaction : Obligations.CompletionComesBeforeTheTransaction := by
  intro s d rest hb hl hr hp hd
  rw [step_completes_then_transacts hb hl hr hp, decode_plainWriteWord (by decide)]
  exact execHostWr_clears_done (State.finish_busy _) hd

end Machine
end Sys2Proof

/-! The encoding (30_encoding.md): decoder and encoder are inverse to each other, ILLEGAL is what the opcode map does not
hold, and no step changes what is fixed when the hardware is built. -/

namespace Sys2Proof

/-! ### The opcode map -/

/-- The opcodes the map does not hold (30_encoding.md R101). -/
theorem opcodeAssigned_eq_false_iff (op : Byte) :
    opcodeAssigned op = false ↔ (0x08 ≤ op.toNat ∧ op.toNat ≤ 0x0F) ∨ 0x11 ≤ op.toNat := by
  simp only [opcodeAssigned, Bool.or_eq_false_iff, decide_eq_false_iff_not]
  omega

/-- An instruction of the opcode map is encoded as the write to CMD of its opcode (30_encoding.md R98, R100). -/
theorem encode_decodeCommand (op : Byte) : encode (decodeCommand op) = commandWord op := by
  unfold decodeCommand
  split
  case h_10 => rfl
  all_goals exact congrArg commandWord (BitVec.eq_of_toNat_eq (Eq.symm ‹_›))

/-- The opcode map answers ILLEGAL for an unassigned opcode only (30_encoding.md R101). -/
theorem decodeCommand_wf (op : Byte) : (decodeCommand op).wf = true := by
  unfold decodeCommand
  split
  case h_10 =>
    simp only [Instr.wf, Bool.not_eq_true', opcodeAssigned_eq_false_iff, imp_false] at *
    omega
  all_goals rfl

/-- ILLEGAL is the meaning of exactly the unassigned opcodes (30_encoding.md R101). -/
theorem decodeCommand_eq_illegal_iff (op : Byte) : decodeCommand op = .illegal op ↔ opcodeAssigned op = false := by
  refine ⟨fun h => ?_, decodeCommand_of_unassigned⟩
  have hwf := decodeCommand_wf op
  rw [h] at hwf
  simpa [Instr.wf] using hwf

/-! ### The three forms of a BUS word -/

/-- Every word is a write to CMD, a read, or a write to another address (30_encoding.md R96, R98). -/
theorem busWord_cases (w : BusWord) :
    (∃ op, w = commandWord op) ∨ (∃ a d, w = busWord false a d) ∨ ∃ a d, a ≠ 0x000#12 ∧ w = busWord true a d := by
  have hfields := (busWord_fields w).symm
  cases hw : busIsWrite w with
  | false => exact .inr (.inl ⟨busAddr w, busData w, hw ▸ hfields⟩)
  | true =>
    rw [hw] at hfields
    by_cases ha : busAddr w = 0x000#12
    · exact .inl ⟨busData w, hfields.trans (by rw [ha, commandWord])⟩
    · exact .inr (.inr ⟨busAddr w, busData w, ha, hfields⟩)

/-- A word whose bit W is 0 decodes to a read (30_encoding.md R96). -/
theorem decode_readWord (a : BusAddr) (d : Byte) : decode (busWord false a d) = .hostRd a d := by
  simp [decode]

/-! ### Round trips -/

/-- Every word decodes to a well-formed instruction (30_encoding.md R96: no encoding is illegal). -/
theorem decode_wf (w : BusWord) : (decode w).wf = true := by
  rcases busWord_cases w with ⟨op, rfl⟩ | ⟨a, d, rfl⟩ | ⟨a, d, ha, rfl⟩
  · rw [Machine.decode_commandWord]
    exact decodeCommand_wf op
  · rw [decode_readWord]
    rfl
  · rw [decode_plainWriteWord ha]
    exact decide_eq_true ha

/-- Decoding drops no bit of a word (30_encoding.md R96). -/
theorem encode_decode (w : BusWord) : encode (decode w) = w := by
  rcases busWord_cases w with ⟨op, rfl⟩ | ⟨a, d, rfl⟩ | ⟨a, d, ha, rfl⟩
  · rw [Machine.decode_commandWord, encode_decodeCommand]
  · rw [decode_readWord, encode]
  · rw [decode_plainWriteWord ha, encode]

/-- A well-formed instruction is what its word decodes to: a command by the opcode map, any other by its fields. -/
theorem decode_encode {i : Instr} (h : i.wf = true) : decode (encode i) = i := by
  rcases Instr.command_or_plain h with ⟨op, rfl⟩ | hplain
  · rw [encode_decodeCommand, Machine.decode_commandWord]
  · cases i with
    | hostRd a d => exact decode_readWord a d
    | hostWr a d => exact decode_plainWriteWord hplain d
    | _ => exact hplain.elim

/-- Settles O1: the two halves of the round trip over the words. -/
theorem everyBusWordIsOneInstruction : Obligations.EveryBusWordIsOneInstruction :=
  fun w => ⟨decode_wf w, encode_decode w⟩

/-- Settles O2: the round trip over the well-formed instructions. -/
theorem decodeInvertsEncode : Obligations.DecodeInvertsEncode :=
  fun _ h => decode_encode h

/-- Settles O3: five words are writes to CMD, one is a read, one a plain write, each put together from its fields. -/
theorem writtenOutWordsDecode : Obligations.WrittenOutWordsDecode :=
  ⟨Machine.decode_commandWord 0x00#8, Machine.decode_commandWord 0x01#8, Machine.decode_commandWord 0x07#8,
    Machine.decode_commandWord 0x10#8, Machine.decode_commandWord 0x08#8, decode_readWord 0x024#12 0x00#8,
    decode_plainWriteWord (a := 0x004#12) (by decide) 0x1C#8⟩

/-- Settles O4: a write to CMD reads its opcode in the opcode map, which answers ILLEGAL outside its entries. -/
theorem unassignedOpcodesDecodeToIllegal : Obligations.UnassignedOpcodesDecodeToIllegal := by
  intro op
  rw [Machine.decode_commandWord, decodeCommand_eq_illegal_iff, opcodeAssigned_eq_false_iff]

namespace Machine

/-! ### The configuration -/

@[simp] theorem State.busyWrite_cfg (s : State) (a : BusAddr) (d : Byte) : (s.busyWrite a d).cfg = s.cfg := by
  rcases s.busyWrite_cases a d with ⟨-, e⟩ | ⟨-, e⟩ | ⟨-, -, e⟩ <;> simp [e]

@[simp] theorem State.idleWrite_cfg (s : State) (a : BusAddr) (d : Byte) : (s.idleWrite a d).cfg = s.cfg := by
  rcases s.idleWrite_cases a d with ⟨-, e⟩ | ⟨-, e⟩ | ⟨-, e⟩ | ⟨-, e⟩ | ⟨-, e⟩ | ⟨-, e⟩ | ⟨-, -, e⟩ | ⟨-, e⟩ |
    ⟨-, -, e⟩ <;> simp [e]

@[simp] theorem State.hostCommand_cfg (s : State) (op : Byte) : (s.hostCommand op).cfg = s.cfg := by
  rcases s.hostCommand_cases op with ⟨-, e⟩ | ⟨-, -, e⟩ | ⟨n, -, -, e⟩ <;> simp [e]

@[simp] theorem State.tick_cfg (s : State) : s.tick.cfg = s.cfg := by
  rcases s.tick_cases with ⟨-, e⟩ | ⟨-, -, e⟩ | ⟨n, -, -, e⟩ <;> simp [e]

/-- No transaction writes the configuration: no address of the map holds a part of it (30_encoding.md R104). -/
theorem exec_cfg {i : Instr} {s t : State} (h : exec i s = .next t) : t.cfg = s.cfg := by
  rcases exec_cases h with ⟨op, rfl⟩ | ⟨a, d, -, hr⟩ | ⟨a, d, -, -, -, rfl⟩ | ⟨a, d, -, -, -, rfl⟩
  · exact s.hostCommand_cfg op
  · rcases execHostRd_cases s a d with ⟨-, -, e⟩ | ⟨-, e⟩ <;>
      · cases e.symm.trans hr
        rfl
  · exact s.busyWrite_cfg a d
  · exact s.idleWrite_cfg a d

/-- Settles O8: the sequencer, the transactions and reset all keep the configuration. -/
theorem noStepChangesTheConfiguration : Obligations.NoStepChangesTheConfiguration := by
  intro s t hs
  rcases step_cases hs with ⟨-, rfl⟩ | ⟨w, rest, -, -, rfl⟩ | ⟨w, rest, -, -, he⟩ | ⟨rest, -, rfl⟩ | ⟨rest, -, rfl⟩
  · exact s.tick_cfg
  · rfl
  · exact (exec_cfg he).trans (State.tick_cfg _)
  · exact State.assertReset_cfg _
  · rfl

end Machine
end Sys2Proof

/-! The symbol codec as functions (40_symbol_codec.md sections 1 to 3): encoder and decoder are inverse to each other
for symbols, fields and byte strings, and the number of bytes that are no symbol. -/

namespace Sys2Proof.Machine

/-! ### The symbol table -/

/-- The codec laws ask for distinct symbols, which every legal configuration has (40_symbol_codec.md R120). -/
theorem Config.tableInjective (c : Config) : TableInjective c.params.symTable :=
  fun i j hi hj h => Config.symTable_injective c i j hi hj h

/-- Settles O32: `dec8` finds a symbol at its own index, because the symbols are distinct. -/
theorem symbolRoundTrip : Obligations.SymbolRoundTrip :=
  fun c => ⟨dec8_symbol (Config.tableInjective c), fun _ _ => dec8_some⟩

/-- The bytes that `dec8` reads are those of the table (40_symbol_codec.md R121). -/
theorem dec8_isSome_iff {t : Vector Byte 64} {b : Byte} : (dec8 t b).isSome ↔ b ∈ t.toList := by
  rw [Option.isSome_iff_ne_none, ne_eq, dec8_none_iff, Vector.mem_toList_iff, Vector.mem_iff_getElem]
  push Not
  constructor
  · rintro ⟨r, hr⟩
    exact ⟨r.toNat, r.isLt, hr⟩
  · rintro ⟨i, hi, rfl⟩
    exact ⟨BitVec.ofNat 6 i, by simp [Nat.mod_eq_of_lt hi]⟩

/-- The numbers of the bytes that `dec8` reads are, in some order, those of the table's symbols. -/
theorem filter_dec8_isSome_perm {t : Vector Byte 64} (ht : t.toList.Nodup) :
    ((List.range 256).filter (fun b => (dec8 t (BitVec.ofNat 8 b)).isSome)).Perm (t.toList.map BitVec.toNat) := by
  have hinj : Function.Injective (BitVec.toNat : Byte → Nat) := fun _ _ => BitVec.eq_of_toNat_eq
  refine (List.perm_ext_iff_of_nodup (List.nodup_range.filter _) (ht.map hinj)).2 fun b => ?_
  simp only [List.mem_filter, List.mem_range, dec8_isSome_iff, List.mem_map]
  constructor
  · rintro ⟨hb, hmem⟩
    exact ⟨_, hmem, by simp [Nat.mod_eq_of_lt hb]⟩
  · rintro ⟨s, hs, rfl⟩
    exact ⟨s.isLt, by simpa using hs⟩

/-- Settles O33: 64 of the 256 bytes are the table's distinct symbols, and the others are invalid. -/
theorem exactlyOneHundredNinetyTwoInvalidSymbols : Obligations.ExactlyOneHundredNinetyTwoInvalidSymbols := by
  intro c
  have hnodup : c.params.symTable.toList.Nodup :=
    List.nodup_iff_injective_get.2 fun i j hij => Fin.ext <|
      Config.tableInjective c i j (by simpa using i.isLt) (by simpa using j.isLt) (by simpa using hij)
  have hvalid := (filter_dec8_isSome_perm hnodup).length_eq
  have hsplit := List.length_eq_length_filter_add (l := List.range 256)
    (fun b => (dec8 c.params.symTable (BitVec.ofNat 8 b)).isSome)
  simp only [List.length_range, List.length_map, Vector.length_toList, Option.not_isSome] at hvalid hsplit
  omega

/-! ### Groups and bytes of a value -/

theorem splitGroups_succ (k x : Nat) :
    splitGroups (k + 1) x = BitVec.ofNat 6 (x / 64 ^ k) :: splitGroups k x := by
  simp only [splitGroups, List.range_succ_eq_map, List.map_cons, List.map_map, Nat.add_sub_cancel, Nat.sub_zero]
  refine congrArg _ (List.map_congr_left fun i _ => ?_)
  simp only [Function.comp, show k - (i + 1) = k - 1 - i by omega]

theorem splitBytes_succ (m x : Nat) :
    splitBytes (m + 1) x = BitVec.ofNat 8 (x / 256 ^ m) :: splitBytes m x := by
  simp only [splitBytes, List.range_succ_eq_map, List.map_cons, List.map_map, Nat.add_sub_cancel, Nat.sub_zero]
  refine congrArg _ (List.map_congr_left fun j _ => ?_)
  simp only [Function.comp, show m - (j + 1) = m - 1 - j by omega]

/-- The `k` groups of a value keep its low 6k bits. -/
theorem groupValue_splitGroups (k x : Nat) : groupValue (splitGroups k x) = x % 64 ^ k := by
  induction k with
  | zero => simp [splitGroups, groupValue, Nat.mod_one]
  | succ k ih =>
    rw [splitGroups_succ, groupValue, splitGroups_length, ih, BitVec.toNat_ofNat, Nat.mod_pow_succ (b := 64),
      Nat.add_comm, Nat.mul_comm]

/-- Joining bytes left to right with a start value. -/
theorem foldl_joinBytes (bs : List Byte) (x : Nat) :
    bs.foldl (fun x b => x * 256 + b.toNat) x = x * 256 ^ bs.length + joinBytes bs := by
  induction bs generalizing x with
  | nil => simp [joinBytes]
  | cons b bs ih =>
    simp only [joinBytes, List.foldl_cons, List.length_cons, Nat.pow_succ]
    rw [ih, ih (0 * 256 + b.toNat)]
    ring

/-- The first of joined bytes is the most significant. -/
theorem joinBytes_cons (b : Byte) (bs : List Byte) :
    joinBytes (b :: bs) = b.toNat * 256 ^ bs.length + joinBytes bs :=
  (foldl_joinBytes bs _).trans (by simp)

theorem joinBytes_lt (bs : List Byte) : joinBytes bs < 256 ^ bs.length := by
  induction bs with
  | nil => simp [joinBytes]
  | cons b bs ih =>
    have hb := b.isLt
    rw [joinBytes_cons, List.length_cons, Nat.pow_succ]
    nlinarith [Nat.pow_pos (n := bs.length) (show 0 < 256 by omega)]

/-- The `m` bytes of a value do not see what stands above them. -/
theorem splitBytes_add_mul (m x y : Nat) : splitBytes m (y * 256 ^ m + x) = splitBytes m x := by
  refine List.map_congr_left fun j hj => BitVec.eq_of_toNat_eq ?_
  have hj := List.mem_range.1 hj
  have hpow : y * 256 ^ m = 256 ^ (m - 1 - j) * (256 * (y * 256 ^ j)) := by
    have : (256 : Nat) ^ m = 256 ^ (m - 1 - j) * (256 * 256 ^ j) := by
      rw [← Nat.pow_succ', ← Nat.pow_add]
      congr 1
      omega
    rw [this]
    ring
  rw [hpow, Nat.mul_add_div (by positivity)]
  simp only [BitVec.toNat_ofNat]
  omega

/-- Cutting joined bytes gives them back (40_symbol_codec.md R130). -/
theorem splitBytes_joinBytes (bs : List Byte) : splitBytes bs.length (joinBytes bs) = bs := by
  induction bs with
  | nil => rfl
  | cons b bs ih =>
    have hdiv : (b.toNat * 256 ^ bs.length + joinBytes bs) / 256 ^ bs.length = b.toNat := by
      rw [Nat.mul_comm, Nat.mul_add_div (by positivity), Nat.div_eq_of_lt (joinBytes_lt bs), Nat.add_zero]
    rw [joinBytes_cons, List.length_cons, splitBytes_succ, hdiv, splitBytes_add_mul, ih, BitVec.ofNat_toNat,
      BitVec.setWidth_eq]

/-! ### Fields -/

/-- A field's symbols hold all of its bits (40_symbol_codec.md R125). -/
theorem two_pow_le_symbolCount (w : Nat) : 2 ^ w ≤ 64 ^ symbolCount w := by
  have h : (64 : Nat) ^ symbolCount w = 2 ^ (6 * symbolCount w) := by rw [Nat.pow_mul]
  rw [h]
  exact Nat.pow_le_pow_right (by omega) (by unfold symbolCount; omega)

theorem fieldEncode_of_lt (t : Vector Byte 64) {w x : Nat} (hx : x < 2 ^ w) :
    fieldEncode t w x = some ((splitGroups (symbolCount w) x).map (enc6 t)) := if_pos hx

/-- The symbols of a value that fits its field stand for that value (40_symbol_codec.md R125). -/
theorem fieldReads_splitGroups (t : Vector Byte 64) {w x : Nat} (hx : x < 2 ^ w) :
    FieldReads t w ((splitGroups (symbolCount w) x).map (enc6 t)) x :=
  ⟨_, rfl, (groupValue_splitGroups _ x).trans (Nat.mod_eq_of_lt (hx.trans_le (two_pow_le_symbolCount w))), hx⟩

/-- Settles O34: the decoder answers what the symbols stand for. -/
theorem fieldRoundTrip : Obligations.FieldRoundTrip := by
  intro c w x _ _ hx
  have henc := fieldEncode_of_lt c.params.symTable hx
  exact ⟨_, henc, fieldEncode_length henc,
    (fieldDecode_ok_iff (Config.tableInjective c)).2 (fieldReads_splitGroups c.params.symTable hx)⟩

/-! ### Strings -/

/-- The groups of 3n joined bytes are those bytes, four groups for three bytes (40_symbol_codec.md R129, R130). -/
theorem groupBytes_splitGroups_joinBytes {bs : List Byte} (h : bs.length % 3 = 0) :
    groupBytes (splitGroups (4 * bs.length / 3) (joinBytes bs)) = bs := by
  obtain ⟨n, hn⟩ := Nat.dvd_of_mod_eq_zero h
  have hk : 4 * bs.length / 3 = 4 * n := by omega
  have hlt : joinBytes bs < 64 ^ (4 * n) :=
    calc joinBytes bs < 256 ^ (3 * n) := hn ▸ joinBytes_lt bs
      _ = 64 ^ (4 * n) := by rw [Nat.pow_mul, Nat.pow_mul]
  rw [hk, ← splitBytes_eq_groupBytes n _ (splitGroups_length _ _), groupValue_splitGroups, Nat.mod_eq_of_lt hlt,
    ← hn, splitBytes_joinBytes]

/-- An encoded byte string stands for its bytes (40_symbol_codec.md R130). -/
theorem stringReads_stringEncode (t : Vector Byte 64) {bs : List Byte} (h : bs.length % 3 = 0) :
    StringReads t (stringEncode t bs) bs :=
  ⟨_, rfl, groupBytes_splitGroups_joinBytes h⟩

/-- Settles O35: the decoder answers the bytes that the symbols stand for. -/
theorem stringRoundTrip : Obligations.StringRoundTrip := by
  intro c bs h
  have hlen := stringEncode_length c.params.symTable bs
  exact ⟨hlen, (stringDecode_ok_iff (Config.tableInjective c) (by omega)).2
    (stringReads_stringEncode c.params.symTable h)⟩

end Sys2Proof.Machine

/-! The codec commands (40_symbol_codec.md section 4): what a command that completes within its transaction leaves,
given its effect, and the effect of each codec command. -/

namespace Sys2Proof.Machine

/-! ### The operands of a command that starts now -/

/-- The state in which a command started now finds its operands: its snapshot is ARG (43_control.md R242). -/
def State.snapped (s : State) : State := { s with snap := s.arg }

theorem State.effectNow_eq (s : State) (op : Byte) : s.effectNow op = effectOf op s.snapped := rfl

@[simp] theorem State.snapped_natArg (s : State) (n : Fin 16) : s.snapped.natArg n = s.arg[n].toNat := rfl

/-- The wide operand of FLD_ENC, least significant byte first (30_encoding.md R97). -/
theorem State.snapped_fieldValueArg (s : State) :
    s.snapped.fieldValueArg = s.arg[1].toNat + 256 * s.arg[2].toNat + 256 ^ 2 * s.arg[3].toNat
      + 256 ^ 3 * s.arg[4].toNat + 256 ^ 4 * s.arg[5].toNat + 256 ^ 5 * s.arg[6].toNat := by
  change valueLE [s.arg[1], s.arg[2], s.arg[3], s.arg[4], s.arg[5], s.arg[6]] = _
  simp only [valueLE]
  ring

/-! ### RES and buffer bytes after a command -/

/-- RES register `i` stands at its address (20_memory.md R71). -/
theorem State.peek_res (s : State) {i : Nat} (h : i < 8) : s.peek (addrRes0 + i) = s.res[i] := by
  rw [State.peek_register _ _ (by simp only [addrRes0]; omega)]
  simp [addrRes0, h, show ¬ 24 + i < 8 by omega, show 24 + i < 32 by omega, show ¬ 24 + i < 24 by omega]

/-- A byte of OUT_BUF is read at its address (20_memory.md R71). -/
theorem State.peek_outBuf (s : State) {o n i : Nat} (hfit : o + n ≤ 256) (hi : i < n) :
    s.peek (outBufBase + o + i) = (s.bufBytes outBufBase o n)[i]'(by simpa using hi) := by
  rw [State.bufBytes_getElem, State.peek_buffer _ _ (by simp only [outBufBase]; omega)]

/-- A RES register that is written once holds the byte written. -/
theorem writeRes_getElem_of_mem {ws : List (Nat × Byte)} (hn : (ws.map Prod.fst).Nodup) {i : Nat} (h : i < 8)
    {v : Byte} (hm : (i, v) ∈ ws) (r : Vector Byte 8) : (writeRes r ws)[i] = v := by
  induction ws generalizing r with
  | nil => simp at hm
  | cons w ws ih =>
    obtain ⟨hw, hws⟩ := List.nodup_cons.1 hn
    rcases List.mem_cons.1 hm with rfl | hm
    · have hrest : (writeRes (r.setIfInBounds i v) ws)[i] = (r.setIfInBounds i v)[i] :=
        writeRes_getElem_other _ _ _ h fun u hu e => hw (List.mem_map.2 ⟨u, hu, e⟩)
      exact hrest.trans (Vector.getElem_setIfInBounds_self h)
    · exact ih hws hm _

/-- The frame of a statement may be widened. -/
theorem SameMapExcept.mono {p q : Nat → Prop} {s t : State} (h : SameMapExcept p s t) (hpq : ∀ a, p a → q a) :
    SameMapExcept q s t :=
  fun a ha hq => h a ha fun hp => hq (hpq a hp)

/-- Command `op` ran from `s` to `t` in one transaction with effect `e`, which has no pipeline results: its booking, its
writes, and its frame (43_control.md R242, R243). -/
structure RanWithEffect (op : Byte) (e : Effect) (s t : State) : Prop where
  ran : CommandRan op e.err.code s t
  res : t.res = writeRes s.res e.res
  mem : t.mem = Memory.writeAll s.mem e.mem
  frame : SameMapExcept
    (fun a => isCommandReg a ∨ (∃ w ∈ e.res, a = addrRes0 + w.1) ∨ ∃ c ∈ e.mem, a = c.1) s t

/-- A prompt command without pipeline results, once its effect is known. -/
theorem exec_ranWithEffect {s : State} {op : Byte} (h : Prompt op s) {e : Effect} (he : effectOf op s.snapped = e)
    (hp : e.pipe = none) :
    ∃ t, exec (decodeCommand op) s = .next t ∧ RanWithEffect op e s t := by
  rw [← s.effectNow_eq] at he
  subst he
  refine ⟨_, exec_decodeCommand op s, commandRan_prompt h, ?_, ?_, (sameMap_prompt h).mono fun a ha => ?_⟩
  · rw [hostCommand_prompt h]
  · rw [hostCommand_prompt h]
  · simpa [hp] using ha

namespace RanWithEffect

variable {op : Byte} {e : Effect} {s t : State}

theorem peek_res (h : RanWithEffect op e s t) (hn : (e.res.map Prod.fst).Nodup) {i : Nat} (hi : i < 8) {v : Byte}
    (hm : (i, v) ∈ e.res) : t.peek (addrRes0 + i) = v := by
  rw [State.peek_res t hi]
  simpa only [h.res] using writeRes_getElem_of_mem hn hi hm s.res

/-- The bytes an effect writes from an offset of OUT_BUF on are read there. -/
theorem bufBytes_outBuf (h : RanWithEffect op e s t) {o : Nat} {bs : List Byte}
    (hm : e.mem = cellsAt (outBufBase + o) bs) : t.bufBytes outBufBase o bs.length = bs := by
  refine List.ext_getElem (by simp) fun i _ hi => ?_
  simp only [State.bufBytes_getElem, State.readByte, h.mem, hm, Memory.read?_writeAll_cellsAt]
  rw [dif_pos (by omega)]
  simp

/-- The frame of an effect whose bytes stand in OUT_BUF from an offset on. -/
theorem frame_outBuf (h : RanWithEffect op e s t) {o : Nat} {bs : List Byte}
    (hm : e.mem = cellsAt (outBufBase + o) bs) :
    SameMapExcept (fun a => isCommandReg a ∨ (∃ w ∈ e.res, a = addrRes0 + w.1) ∨
      (outBufBase + o ≤ a ∧ a < outBufBase + o + bs.length)) s t := by
  refine h.frame.mono fun a ha => ha.imp_right (Or.imp_right ?_)
  rintro ⟨c, hc, rfl⟩
  exact mem_cellsAt (hm ▸ hc)

end RanWithEffect

/-- A prompt command whose effect is an error and nothing else (43_control.md R247). -/
theorem endsWith_of_raiseErr {s : State} {op : Byte} {e : ErrCode} (h : Prompt op s)
    (he : effectOf op s.snapped = raiseErr e) : EndsWith (decodeCommand op) op e s := by
  obtain ⟨t, ht, hr⟩ := exec_ranWithEffect h he rfl
  exact ⟨t, ht, hr.ran, hr.frame.mono fun a ha => by simpa [raiseErr] using ha⟩

/-- A prompt command that stops at an invalid symbol (43_control.md R247). -/
theorem failsAtSymbol_of_raiseAtSymbol {s : State} {op : Byte} {j : Nat} (h : Prompt op s)
    (he : effectOf op s.snapped = raiseAtSymbol j) : FailsAtSymbol (decodeCommand op) op j s := by
  obtain ⟨t, ht, hr⟩ := exec_ranWithEffect h he rfl
  exact ⟨t, ht, hr.ran, hr.peek_res (by simp [raiseAtSymbol]) (by omega) (by simp [raiseAtSymbol]),
    hr.frame.mono fun a ha => by simpa [raiseAtSymbol] using ha⟩

/-- A prompt command whose effect is a byte for RES0. -/
theorem exec_of_res0 {s : State} {op : Byte} {v : Byte} (h : Prompt op s)
    (he : effectOf op s.snapped = { res := [(0, v)] }) :
    ∃ t, exec (decodeCommand op) s = .next t ∧ CommandRan op 0x00#8 s t ∧ t.peek addrRes0 = v ∧
      SameMapExcept (fun a => isCommandReg a ∨ a = addrRes0) s t := by
  obtain ⟨t, ht, hr⟩ := exec_ranWithEffect h he rfl
  exact ⟨t, ht, hr.ran, hr.peek_res (i := 0) (by simp) (by omega) (by simp),
    hr.frame.mono fun a ha => by simpa using ha⟩

/-- A prompt command whose effect is a byte for RES0 and `n` bytes of OUT_BUF from offset `o` on. -/
theorem exec_of_res0_outBuf {s : State} {op : Byte} {v : Byte} {o n : Nat} {bs : List Byte} (h : Prompt op s)
    (he : effectOf op s.snapped = { res := [(0, v)], mem := cellsAt (outBufBase + o) bs }) (hn : bs.length = n) :
    ∃ t, exec (decodeCommand op) s = .next t ∧ CommandRan op 0x00#8 s t ∧ t.peek addrRes0 = v ∧
      t.bufBytes outBufBase o n = bs ∧
      SameMapExcept (fun a => isCommandReg a ∨ a = addrRes0 ∨
        (outBufBase + o ≤ a ∧ a < outBufBase + o + n)) s t := by
  subst hn
  obtain ⟨t, ht, hr⟩ := exec_ranWithEffect h he rfl
  exact ⟨t, ht, hr.ran, hr.peek_res (i := 0) (by simp) (by omega) (by simp), hr.bufBytes_outBuf rfl,
    (hr.frame_outBuf rfl).mono fun a ha => by simpa using ha⟩

/-! ### Single symbols -/

theorem symEncEffect_of_lt {s : State} {r : Raw6} (h : s.natArg 0 = r.toNat) :
    symEncEffect s = { res := [(0, s.symTable[r.toNat])] } := by
  have hr : ¬ 64 ≤ s.natArg 0 := by
    have := r.isLt
    omega
  rw [symEncEffect, if_neg hr, h, BitVec.ofNat_toNat, BitVec.setWidth_eq, enc6]

theorem symEncEffect_of_ge {s : State} (h : 64 ≤ s.natArg 0) : symEncEffect s = raiseErr .range := if_pos h

/-- Settles O26: the effect of SYM_ENC by its argument. -/
theorem symEncCommand : Obligations.SymEncCommand := fun s h =>
  ⟨fun _ hr => exec_of_res0 h (symEncEffect_of_lt (s := s.snapped) hr),
    fun hge => endsWith_of_raiseErr h (symEncEffect_of_ge (s := s.snapped) hge)⟩

theorem symDecEffect_of_symbol {s : State} {r : Raw6} (h : s.byteArg 0 = s.symTable[r.toNat]) :
    symDecEffect s = { res := [(0, BitVec.ofNat 8 r.toNat)] } := by
  simp [symDecEffect, h, dec8_symbol s.symTable_injective]

theorem symDecEffect_of_invalid {s : State} (h : ∀ r : Raw6, s.symTable[r.toNat] ≠ s.byteArg 0) :
    symDecEffect s = raiseErr .invalidSymbol := by
  simp [symDecEffect, dec8_none_iff.2 h]

/-- Settles O27: the effect of SYM_DEC by its argument, which is a symbol of one raw value or of none. -/
theorem symDecCommand : Obligations.SymDecCommand := fun s h =>
  ⟨fun _ hr => exec_of_res0 h (symDecEffect_of_symbol (s := s.snapped) hr),
    fun hinv => endsWith_of_raiseErr h (symDecEffect_of_invalid (s := s.snapped) hinv)⟩

/-! ### Fields -/

/-- The width check of FLD_ENC and FLD_DEC (40_symbol_codec.md R133, R134). -/
theorem widthCheck_iff (w : Nat) : (!(decide (1 ≤ w) && decide (w ≤ 48))) = true ↔ w = 0 ∨ 48 < w := by
  simp

/-- The range check of every codec command on a buffer (30_encoding.md R103). -/
theorem not_fitsBuffer_iff (off n : Nat) : (!fitsBuffer off n) = true ↔ 256 < off + n := by
  simp [fitsBuffer]

/-- A field fails at its first invalid symbol, ahead of its pad bits (40_symbol_codec.md R126). -/
theorem fieldDecode_of_firstInvalid {t : Vector Byte 64} {ss : List Byte} {j : Nat} (h : FirstInvalid t ss j)
    (w : Nat) : fieldDecode t w ss = .error (.invalidSymbol j) := by
  simp [fieldDecode, decodeGroups_error_iff.2 h]

/-- A field of valid symbols with a pad bit of 1 fails (40_symbol_codec.md R126). -/
theorem fieldDecode_of_ge {t : Vector Byte 64} (ht : TableInjective t) {ss : List Byte} {gs : List Raw6}
    (h : SymbolsOf t ss gs) {w : Nat} (hv : 2 ^ w ≤ groupValue gs) : fieldDecode t w ss = .error .fieldRange := by
  simp [fieldDecode, (decodeGroups_ok_iff ht).2 h, joinGroups_eq, hv.not_gt]

section FieldEffects

variable {s : State}

theorem fldEncEffect_of_badWidth (hw : s.natArg 0 = 0 ∨ 48 < s.natArg 0) : fldEncEffect s = raiseErr .badArg :=
  if_pos ((widthCheck_iff _).2 hw)

theorem fldDecEffect_of_badWidth (hw : s.natArg 0 = 0 ∨ 48 < s.natArg 0) : fldDecEffect s = raiseErr .badArg :=
  if_pos ((widthCheck_iff _).2 hw)

variable (hw : ¬ (s.natArg 0 = 0 ∨ 48 < s.natArg 0))
include hw

theorem fldEncEffect_of_noFit (ho : 256 < s.natArg 7 + symbolCount (s.natArg 0)) :
    fldEncEffect s = raiseErr .badArg := by
  simp only [fldEncEffect, widthCheck_iff, hw, not_fitsBuffer_iff, ho, if_true, if_false]

theorem fldDecEffect_of_noFit (ho : 256 < s.natArg 7 + symbolCount (s.natArg 0)) :
    fldDecEffect s = raiseErr .badArg := by
  simp only [fldDecEffect, widthCheck_iff, hw, not_fitsBuffer_iff, ho, if_true, if_false]

variable (ho : ¬ 256 < s.natArg 7 + symbolCount (s.natArg 0))
include ho

theorem fldEncEffect_of_ge (hx : 2 ^ s.natArg 0 ≤ s.fieldValueArg) : fldEncEffect s = raiseErr .range := by
  simp only [fldEncEffect, widthCheck_iff, hw, not_fitsBuffer_iff, ho, if_false, fieldEncode, hx.not_gt]

theorem fldEncEffect_of_lt (hx : s.fieldValueArg < 2 ^ s.natArg 0) :
    fldEncEffect s =
      { res := [(0, BitVec.ofNat 8 (symbolCount (s.natArg 0)))],
        mem := cellsAt (outBufBase + s.natArg 7)
          ((splitGroups (symbolCount (s.natArg 0)) s.fieldValueArg).map (enc6 s.symTable)) } := by
  simp only [fldEncEffect, widthCheck_iff, hw, not_fitsBuffer_iff, ho, if_false, fieldEncode_of_lt _ hx]

theorem fldDecEffect_of_firstInvalid {j : Nat}
    (h : FirstInvalid s.symTable (s.bufBytes dataBufBase (s.natArg 7) (symbolCount (s.natArg 0))) j) :
    fldDecEffect s = raiseAtSymbol j := by
  simp only [fldDecEffect, widthCheck_iff, hw, not_fitsBuffer_iff, ho, if_false, fieldDecode_of_firstInvalid h]

theorem fldDecEffect_of_ge {gs : List Raw6}
    (h : SymbolsOf s.symTable (s.bufBytes dataBufBase (s.natArg 7) (symbolCount (s.natArg 0))) gs)
    (hv : 2 ^ s.natArg 0 ≤ groupValue gs) : fldDecEffect s = raiseErr .fieldRange := by
  simp only [fldDecEffect, widthCheck_iff, hw, not_fitsBuffer_iff, ho, if_false,
    fieldDecode_of_ge s.symTable_injective h hv]

theorem fldDecEffect_of_fieldReads {x : Nat}
    (h : FieldReads s.symTable (s.natArg 0) (s.bufBytes dataBufBase (s.natArg 7) (symbolCount (s.natArg 0))) x) :
    fldDecEffect s =
      { res := (List.range 6).map (fun i => (i, BitVec.ofNat 8 (x / 256 ^ i)))
          ++ [(6, BitVec.ofNat 8 (symbolCount (s.natArg 0))), (7, 0x00#8)] } := by
  simp only [fldDecEffect, widthCheck_iff, hw, not_fitsBuffer_iff, ho, if_false,
    (fieldDecode_ok_iff s.symTable_injective).2 h, bytesLE, List.map_prod_left_eq_zip]

end FieldEffects

/-- Symbol `i` of an encoded field is that of its six bits (40_symbol_codec.md R125). -/
theorem getElem_map_enc6_splitGroups (t : Vector Byte 64) {k i : Nat} (x : Nat)
    (hi : i < ((splitGroups k x).map (enc6 t)).length) :
    ((splitGroups k x).map (enc6 t))[i] = t[x / 2 ^ (6 * (k - 1 - i)) % 64]'(by omega) := by
  simp [splitGroups, enc6, Nat.pow_mul]

/-- Settles O28: the effect of FLD_ENC, check by check, and the symbols read back from OUT_BUF. -/
theorem fldEncCommand : Obligations.FldEncCommand := by
  intro s w o k x h hw ho hk hx
  rw [← s.snapped_fieldValueArg] at hx
  subst hw ho hk hx
  split_ifs with hw ho hx
  · exact endsWith_of_raiseErr h (fldEncEffect_of_badWidth (s := s.snapped) hw)
  · exact endsWith_of_raiseErr h (fldEncEffect_of_noFit (s := s.snapped) hw ho)
  · exact endsWith_of_raiseErr h (fldEncEffect_of_ge (s := s.snapped) hw ho hx)
  · obtain ⟨t, ht, hran, hres, hbuf, hframe⟩ := exec_of_res0_outBuf h
      (fldEncEffect_of_lt (s := s.snapped) hw ho (not_le.1 hx)) (by rw [List.length_map, splitGroups_length])
    refine ⟨t, ht, hran, hres, fun i hi => ?_, hframe⟩
    exact (t.peek_outBuf (not_lt.1 ho) hi).trans
      ((List.getElem_of_eq hbuf _).trans (getElem_map_enc6_splitGroups s.symTable _ _))

/-- Settles O29: the effect of FLD_DEC, check by check, then by what the symbols of DATA_BUF stand for. -/
theorem fldDecCommand : Obligations.FldDecCommand := by
  intro s w o k h hw ho hk
  subst hw ho hk
  split_ifs with hw ho
  · exact endsWith_of_raiseErr h (fldDecEffect_of_badWidth (s := s.snapped) hw)
  · exact endsWith_of_raiseErr h (fldDecEffect_of_noFit (s := s.snapped) hw ho)
  refine ⟨fun j hj => ?_, fun gs hgs hv => ?_, fun x hx => ?_⟩
  · exact failsAtSymbol_of_raiseAtSymbol h (fldDecEffect_of_firstInvalid (s := s.snapped) hw ho hj)
  · exact endsWith_of_raiseErr h (fldDecEffect_of_ge (s := s.snapped) hw ho hgs hv)
  · have he := fldDecEffect_of_fieldReads (s := s.snapped) hw ho hx
    obtain ⟨t, ht, hr⟩ := exec_ranWithEffect h he rfl
    have hres {i : Nat} (hi : i < 8) {v : Byte} := hr.peek_res (List.nodup_range (n := 8)) hi (v := v)
    refine ⟨t, ht, hr.ran, fun i hi => hres (by omega) (by simp [hi]),
      hres (by omega) (List.mem_append_right _ List.mem_cons_self), hres (by omega) (by simp),
      hr.frame.mono fun a ha => ha.imp_right ?_⟩
    have hbound := (fldDecEffect_inBounds s.snapped).res
    rw [he] at hbound
    rintro (⟨r, hmem, rfl⟩ | ⟨c, hc, -⟩)
    · have := hbound r hmem
      omega
    · simp at hc

/-! ### Strings -/

/-- The count check of STR_ENC (40_symbol_codec.md R135). -/
theorem byteCountCheck_iff (m : Nat) :
    (!(decide (m % 3 = 0) && decide (3 ≤ m) && decide (m ≤ 189))) = true ↔ m % 3 ≠ 0 ∨ m < 3 ∨ 189 < m := by
  simp [or_assoc]

/-- The count check of STR_DEC (40_symbol_codec.md R136). -/
theorem symbolCountCheck_iff (n : Nat) :
    (!(decide (n % 4 = 0) && decide (4 ≤ n) && decide (n ≤ 252))) = true ↔ n % 4 ≠ 0 ∨ n < 4 ∨ 252 < n := by
  simp [or_assoc]

section StrEncEffect

variable {s : State}

theorem strEncEffect_of_badCount (hm : s.natArg 0 % 3 ≠ 0 ∨ s.natArg 0 < 3 ∨ 189 < s.natArg 0) :
    strEncEffect s = raiseErr .badArg :=
  if_pos ((byteCountCheck_iff _).2 hm)

variable (hm : ¬ (s.natArg 0 % 3 ≠ 0 ∨ s.natArg 0 < 3 ∨ 189 < s.natArg 0))
include hm

theorem strEncEffect_of_noFit_source (ha : 256 < s.natArg 1 + s.natArg 0) : strEncEffect s = raiseErr .badArg := by
  simp only [strEncEffect, byteCountCheck_iff, hm, not_fitsBuffer_iff, ha, if_true, if_false]

variable (ha : ¬ 256 < s.natArg 1 + s.natArg 0)
include ha

theorem strEncEffect_of_noFit_destination (hb : 256 < s.natArg 2 + 4 * s.natArg 0 / 3) :
    strEncEffect s = raiseErr .badArg := by
  simp only [strEncEffect, byteCountCheck_iff, hm, not_fitsBuffer_iff, ha, hb, if_true, if_false]

theorem strEncEffect_of_fit (hb : ¬ 256 < s.natArg 2 + 4 * s.natArg 0 / 3) :
    strEncEffect s =
      { res := [(0, BitVec.ofNat 8 (4 * s.natArg 0 / 3))],
        mem := cellsAt (outBufBase + s.natArg 2)
          (stringEncode s.symTable (s.bufBytes dataBufBase (s.natArg 1) (s.natArg 0))) } := by
  simp only [strEncEffect, byteCountCheck_iff, hm, not_fitsBuffer_iff, ha, hb, if_false]

end StrEncEffect

/-- Settles O30: the effect of STR_ENC, check by check, and the symbols read back from OUT_BUF. -/
theorem strEncCommand : Obligations.StrEncCommand := by
  intro s m a b n h hm ha hb hn
  subst hm ha hb hn
  split_ifs with hm ha hb
  · exact endsWith_of_raiseErr h (strEncEffect_of_badCount (s := s.snapped) hm)
  · exact endsWith_of_raiseErr h (strEncEffect_of_noFit_source (s := s.snapped) hm ha)
  · exact endsWith_of_raiseErr h (strEncEffect_of_noFit_destination (s := s.snapped) hm ha hb)
  · obtain ⟨t, ht, hran, hres, hbuf, hframe⟩ := exec_of_res0_outBuf h
      (strEncEffect_of_fit (s := s.snapped) hm ha hb) (by rw [stringEncode_length, State.bufBytes_length])
    have hreads := stringReads_stringEncode s.snapped.symTable
      (bs := s.snapped.bufBytes dataBufBase (s.snapped.natArg 1) (s.snapped.natArg 0))
      (by rw [State.bufBytes_length]; exact not_not.1 (not_or.1 hm).1)
    rw [← hbuf] at hreads
    exact ⟨t, ht, hran, hres, hreads, hframe⟩

/-- A string fails at its first invalid symbol (40_symbol_codec.md R129). -/
theorem stringDecode_of_firstInvalid {t : Vector Byte 64} {ss : List Byte} {j : Nat} (h : FirstInvalid t ss j) :
    stringDecode t ss = .error j := by
  simp [stringDecode, decodeGroups_error_iff.2 h]

theorem StringReads.length_eq {t : Vector Byte 64} (ht : TableInjective t) {ss d : List Byte} (h : StringReads t ss d)
    (hl : ss.length % 4 = 0) : d.length = 3 * ss.length / 4 :=
  stringDecode_length ((stringDecode_ok_iff ht hl).2 h)

section StrDecEffect

variable {s : State}

theorem strDecEffect_of_badCount (hn : s.natArg 0 % 4 ≠ 0 ∨ s.natArg 0 < 4 ∨ 252 < s.natArg 0) :
    strDecEffect s = raiseErr .badArg :=
  if_pos ((symbolCountCheck_iff _).2 hn)

variable (hn : ¬ (s.natArg 0 % 4 ≠ 0 ∨ s.natArg 0 < 4 ∨ 252 < s.natArg 0))
include hn

theorem strDecEffect_of_noFit_source (ha : 256 < s.natArg 1 + s.natArg 0) : strDecEffect s = raiseErr .badArg := by
  simp only [strDecEffect, symbolCountCheck_iff, hn, not_fitsBuffer_iff, ha, if_true, if_false]

variable (ha : ¬ 256 < s.natArg 1 + s.natArg 0)
include ha

theorem strDecEffect_of_noFit_destination (hb : 256 < s.natArg 2 + 3 * s.natArg 0 / 4) :
    strDecEffect s = raiseErr .badArg := by
  simp only [strDecEffect, symbolCountCheck_iff, hn, not_fitsBuffer_iff, ha, hb, if_true, if_false]

variable (hb : ¬ 256 < s.natArg 2 + 3 * s.natArg 0 / 4)
include hb

theorem strDecEffect_of_firstInvalid {j : Nat}
    (h : FirstInvalid s.symTable (s.bufBytes dataBufBase (s.natArg 1) (s.natArg 0)) j) :
    strDecEffect s = raiseAtSymbol j := by
  simp only [strDecEffect, symbolCountCheck_iff, hn, not_fitsBuffer_iff, ha, hb, if_false,
    stringDecode_of_firstInvalid h]

theorem strDecEffect_of_stringReads {out : List Byte}
    (h : StringReads s.symTable (s.bufBytes dataBufBase (s.natArg 1) (s.natArg 0)) out) :
    strDecEffect s =
      { res := [(0, BitVec.ofNat 8 (3 * s.natArg 0 / 4)), (7, 0x00#8)],
        mem := cellsAt (outBufBase + s.natArg 2) out } := by
  have hlen : (s.bufBytes dataBufBase (s.natArg 1) (s.natArg 0)).length % 4 = 0 := by
    rw [State.bufBytes_length]
    omega
  simp only [strDecEffect, symbolCountCheck_iff, hn, not_fitsBuffer_iff, ha, hb, if_false,
    (stringDecode_ok_iff s.symTable_injective hlen).2 h]

end StrDecEffect

/-- Settles O31: the effect of STR_DEC, check by check, then by what the symbols of DATA_BUF stand for. -/
theorem strDecCommand : Obligations.StrDecCommand := by
  intro s n a b m h hn ha hb hm
  subst hn ha hb hm
  split_ifs with hn ha hb
  · exact endsWith_of_raiseErr h (strDecEffect_of_badCount (s := s.snapped) hn)
  · exact endsWith_of_raiseErr h (strDecEffect_of_noFit_source (s := s.snapped) hn ha)
  · exact endsWith_of_raiseErr h (strDecEffect_of_noFit_destination (s := s.snapped) hn ha hb)
  refine ⟨fun j hj => ?_, fun out hout => ?_⟩
  · exact failsAtSymbol_of_raiseAtSymbol h (strDecEffect_of_firstInvalid (s := s.snapped) hn ha hb hj)
  · have hlen := hout.length_eq s.symTable_injective (by rw [State.bufBytes_length]; omega)
    rw [State.bufBytes_length] at hlen
    obtain ⟨t, ht, hr⟩ := exec_ranWithEffect h (strDecEffect_of_stringReads (s := s.snapped) hn ha hb hout) rfl
    have hframe := hr.frame_outBuf rfl
    have hbuf := hr.bufBytes_outBuf rfl
    rw [hlen] at hframe hbuf
    refine ⟨t, ht, hr.ran, hbuf, hr.peek_res (i := 0) (by simp) (by omega) (by simp),
      hr.peek_res (by simp) (by omega) (by simp), hframe.mono fun a ha => by simpa [or_assoc] using ha⟩

end Sys2Proof.Machine

/-! The checksum (41_checksum.md): the CRC command by its operands, and the detection of a single wrong bit. -/

namespace Sys2Proof.Machine

/-! ### The operands of CRC -/

/-- The order operand of CRC has no order when it has a bit other than bit 0 (41_checksum.md R166). -/
theorem crcOrderOf_of_otherBits {b : Byte} (h : b &&& 0xFE#8 ≠ 0x00#8) : crcOrderOf b = none := by
  have h0 : b ≠ 0x00#8 := by
    rintro rfl
    exact h rfl
  have h1 : b ≠ 0x01#8 := by
    rintro rfl
    exact h rfl
  rw [crcOrderOf, if_neg h0, if_neg h1]

/-- Bit 0 of the order operand selects, when it is the only bit that may be set (30_encoding.md R97). -/
theorem crcOrderOf_of_onlyBit0 {b : Byte} (h : b &&& 0xFE#8 = 0x00#8) :
    crcOrderOf b = some (if b.getLsbD 0 then .reflected else .forward) := by
  have hb : b = 0x00#8 ∨ b = 0x01#8 := by
    revert b
    decide
  rcases hb with rfl | rfl <;> rfl

/-- No buffer has a select value above 3 (30_encoding.md R103). -/
theorem crcBufferOf_of_gt {b : Byte} (h : 3 < b.toNat) : crcBufferOf b = none := by
  simpa [crcBufferOf, Nat.succ_le_iff] using h

/-- The buffers that the select values 0 to 3 stand for (30_encoding.md R103). -/
theorem crcBufferOf_of_le {b : Byte} (h : ¬ 3 < b.toNat) :
    crcBufferOf b = some (if b = 0x00#8 then 0x300 else if b = 0x01#8 then 0x100 else if b = 0x02#8 then 0x200
      else 0x600) := by
  have hb : b.toNat = (0x00#8).toNat ∨ b.toNat = (0x01#8).toNat ∨ b.toNat = (0x02#8).toNat ∨
      b.toNat = (0x03#8).toNat := by
    simp only [BitVec.toNat_ofNat]
    omega
  simp only [BitVec.toNat_inj] at hb
  rcases hb with rfl | rfl | rfl | rfl <;> rfl

/-! ### The CRC command -/

section CrcEffect

variable {s : State}

theorem crcEffect_of_badOrder (ho : crcOrderOf (s.byteArg 1) = none) : crcEffect s = raiseErr .badArg := by
  simp only [crcEffect, ho]

variable {order : CrcOrder} (ho : crcOrderOf (s.byteArg 1) = some order)
include ho

theorem crcEffect_of_badBuffer (hb : crcBufferOf (s.byteArg 2) = none) : crcEffect s = raiseErr .badArg := by
  simp only [crcEffect, ho, hb]

variable {base : Nat} (hb : crcBufferOf (s.byteArg 2) = some base)
include hb

theorem crcEffect_of_noFit (hr : 256 < s.natArg 3 + s.natArg 4) : crcEffect s = raiseErr .badArg := by
  simp only [crcEffect, ho, hb, not_fitsBuffer_iff, hr, if_true]

theorem crcEffect_of_fit (hr : ¬ 256 < s.natArg 3 + s.natArg 4) :
    crcEffect s =
      { res := [(0, crc8 s.params.crcPoly (s.byteArg 0) order (s.bufBytes base (s.natArg 3) (s.natArg 4)))] } := by
  simp only [crcEffect, ho, hb, not_fitsBuffer_iff, hr, if_false]
  rfl

end CrcEffect

/-- Settles O36: the effect of CRC, check by check, and the checksum in RES0. -/
theorem crcCommand : Obligations.CrcCommand := by
  intro s base a n h ha hn hbase
  subst ha hn
  generalize hmode : (if s.arg[1].getLsbD 0 then CrcOrder.reflected else .forward) = order
  split_ifs with ho hb hr
  · exact endsWith_of_raiseErr h (crcEffect_of_badOrder (s := s.snapped) (crcOrderOf_of_otherBits ho))
  all_goals
    have horder := crcOrderOf_of_onlyBit0 (not_not.1 ho)
    rw [hmode] at horder
  · exact endsWith_of_raiseErr h (crcEffect_of_badBuffer (s := s.snapped) horder (crcBufferOf_of_gt hb))
  all_goals
    have hbuffer := crcBufferOf_of_le hb
    rw [← hbase] at hbuffer
  · exact endsWith_of_raiseErr h (crcEffect_of_noFit (s := s.snapped) horder hbuffer hr)
  · exact exec_of_res0 h (crcEffect_of_fit (s := s.snapped) horder hbuffer hr)

/-- Settles O37: the empty string leaves the register at its initial value. -/
theorem crcOfNothingIsTheInitialValue : Obligations.CrcOfNothingIsTheInitialValue := fun _ _ _ => rfl

/-! ### The register as a polynomial

The register stands for a polynomial over the field of two elements. A step multiplies it by `X` modulo
`X ^ 8 + poly`, so a difference of one bit stays a power of `X`; and a power of `X` is only 0 modulo `X ^ 8` itself,
that is, for the polynomial 0x00. -/

section Polynomial

open Polynomial

/-- The polynomial of a byte, bit `i` the coefficient of `X ^ i`. -/
noncomputable def bytePoly (r : Byte) : (ZMod 2)[X] := ∑ i : Fin 8, C ((r.getLsbD i).toNat : ZMod 2) * X ^ i.val

/-- The polynomial a register stands for: in the reflected order its top bit is the constant term. -/
noncomputable def registerPoly : CrcOrder → Byte → (ZMod 2)[X]
  | .forward, r => bytePoly r
  | .reflected, r => bytePoly r.reverse

/-- The polynomial by which the register is divided; CRC_POLY leaves out its top term (41_checksum.md R160). -/
noncomputable def crcModulus (poly : Byte) : (ZMod 2)[X] := X ^ 8 + bytePoly poly

theorem degree_bytePoly_lt (r : Byte) : (bytePoly r).degree < (8 : ℕ) := degree_sum_fin_lt _

theorem coeff_bytePoly (r : Byte) {i : Nat} (h : i < 8) : (bytePoly r).coeff i = ((r.getLsbD i).toNat : ZMod 2) := by
  have hi (j : Fin 8) : i = j.val ↔ j = ⟨i, h⟩ := by
    rw [Fin.ext_iff, eq_comm]
  simp [bytePoly, coeff_X_pow, hi, BitVec.getLsbD_eq_getElem h]

theorem eq_zero_of_bytePoly_eq_zero {r : Byte} (h : bytePoly r = 0) : r = 0x00#8 := by
  refine BitVec.eq_of_getLsbD_eq fun i hi => ?_
  have hc := coeff_bytePoly r hi
  rw [h, coeff_zero] at hc
  cases hb : r.getLsbD i
  · simp
  · simp [hb] at hc

/-- XOR adds polynomials. -/
theorem bytePoly_xor (r u : Byte) : bytePoly (r ^^^ u) = bytePoly r + bytePoly u := by
  have hbit (x y : Bool) : ((x ^^ y).toNat : ZMod 2) = (x.toNat : ZMod 2) + (y.toNat : ZMod 2) := by
    revert x y
    decide
  simp only [bytePoly, BitVec.getLsbD_xor, hbit, C_add, add_mul, Finset.sum_add_distrib]

/-- A shift to the left multiplies by `X` and loses bit 7. -/
theorem bytePoly_shiftLeft_one (r : Byte) :
    bytePoly (r <<< 1) + C ((r.getLsbD 7).toNat : ZMod 2) * X ^ 8 = X * bytePoly r := by
  have hlow : (r <<< 1).getLsbD 0 = false := by simp
  have hmove (i : Fin 7) : (r <<< 1).getLsbD (i.val + 1) = r.getLsbD i := by
    rw [BitVec.getLsbD_shiftLeft]
    simp [show i.val + 1 < 8 by omega]
  rw [bytePoly, bytePoly, Fin.sum_univ_succ, Fin.sum_univ_castSucc (n := 7), mul_add, Finset.mul_sum]
  simp only [Fin.val_zero, Fin.val_succ, Fin.val_castSucc, Fin.val_last, hlow, hmove, Bool.toNat_false, Nat.cast_zero,
    C_0, zero_mul, zero_add, mul_left_comm X, ← pow_succ']

/-- One set bit is a power of `X`. -/
theorem bytePoly_oneBit {i : Nat} (h : i < 8) : bytePoly (0x01#8 <<< i) = X ^ i := by
  interval_cases i <;> simp [bytePoly, Fin.sum_univ_eight]

theorem crcModulus_monic (poly : Byte) : (crcModulus poly).Monic := monic_X_pow_add (degree_bytePoly_lt poly)

theorem natDegree_crcModulus (poly : Byte) : (crcModulus poly).natDegree = 8 := by
  refine natDegree_eq_of_degree_eq_some ?_
  rw [crcModulus, degree_add_eq_left_of_degree_lt, degree_X_pow, Nat.cast_ofNat]
  simpa using degree_bytePoly_lt poly

/-- A power of `X` is 0 modulo no polynomial but `X ^ 8`. -/
theorem not_crcModulus_dvd_X_pow {poly : Byte} (h : poly ≠ 0x00#8) (n : Nat) : ¬ crcModulus poly ∣ X ^ n := by
  intro hdvd
  obtain ⟨k, -, hk⟩ := (dvd_prime_pow prime_X n).1 hdvd
  have heq : crcModulus poly = X ^ k := eq_of_monic_of_associated (crcModulus_monic poly) (monic_X_pow k) hk
  have hk8 : k = 8 := by rw [← natDegree_crcModulus poly, heq, natDegree_X_pow]
  rw [hk8, crcModulus, add_eq_left] at heq
  exact h (eq_zero_of_bytePoly_eq_zero heq)

/-! ### Mirrored registers -/

theorem byte_reverse_xor (r u : Byte) : (r ^^^ u).reverse = r.reverse ^^^ u.reverse :=
  BitVec.eq_of_getLsbD_eq fun i hi => by simp [BitVec.getLsbD_reverse]

theorem byte_reverse_shiftRight_one (r : Byte) : (r >>> 1).reverse = r.reverse <<< 1 := by
  refine BitVec.eq_of_getLsbD_eq fun i hi => ?_
  rw [BitVec.getLsbD_reverse, BitVec.getMsbD_ushiftRight, BitVec.getLsbD_shiftLeft, BitVec.getLsbD_reverse]
  by_cases h1 : i < 1
  · simp [h1]
  · simp [h1, hi]

theorem byte_reverse_reverse (r : Byte) : r.reverse.reverse = r :=
  BitVec.eq_of_getMsbD_eq fun i hi => by rw [BitVec.getMsbD_reverse, BitVec.getLsbD_reverse]

/-- The reflected register steps as the mirror image of the forward one (41_checksum.md R161). -/
theorem reverse_crcBit_reflected (poly r : Byte) :
    (crcBit poly .reflected r).reverse = crcBit poly .forward r.reverse := by
  have htop : r.reverse.getLsbD 7 = r.getLsbD 0 := BitVec.getLsbD_reverse
  rw [crcBit, crcBit, crcBitReflected, crcBitForward, htop]
  split
  · rw [byte_reverse_xor, byte_reverse_shiftRight_one, byte_reverse_reverse]
  · rw [byte_reverse_shiftRight_one]

/-- One set bit stands for a power of `X` in both orders. -/
theorem exists_registerPoly_oneBit (order : CrcOrder) {i : Nat} (h : i < 8) :
    ∃ k, registerPoly order (0x01#8 <<< i) = X ^ k := by
  cases order with
  | forward => exact ⟨i, bytePoly_oneBit h⟩
  | reflected =>
    have hmirror : (0x01#8 <<< i).reverse = 0x01#8 <<< (7 - i) := by
      interval_cases i <;> rfl
    exact ⟨7 - i, (congrArg bytePoly hmirror).trans (bytePoly_oneBit (by omega))⟩

theorem registerPoly_xor (order : CrcOrder) (r u : Byte) :
    registerPoly order (r ^^^ u) = registerPoly order r + registerPoly order u := by
  cases order with
  | forward => exact bytePoly_xor r u
  | reflected => exact (congrArg bytePoly (byte_reverse_xor r u)).trans (bytePoly_xor _ _)

/-- A step of the forward register multiplies by `X` and takes the modulus off when bit 7 was set
(41_checksum.md R160). -/
theorem bytePoly_crcBit_forward (poly r : Byte) :
    bytePoly (crcBit poly .forward r) + C ((r.getLsbD 7).toNat : ZMod 2) * crcModulus poly = X * bytePoly r := by
  rw [← bytePoly_shiftLeft_one, crcBit, crcBitForward, crcModulus]
  cases r.getLsbD 7 with
  | false => simp
  | true =>
    simp only [if_true, bytePoly_xor, Bool.toNat_true, Nat.cast_one, C_1]
    linear_combination CharTwo.add_self_eq_zero (bytePoly poly)

/-! ### The register as a residue -/

/-- The residue of a register modulo the polynomial of the checksum. -/
noncomputable def registerResidue (poly : Byte) (order : CrcOrder) (r : Byte) : AdjoinRoot (crcModulus poly) :=
  AdjoinRoot.mk (crcModulus poly) (registerPoly order r)

theorem registerResidue_xor (poly : Byte) (order : CrcOrder) (r u : Byte) :
    registerResidue poly order (r ^^^ u) = registerResidue poly order r + registerResidue poly order u := by
  rw [registerResidue, registerPoly_xor, map_add, registerResidue, registerResidue]

theorem registerResidue_crcBit (poly : Byte) (order : CrcOrder) (r : Byte) :
    registerResidue poly order (crcBit poly order r) =
      AdjoinRoot.root (crcModulus poly) * registerResidue poly order r := by
  have hforward (u : Byte) : registerResidue poly .forward (crcBit poly .forward u) =
      AdjoinRoot.root (crcModulus poly) * registerResidue poly .forward u := by
    simpa [registerResidue, registerPoly] using
      congrArg (AdjoinRoot.mk (crcModulus poly)) (bytePoly_crcBit_forward poly u)
  cases order with
  | forward => exact hforward r
  | reflected =>
    exact (congrArg (registerResidue poly .forward) (reverse_crcBit_reflected poly r)).trans (hforward r.reverse)

theorem registerResidue_repeat_crcBit (poly : Byte) (order : CrcOrder) (n : Nat) (r : Byte) :
    registerResidue poly order (Nat.repeat (crcBit poly order) n r) =
      AdjoinRoot.root (crcModulus poly) ^ n * registerResidue poly order r := by
  induction n with
  | zero => rw [pow_zero, one_mul, Nat.repeat]
  | succ n ih => rw [Nat.repeat, registerResidue_crcBit, ih, pow_succ', mul_assoc]

theorem registerResidue_crcByte (poly : Byte) (order : CrcOrder) (r b : Byte) :
    registerResidue poly order (crcByte poly order r b) =
      AdjoinRoot.root (crcModulus poly) ^ 8 * (registerResidue poly order r + registerResidue poly order b) := by
  rw [crcByte, registerResidue_repeat_crcBit, registerResidue_xor]

/-- The same bytes after two registers multiply the difference of the registers by a power of `X`. -/
theorem registerResidue_crc8_sub (poly : Byte) (order : CrcOrder) (d : List Byte) (r u : Byte) :
    registerResidue poly order (crc8 poly r order d) - registerResidue poly order (crc8 poly u order d) =
      AdjoinRoot.root (crcModulus poly) ^ (8 * d.length) *
        (registerResidue poly order r - registerResidue poly order u) := by
  induction d generalizing r u with
  | nil => simp [crc8]
  | cons b d ih =>
    rw [crc8_cons, crc8_cons, ih, registerResidue_crcByte, registerResidue_crcByte, List.length_cons]
    ring

theorem root_pow_ne_zero {poly : Byte} (h : poly ≠ 0x00#8) (n : Nat) :
    AdjoinRoot.root (crcModulus poly) ^ n ≠ 0 := by
  rw [← AdjoinRoot.mk_X, ← map_pow, Ne, AdjoinRoot.mk_eq_zero]
  exact not_crcModulus_dvd_X_pow h n

end Polynomial

/-- Settles O38: the two checksums differ by a power of `X`, which is not 0 modulo the polynomial. -/
theorem crcCatchesEverySingleBitFlip : Obligations.CrcCatchesEverySingleBitFlip := by
  intro poly c0 order before after b i hpoly hi heq
  obtain ⟨k, hk⟩ := exists_registerPoly_oneBit order hi
  have hbit : registerResidue poly order (0x01#8 <<< i) = AdjoinRoot.root (crcModulus poly) ^ k := by
    rw [registerResidue, hk, map_pow, AdjoinRoot.mk_X]
  rw [crc8_append, crc8_append, crc8_cons, crc8_cons] at heq
  generalize crc8 poly c0 order before = r at heq
  have hdiff := registerResidue_crc8_sub poly order after
    (crcByte poly order r (b ^^^ 0x01#8 <<< i)) (crcByte poly order r b)
  rw [heq, sub_self, registerResidue_crcByte, registerResidue_crcByte, registerResidue_xor, hbit] at hdiff
  refine root_pow_ne_zero hpoly (8 * after.length + 8 + k) ?_
  rw [hdiff]
  ring

end Sys2Proof.Machine

/-! What no command writes (42_pipeline.md R182, 10_state.md R56, R59): its inputs. -/

namespace Sys2Proof.Machine

/-- From `s` to `t` every input of a command is kept: the counts, PKT_LEN, IN_FLAGS, ARG, and each byte of PKT_BUF,
DATA_BUF, KEYRING and INV_KEYRING (10_state.md section 5). -/
structure InputsKept (s t : State) : Prop where
  keyCount : t.keyCount = s.keyCount
  invKeyCount : t.invKeyCount = s.invKeyCount
  pktLen : t.pktLen = s.pktLen
  inFlags : t.inFlags = s.inFlags
  arg : t.arg = s.arg
  bytes : ∀ a, (0x100 ≤ a ∧ a < 0x200) ∨ (0x300 ≤ a ∧ a < 0x600) → t.peek a = s.peek a

namespace InputsKept

variable {s t u : State}

theorem trans (hst : InputsKept s t) (htu : InputsKept t u) : InputsKept s u where
  keyCount := htu.keyCount.trans hst.keyCount
  invKeyCount := htu.invKeyCount.trans hst.invKeyCount
  pktLen := htu.pktLen.trans hst.pktLen
  inFlags := htu.inFlags.trans hst.inFlags
  arg := htu.arg.trans hst.arg
  bytes a ha := (htu.bytes a ha).trans (hst.bytes a ha)

/-- The same registers and the same memory keep the inputs. -/
theorem of_mem_eq (hk : t.keyCount = s.keyCount) (hi : t.invKeyCount = s.invKeyCount) (hl : t.pktLen = s.pktLen)
    (hf : t.inFlags = s.inFlags) (ha : t.arg = s.arg) (hm : t.mem = s.mem) (he : t.epoch = s.epoch) :
    InputsKept s t := by
  refine ⟨hk, hi, hl, hf, ha, fun a hin => ?_⟩
  rw [State.peek_buffer _ _ (by omega), State.peek_buffer _ _ (by omega), State.readByte_congr hm he]

end InputsKept

/-- A completion keeps the inputs: its bytes lie in PLD_BUF and OUT_BUF. -/
theorem State.finish_inputsKept (s : State) : InputsKept s s.finish := by
  refine ⟨rfl, rfl, rfl, rfl, rfl, fun a hin => ?_⟩
  have hmem : Memory.read? s.finish.mem a = Memory.read? s.mem a := by
    rw [State.finish_mem]
    refine Memory.read?_writeAll_other _ _ _ fun c hc => ?_
    have := (effectOf_inBounds s.seqOp s).mem c hc
    omega
  rw [State.peek_buffer _ _ (by omega), State.peek_buffer _ _ (by omega), State.readByte, State.readByte, hmem,
    State.finish_epoch]

/-- The sequencer's part of a step keeps the inputs. -/
theorem State.tick_inputsKept (s : State) : InputsKept s s.tick := by
  rcases s.tick_cases with ⟨-, e⟩ | ⟨-, -, e⟩ | ⟨n, -, -, e⟩
  · rw [e]
    exact .of_mem_eq rfl rfl rfl rfl rfl rfl rfl
  · exact e ▸ s.finish_inputsKept
  · exact e ▸ .of_mem_eq rfl rfl rfl rfl rfl rfl rfl

/-- A write to CMD keeps the inputs, whether it is dropped, starts a command, or runs one. -/
theorem State.hostCommand_inputsKept (s : State) (op : Byte) : InputsKept s (s.hostCommand op) := by
  rcases s.hostCommand_cases op with ⟨-, e⟩ | ⟨-, -, e⟩ | ⟨n, -, -, e⟩
  · exact e ▸ .of_mem_eq rfl rfl rfl rfl rfl rfl rfl
  · have hstart : InputsKept s { s.startCommand op with left := 0 } := .of_mem_eq rfl rfl rfl rfl rfl rfl rfl
    exact e ▸ hstart.trans (State.finish_inputsKept _)
  · exact e ▸ .of_mem_eq rfl rfl rfl rfl rfl rfl rfl

/-- A transaction that is no plain write keeps the inputs. -/
theorem exec_inputsKept {i : Instr} {s t : State} (h : exec i s = .next t) (hw : ∀ a d, i ≠ .hostWr a d) :
    InputsKept s t := by
  rcases exec_cases h with ⟨op, rfl⟩ | ⟨a, d, -, hr⟩ | ⟨a, d, hi, -⟩ | ⟨a, d, hi, -⟩
  · exact s.hostCommand_inputsKept op
  · rcases execHostRd_cases s a d with ⟨-, -, e⟩ | ⟨-, e⟩ <;>
      · cases e.symm.trans hr
        exact .of_mem_eq rfl rfl rfl rfl rfl rfl rfl
  · exact absurd hi (hw a d)
  · exact absurd hi (hw a d)

/-- A step without reset and plain write keeps the inputs. -/
theorem step_inputsKept {s t : State} (h : step s = .next t) (hr : ¬ ResetInStep s)
    (hw : ∀ a d, ¬ HostWriteInStep s a d) : InputsKept s t := by
  rcases step_cases h with ⟨-, rfl⟩ | ⟨w, rest, -, -, rfl⟩ | ⟨w, rest, hp, hpin, he⟩ | ⟨rest, hp, -⟩ | ⟨rest, -, rfl⟩
  · exact s.tick_inputsKept
  · exact .of_mem_eq rfl rfl rfl rfl rfl rfl rfl
  · have hport : InputsKept s { s with port := rest } := .of_mem_eq rfl rfl rfl rfl rfl rfl rfl
    have hno : ∀ a d, decode w ≠ .hostWr a d := fun a d hd => hw a d ⟨w, rest, hp, hpin, hd⟩
    exact (hport.trans (State.tick_inputsKept _)).trans (exec_inputsKept he hno)
  · exact absurd ⟨rest, hp⟩ hr
  · exact .of_mem_eq rfl rfl rfl rfl rfl rfl rfl

/-- Settles O55: the sequencer and every transaction but a plain write keep the inputs. -/
theorem commandsNeverWriteTheirInputs : Obligations.CommandsNeverWriteTheirInputs := by
  refine ⟨fun s t op h => ?_, fun s t h hr hw => ?_⟩
  · cases (exec_command op s).symm.trans h
    obtain ⟨hkey, hinv, hlen, hflags, harg, hbytes⟩ := s.hostCommand_inputsKept op
    exact ⟨hkey, hinv, hlen, hflags, harg, hbytes⟩
  · obtain ⟨hkey, hinv, hlen, hflags, harg, hbytes⟩ := step_inputsKept h hr hw
    exact ⟨hkey, hinv, hlen, hflags, harg, hbytes⟩

end Sys2Proof.Machine

/-! PKT_PROC as a command (42_pipeline.md R182, R205): what it reads, the state it leaves, and its second run. -/

namespace Sys2Proof.Machine

/-! ### What PKT_PROC reads -/

/-- The header fields and the bytes of HCRC_COVER lie in the header (00_scope.md R8). -/
theorem Config.header_constraints (c : Config) :
    (∀ f : HdrField, f.offset c.params + symbolCount f.width ≤ c.params.hdrEncLen) ∧
      ∀ o ∈ c.params.hcrcCover, o < c.params.hdrEncLen := by
  have hl := c.legal
  simp only [Params.legal, Bool.and_eq_true, and_assoc] at hl
  obtain ⟨-, -, -, hfields, -, hcover, -⟩ := hl
  simp only [Params.headerFields, List.all_cons, List.all_nil, Bool.and_eq_true, decide_eq_true_eq] at hfields
  obtain ⟨hrptr, hhcrc, hdst, hnid, hsrc, hpid, -⟩ := hfields
  refine ⟨fun f => ?_, fun o ho => ?_⟩
  · cases f <;> assumption
  · have h := List.all_eq_true.1 hcover o ho
    simp only [Bool.and_eq_true, decide_eq_true_eq] at h
    exact h.1

/-- An admitted packet holds its header (42_pipeline.md R185). -/
theorem PacketAdmitted.header_fits {s : State} (ha : PacketAdmitted s) {n : Nat} (hn : n ≤ s.params.hdrEncLen) :
    n ≤ 256 := by
  obtain ⟨-, -, hlen⟩ := ha
  have := s.pktLen.isLt
  omega

/-- A packet that goes on after stage 4 has the length its PID implies (42_pipeline.md R193). -/
theorem stage4_length {s : State} {k : Kind} {p q : PipeRun} (h : stage4 s k p = (q, true)) :
    s.pktLen.toNat = expectedLen s.params k q.regs.mh := by
  unfold stage4 at h
  dsimp only at h
  split at h
  · cases h
    assumption
  · cases h

/-- What PKT_PROC reads: the parameters, its four input registers, and the bytes of every buffer but PLD_BUF, which it
writes (42_pipeline.md R205(a)). -/
structure SamePacketInputs (s t : State) : Prop where
  params : t.params = s.params
  pktLen : t.pktLen = s.pktLen
  inFlags : t.inFlags = s.inFlags
  keyCount : t.keyCount = s.keyCount
  invKeyCount : t.invKeyCount = s.invKeyCount
  readByte : ∀ a, a < 0x200 ∨ 0x300 ≤ a → t.readByte a = s.readByte a

namespace SamePacketInputs

variable {s t : State} (h : SamePacketInputs s t)
include h

theorem symTable : t.symTable = s.symTable := congrArg Params.symTable h.params

theorem pktBytes {off n : Nat} (hfit : off + n ≤ 256) : t.pktBytes off n = s.pktBytes off n := by
  refine List.map_congr_left fun i hi => h.readByte _ (.inl ?_)
  have := List.mem_range.1 hi
  simp only [pktBufBase]
  omega

theorem pktField {w off : Nat} (hfit : off + symbolCount w ≤ 256) : t.pktField w off = s.pktField w off := by
  rw [State.pktField, State.pktField, h.symTable, h.pktBytes hfit]

theorem ringKey (k : Kind) (i : Nat) : t.ringKey k i = s.ringKey k i := by
  refine List.map_congr_left fun j _ => h.readByte _ (.inr ?_)
  have : 0x400 ≤ ringBase k := by
    unfold ringBase
    split <;> decide
  omega

theorem ringCount (k : Kind) : t.ringCount k = s.ringCount k := by
  rw [State.ringCount, State.ringCount, h.keyCount, h.invKeyCount]

theorem stage0 : stage0Abort t = stage0Abort s := by
  simp only [stage0Abort, h.pktLen, h.inFlags, h.params]

/-- The keys lie outside PLD_BUF, so trial decryption finds the same. -/
theorem stage7 : stage7 t = stage7 s := by
  have hpt : t.plaintext = s.plaintext := by
    funext k ct i
    rw [State.plaintext, State.plaintext, h.params, h.ringKey]
  have hloop : trialLoop t = trialLoop s := by
    funext k ct is
    induction is with
    | nil => rfl
    | cons i is ih =>
      funext p
      simp only [trialLoop, hpt, h.params, ih]
  funext k d p
  simp only [Machine.stage7, h.params, hloop, h.ringCount]

theorem runPayload : runPayload t = runPayload s := by
  funext k d p
  simp only [Machine.runPayload, h.stage7, stage8, h.params]

section Admitted

variable (ha : PacketAdmitted s)
include ha

theorem hdrValue : t.hdrValue = s.hdrValue := by
  funext f
  rw [State.hdrValue, State.hdrValue, h.params]
  exact h.pktField (ha.header_fits ((Config.header_constraints s.cfg).1 f))

theorem hdrCrc : t.hdrCrc = s.hdrCrc := by
  rw [State.hdrCrc, State.hdrCrc, h.params]
  congr 1
  refine List.map_congr_left fun o ho => h.readByte _ (.inl ?_)
  have := ha.header_fits ((Config.header_constraints s.cfg).2 o ho)
  simp only [pktBufBase]
  omega

theorem stage1 : stage1 t = stage1 s := by
  have herr : t.hdrFieldErr = s.hdrFieldErr := by simp only [State.hdrFieldErr, h.hdrValue ha]
  have hreg : @State.hdrReg t = @State.hdrReg s := by
    funext f n
    simp only [State.hdrReg, h.hdrValue ha]
  funext p
  rw [Machine.stage1, Machine.stage1, herr, hreg]

theorem stage2 : stage2 t = stage2 s := by
  funext p
  rw [Machine.stage2, Machine.stage2, h.hdrCrc ha]

end Admitted

theorem stage3 : stage3 t = stage3 s := by
  funext p
  simp only [Machine.stage3, State.pidKind, h.params]

theorem stage4 : stage4 t = stage4 s := by
  funext k p
  simp only [Machine.stage4, h.pktLen, h.params]

/-- Stages 5 to 8 of a packet that has the length its PID implies. -/
theorem runClassified {k : Kind} {p : PipeRun} (hlen : s.pktLen.toNat = expectedLen s.params k p.regs.mh) :
    runClassified t k p = runClassified s k p := by
  have hlt := s.pktLen.isLt
  unfold expectedLen at hlen
  have h5 : stage5 t k p = stage5 s k p := by
    unfold Machine.stage5
    split
    case isTrue hmh =>
      rw [hmh, if_pos rfl] at hlen
      rw [h.params, h.pktField (by unfold symbolCount; omega)]
    case isFalse => rfl
  have h6 : stage6 t k = stage6 s k := by
    funext q
    rw [Machine.stage6, Machine.stage6, h.params, h.symTable, h.pktBytes (by split at hlen <;> omega)]
  simp only [Machine.runClassified, h5, h6, h.runPayload]

/-- Stages 1 to 8 of an admitted packet. -/
theorem runStages (ha : PacketAdmitted s) : runStages t = runStages s := by
  funext p
  simp only [Machine.runStages, h.stage1 ha, h.stage2 ha, h.stage3, h.stage4]
  rcases Machine.stage3 s _ with ⟨q, _ | k⟩
  · rfl
  · rcases hr : Machine.stage4 s k q with ⟨r, _ | _⟩
    · simp only [hr]
    · simp only [hr, h.runClassified (stage4_length hr)]

/-- PKT_PROC depends on what it reads (42_pipeline.md R205(a)). -/
theorem effect : pktProcEffect t = pktProcEffect s := by
  unfold pktProcEffect
  rw [h.stage0]
  cases h0 : stage0Abort s with
  | some e => rfl
  | none => simp only [h.runStages ((stage0Abort_none_iff s).1 h0)]

end SamePacketInputs

/-! ### The state PKT_PROC leaves -/

/-- PKT_PROC writes consecutive bytes of PLD_BUF from its first on, or none (42_pipeline.md section 2). -/
theorem PktPath.mem_eq {s : State} {e : Effect} (h : PktPath s e) :
    ∃ out, e.mem = cellsAt pldBufBase out ∧ out.length ≤ 256 := by
  cases h with
  | aborted => exact ⟨[], rfl, by simp⟩
  | unclassified => exact ⟨[], rfl, by simp⟩
  | badLength => exact ⟨[], rfl, by simp⟩
  | classified p q out pid k hc h3 hm h5 =>
    refine ⟨out, rfl, ?_⟩
    have hout := h5.out_length
    have hlen := hc.2
    have := s.pktLen.isLt
    split at hlen <;> omega

/-- PKT_PROC always has pipeline results. -/
theorem PktPath.pipe_isSome {s : State} {e : Effect} (h : PktPath s e) : e.pipe.isSome := by cases h <;> rfl

/-- PKT_PROC has no argument, so its effect is that of the state as it stands. -/
theorem State.effectNow_pktProc (s : State) : s.effectNow 0x10#8 = pktProcEffect s :=
  SamePacketInputs.effect (s := s) (t := s.snapped) ⟨rfl, rfl, rfl, rfl, rfl, fun _ _ => rfl⟩

/-- PKT_PROC with effect `e` ran from `s` to `t` in one transaction: its booking, its writes, what it keeps, and its
frame (43_control.md R242, R243, 42_pipeline.md R182). -/
structure PktProcRan (e : Effect) (s t : State) : Prop where
  ran : CommandRan 0x10#8 e.err.code s t
  status : t.status = statusComplete (statusStart s.status) e.err.code
  pipe : some t.pipe = e.pipe.map PipeRun.regs
  mem : t.mem = Memory.writeAll s.mem e.mem
  inputs : SamePacketInputs s t
  frame : SameMapExcept
    (fun a => isCommandReg a ∨ (∃ c ∈ e.mem, a = c.1) ∨ (0x020 ≤ a ∧ a < 0x044)) s t

/-- PKT_PROC answers a next state (42_pipeline.md R211). -/
theorem exec_pktProc {s : State} (h : Prompt 0x10#8 s) :
    ∃ t, exec .pktProc s = .next t ∧ PktProcRan (pktProcEffect s) s t := by
  have heff := s.effectNow_pktProc
  have hpath := pktProc_path s
  refine ⟨_, rfl, heff ▸ commandRan_prompt h, ?_, ?_, ?_, ?_, (sameMap_prompt h).mono fun a ha => ?_⟩
  · rw [hostCommand_prompt h, heff]
  · obtain ⟨p, hp⟩ := Option.isSome_iff_exists.1 hpath.pipe_isSome
    rw [hostCommand_prompt h, heff, hp]
    rfl
  · rw [hostCommand_prompt h, heff]
  · obtain ⟨out, hmem, hlen⟩ := hpath.mem_eq
    rw [hostCommand_prompt h, heff, hmem]
    refine ⟨rfl, rfl, rfl, rfl, rfl, fun a ha => ?_⟩
    simp only [State.readByte]
    rw [Memory.read?_writeAll_other]
    intro c hc
    have := mem_cellsAt hc
    simp only [pldBufBase] at this
    omega
  · rw [heff, pktProcEffect_res] at ha
    refine ha.imp_right fun ha => ?_
    rcases ha with ⟨w, hw, -⟩ | hcell | ⟨-, hpipe⟩
    · cases hw
    · exact .inl hcell
    · exact .inr hpipe

/-! ### PKT_PROC twice -/

/-- Writing the same consecutive bytes twice is writing them once. -/
theorem Memory.read?_writeAll_cellsAt_twice (addr : Nat) (bs : List Byte) (m : Memory) (b : Nat) :
    Memory.read? (Memory.writeAll (Memory.writeAll m (cellsAt addr bs)) (cellsAt addr bs)) b =
      Memory.read? (Memory.writeAll m (cellsAt addr bs)) b := by
  simp only [Memory.read?_writeAll_cellsAt]
  split <;> rfl

/-- A second completion with the same code shows the same STATUS (43_control.md R242, R243). -/
theorem statusComplete_twice (st code : Byte) :
    statusComplete (statusStart (statusComplete (statusStart st) code)) code &&& 0x0F#8 =
      statusComplete (statusStart st) code &&& 0x0F#8 := by
  unfold statusComplete
  split <;> (revert st; decide)

/-- Settles O52: the first run keeps what PKT_PROC reads, so that the second has the same effect and writes over its own
results. -/
theorem pktProcTwiceIsPktProcOnce : Obligations.PktProcTwiceIsPktProcOnce := by
  intro s h
  obtain ⟨t, ht, hfirst⟩ := exec_pktProc h
  refine ⟨t, ht, fun hprompt => ?_⟩
  obtain ⟨u, hu, hsecond⟩ := exec_pktProc hprompt
  rw [hfirst.inputs.effect] at hsecond
  refine ⟨u, hu, fun a ha => ?_⟩
  by_cases hwritten : isCommandReg a ∨ (∃ c ∈ (pktProcEffect s).mem, a = c.1) ∨ (0x020 ≤ a ∧ a < 0x044)
  case neg => exact hsecond.frame a ha hwritten
  rcases hwritten with (rfl | rfl | rfl) | ⟨c, hc, rfl⟩ | ⟨hlo, hhi⟩
  · exact hsecond.ran.cmd.trans hfirst.ran.cmd.symm
  · change u.status &&& 0x0F#8 = t.status &&& 0x0F#8
    rw [hsecond.status, hfirst.status, statusComplete_twice]
  · exact hsecond.ran.errCode.trans hfirst.ran.errCode.symm
  · obtain ⟨out, hmem, hlen⟩ := (pktProc_path s).mem_eq
    have hin := mem_cellsAt (hmem ▸ hc)
    simp only [pldBufBase] at hin
    rw [State.peek_buffer _ _ (by omega), State.peek_buffer _ _ (by omega), State.readByte, State.readByte,
      hsecond.ran.pins.epoch, hsecond.mem, hfirst.mem, hmem, Memory.read?_writeAll_cellsAt_twice]
  · have hpipe : u.pipe = t.pipe := Option.some.inj (hsecond.pipe.trans hfirst.pipe.symm)
    rw [State.peek_register _ _ hhi, State.peek_register _ _ hhi, hpipe, if_neg (by omega), if_neg (by omega),
      if_neg (by omega), if_neg (by omega), if_neg (by omega), if_neg (by omega)]

end Sys2Proof.Machine

/-! The stages of PKT_PROC as steps of its working record (42_pipeline.md sections 3 to 12): what each stage keeps of
the stages before it, and which record each kind of packet ends with. -/

namespace Sys2Proof.Machine

/-! ### Bits of FLAGS and FIELD_ERR -/

/-- Setting a bit does not show under a mask without it. -/
theorem setBit_and {b m : Byte} {i : Nat} (hi : i < 8) (hm : m.getLsbD i = false) : setBit b i &&& m = b &&& m := by
  refine BitVec.eq_of_getLsbD_eq fun j hj => ?_
  rw [BitVec.getLsbD_and, BitVec.getLsbD_and, setBit_getLsbD b i j hi hj]
  by_cases hij : i = j
  · simp [← hij, hm]
  · simp [hij]

theorem setBit_self (b : Byte) {i : Nat} (hi : i < 8) : (setBit b i).getLsbD i = true := by
  simp [setBit_getLsbD b i i hi hi]

theorem setBit_other (b : Byte) {i j : Nat} (hi : i < 8) (hj : j < 8) (hij : i ≠ j) :
    (setBit b i).getLsbD j = b.getLsbD j := by
  simp [setBit_getLsbD b i j hi hj, hij]

theorem setBit_ne_zero (b : Byte) {i : Nat} (hi : i < 8) : setBit b i ≠ 0x00#8 := by
  intro h
  have hbit := setBit_self b hi
  simp [h] at hbit

/-- Bytes that agree under a mask agree in its bits. -/
theorem getLsbD_eq_of_and_eq {a b m : Byte} (h : a &&& m = b &&& m) {i : Nat} (hm : m.getLsbD i = true) :
    a.getLsbD i = b.getLsbD i := by
  simpa [hm] using congrArg (·.getLsbD i) h

theorem allSubFlags_eq (f : Byte) :
    allSubFlags f = (f.getLsbD 0 && f.getLsbD 1 && f.getLsbD 2 && f.getLsbD 3 && f.getLsbD 4 && f.getLsbD 5) := by
  revert f; decide

/-! ### Stage 9 -/

/-- FLAGS with valid_decode from its accumulator (42_pipeline.md R197). -/
def decodeFlags (decodeOk : Bool) (f : Byte) : Byte := if decodeOk then setBit f flagValidDecode else f

/-- FLAGS as stage 9 leaves it: `valid` is the AND of the six sub-flags (42_pipeline.md R209). -/
def sealedFlags (decodeOk : Bool) (f : Byte) : Byte :=
  if allSubFlags (decodeFlags decodeOk f) then setBit (decodeFlags decodeOk f) flagValid else decodeFlags decodeOk f

/-- Stage 9 seals FLAGS and keeps every other register. -/
theorem stage9_regs_eq (p : PipeRun) :
    (stage9 p).regs = { p.regs with flags := sealedFlags p.decodeOk p.regs.flags } := by
  rw [stage9_regs, stage9_flags]
  rfl

theorem getLsbD_ite_setBit (c : Bool) (b : Byte) {i j : Nat} (hi : i < 8) (hj : j < 8) :
    (if c then setBit b i else b).getLsbD j = (b.getLsbD j || (c && decide (i = j))) := by
  cases c
  · exact (Bool.or_false _).symm
  · exact setBit_getLsbD b i j hi hj

/-- Stage 9 sets valid_decode and valid and keeps every other flag. -/
theorem sealedFlags_getLsbD (ok : Bool) (f : Byte) {j : Nat} (hj : j < 8) :
    (sealedFlags ok f).getLsbD j =
      (f.getLsbD j || (ok && decide (flagValidDecode = j)) ||
        (allSubFlags (decodeFlags ok f) && decide (flagValid = j))) := by
  rw [sealedFlags, getLsbD_ite_setBit _ _ (by decide) hj, decodeFlags, getLsbD_ite_setBit _ _ (by decide) hj]

/-- Stage 9 keeps every flag but valid_decode and valid. -/
theorem sealedFlags_getLsbD_other (ok : Bool) (f : Byte) {j : Nat} (hj : (0xBD#8 : Byte).getLsbD j = true) :
    (sealedFlags ok f).getLsbD j = f.getLsbD j := by
  have hlt : j < 8 := BitVec.lt_of_getLsbD hj
  have h1 : flagValidDecode ≠ j := fun h => absurd (h ▸ hj) (by decide)
  have h6 : flagValid ≠ j := fun h => absurd (h ▸ hj) (by decide)
  simp [sealedFlags_getLsbD ok f hlt, h1, h6]

theorem sealedFlags_validDecode (ok : Bool) {f : Byte} (hf : f.getLsbD 1 = false) :
    (sealedFlags ok f).getLsbD 1 = ok := by
  rw [sealedFlags_getLsbD ok f (by decide), hf]
  simp [flagValidDecode, flagValid]

theorem sealedFlags_valid (ok : Bool) {f : Byte} (hf : f.getLsbD 6 = false) :
    (sealedFlags ok f).getLsbD 6 = allSubFlags (sealedFlags ok f) := by
  have hkeep : ∀ g : Byte, allSubFlags (if allSubFlags g then setBit g flagValid else g) = allSubFlags g := by decide
  rw [sealedFlags_getLsbD ok f (by decide), hf, sealedFlags, hkeep]
  simp [flagValidDecode, flagValid]

/-! ### What a stage keeps of the stages before it

`r.beforeN` is `r` with everything that stages N to 8 may write set to 0. -/

namespace PipeRegs

/-- The registers without what stage 8 writes. -/
def before8 (r : PipeRegs) : PipeRegs :=
  { r with
    flags := r.flags &&& 0x7F#8
    failReason := 0x00#8
    variant := 0x00#8
    msgId := 0x00#8
    msgType := 0x00#8
    adminType := 0x00#8
    respKind := 0x00#8
    respReason := 0x00#8
    respHandle := 0x00#8
    respLen := 0x00#8 }

/-- The registers without what stages 6 to 8 write. -/
def before6 (r : PipeRegs) : PipeRegs :=
  { r.before8 with
    flags := r.flags &&& 0x4F#8
    fieldErr := r.fieldErr &&& 0x7F#8
    pldLen := 0x00#8
    keyRing := 0x00#8
    rounds := 0x00#8
    keyIdx := 0x00#8
    keysTried := 0x00#8
    pldCrcRx := 0x00#8
    pldCrcCalc := 0x00#8 }

/-- The registers without what stages 5 to 8 write. -/
def before5 (r : PipeRegs) : PipeRegs :=
  { r.before6 with fieldErr := r.fieldErr &&& 0x3F#8, hops := 0x00#8, maxHops := 0x00#8 }

/-- The registers without what stages 4 to 8 write. -/
def before4 (r : PipeRegs) : PipeRegs := { r.before5 with flags := r.flags &&& 0x47#8 }

/-- The registers without what stages 3 to 8 write. -/
def before3 (r : PipeRegs) : PipeRegs := { r.before4 with kind := 0x00#8, pidFlags := 0x00#8 }

/-- Recording a failure changes FAIL_REASON only (42_pipeline.md R184). -/
theorem fail_eq (r : PipeRegs) (reason : FailReason) :
    r.fail reason = { r with failReason := (r.fail reason).failReason } := by
  unfold PipeRegs.fail
  split <;> rfl

theorem before8_fail (r : PipeRegs) (reason : FailReason) : (r.fail reason).before8 = r.before8 := by
  rw [fail_eq]
  rfl

theorem before6_before8 (r : PipeRegs) : r.before8.before6 = r.before6 := by
  simp [before6, before8, BitVec.and_assoc]

theorem before5_before6 (r : PipeRegs) : r.before6.before5 = r.before5 := by
  simp [before5, before6, before8, BitVec.and_assoc]

theorem before4_before5 (r : PipeRegs) : r.before5.before4 = r.before4 := by
  simp [before4, before5, before6, before8, BitVec.and_assoc]

theorem before3_before4 (r : PipeRegs) : r.before4.before3 = r.before3 := by
  simp [before3, before4, before5, before6, before8, BitVec.and_assoc]

theorem before5_before8 (r : PipeRegs) : r.before8.before5 = r.before5 := by
  rw [← before5_before6, before6_before8, before5_before6]

theorem before4_before8 (r : PipeRegs) : r.before8.before4 = r.before4 := by
  rw [← before4_before5, before5_before8, before4_before5]

theorem before3_before8 (r : PipeRegs) : r.before8.before3 = r.before3 := by
  rw [← before3_before4, before4_before8, before3_before4]

end PipeRegs

/-- The stages from `p` to `q` kept the registers that `keep` shows, kept a failure that was recorded (42_pipeline.md
R184), and kept the accumulator of valid_decode in step with FIELD_ERR (R197). -/
structure Later (keep : PipeRegs → PipeRegs) (p q : PipeRun) : Prop where
  kept : keep q.regs = keep p.regs
  failure : p.regs.failReason ≠ 0x00#8 → q.regs.failReason = p.regs.failReason
  decodeOk : (p.decodeOk = true ↔ p.regs.fieldErr = 0x00#8) → (q.decodeOk = true ↔ q.regs.fieldErr = 0x00#8)

namespace Later

variable {keep keep' : PipeRegs → PipeRegs} {p q r : PipeRun}

theorem trans (hpq : Later keep p q) (hqr : Later keep q r) : Later keep p r where
  kept := hqr.kept.trans hpq.kept
  failure hp := by
    have hq := hpq.failure hp
    rw [hqr.failure (hq ▸ hp), hq]
  decodeOk hp := hqr.decodeOk (hpq.decodeOk hp)

/-- What is kept shows at an earlier stage too. -/
theorem coarsen (h : Later keep p q) (hk : ∀ r, keep' (keep r) = keep' r) : Later keep' p q where
  kept := by rw [← hk, h.kept, hk]
  failure := h.failure
  decodeOk := h.decodeOk

/-- A step that changes what `keep` hides only. -/
theorem of_same (hk : keep q.regs = keep p.regs) (hf : q.regs.failReason = p.regs.failReason)
    (he : q.regs.fieldErr = p.regs.fieldErr) (hd : q.decodeOk = p.decodeOk) : Later keep p q where
  kept := hk
  failure _ := hf
  decodeOk h := by rw [he, hd, h]

/-- Recording a failure, in any stage (42_pipeline.md R184). -/
theorem fail (hk : ∀ r, keep r.before8 = keep r) (p : PipeRun) (reason : FailReason) :
    Later keep p (p.mapRegs (fun r => r.fail reason)) where
  kept := by rw [PipeRun.mapRegs_regs, ← hk, PipeRegs.before8_fail, hk]
  failure hp := by simp [hp]
  decodeOk hp := by simpa using hp

/-- A decode failure: its FIELD_ERR bit, its reason, and the accumulator (42_pipeline.md R195, R196). -/
theorem decodeFailure (hk : ∀ r, keep r.before8 = keep r) {i : Nat} (hi : i < 8)
    (hb : keep (p.regs.setFieldErr i) = keep p.regs) (n : Fin 10) (reason : FailReason) :
    Later keep p ((p.enter n).decodeFailed.mapRegs (fun r => (r.setFieldErr i).fail reason)) where
  kept := by rw [PipeRun.mapRegs_regs, ← hk, PipeRegs.before8_fail, hk]; exact hb
  failure hp := by simp [hp]
  decodeOk _ := by simp [setBit_ne_zero _ hi]

end Later

/-! ### Each stage as a step -/

section Stages

variable {s : State} {k : Kind} {p q : PipeRun}

/-- The hop field of a packet of kind `k` stands for `x` (42_pipeline.md R195). -/
def HopReads (s : State) (k : Kind) (x : Nat) : Prop :=
  FieldReads s.symTable (6 * s.params.hopEncLen)
    (s.pktBytes (s.params.hdrEncLen + s.params.payloadSymbols k) s.params.hopEncLen) x

theorem State.pktField_eq_some_iff (s : State) (w off x : Nat) :
    s.pktField w off = some x ↔ FieldReads s.symTable w (s.pktBytes off (symbolCount w)) x := by
  rw [← fieldDecode_ok_iff s.symTable_injective, State.pktField]
  cases fieldDecode s.symTable w (s.pktBytes off (symbolCount w)) <;> simp [Except.toOption]

theorem hopField_eq_some_iff (s : State) (k : Kind) (x : Nat) :
    s.pktField (6 * s.params.hopEncLen) (s.params.hdrEncLen + s.params.payloadSymbols k) = some x ↔
      HopReads s k x := by
  have hcount : symbolCount (6 * s.params.hopEncLen) = s.params.hopEncLen := by
    unfold symbolCount
    omega
  rw [State.pktField_eq_some_iff, hcount, HopReads]

/-- Stage 5: no hop field, one that decodes, or one that does not (42_pipeline.md R195). -/
inductive Stage5Path (s : State) (k : Kind) (p : PipeRun) : PipeRun → Prop where
  | noField (hm : p.regs.mh = false) : Stage5Path s k p p
  | reads (x : Nat) (hm : p.regs.mh = true) (hx : HopReads s k x) :
      Stage5Path s k p
        ((p.enter 5).mapRegs (fun r =>
          { r with hops := hopBits x s.params.hopsBits, maxHops := hopBits x s.params.maxHopsBits }))
  | undecodable (hm : p.regs.mh = true) (hx : ∀ x, ¬ HopReads s k x) :
      Stage5Path s k p
        ((p.enter 5).decodeFailed.mapRegs (fun r => (r.setFieldErr fieldErrHop).fail .hopDecode))

theorem stage5_path (s : State) (k : Kind) (p : PipeRun) : Stage5Path s k p (stage5 s k p) := by
  unfold stage5
  split
  case isFalse hm => exact .noField (Bool.eq_false_of_not_eq_true hm)
  case isTrue hm =>
    dsimp only
    split
    case h_1 hx =>
      refine .undecodable hm fun x hr => ?_
      rw [(hopField_eq_some_iff s k x).2 hr] at hx
      cases hx
    case h_2 x hx => exact .reads x hm ((hopField_eq_some_iff s k x).1 hx)

theorem Stage3Path.later {o : Option Kind} (h : Stage3Path s p (q, o)) : Later PipeRegs.before3 p q := by
  cases h with
  | undecodable =>
    exact .trans (q := p.enter 3) (.of_same rfl rfl rfl rfl) (.fail PipeRegs.before3_before8 _ _)
  | unknown pid =>
    have hflags : Later PipeRegs.before3 p ((p.enter 3).mapRegs (fun r =>
        { r with pidFlags := pidFlagsOf (pidMh s pid) (pidSa s pid) })) := .of_same rfl rfl rfl rfl
    exact hflags.trans (.fail PipeRegs.before3_before8 _ _)
  | known => exact .of_same rfl rfl rfl rfl

theorem Stage5Path.later (h : Stage5Path s k p q) : Later PipeRegs.before5 p q := by
  cases h with
  | noField => exact .of_same rfl rfl rfl rfl
  | reads => exact .of_same rfl rfl rfl rfl
  | undecodable =>
    refine .decodeFailure PipeRegs.before5_before8 (by decide) ?_ _ _
    simp [PipeRegs.before5, PipeRegs.before6, PipeRegs.before8, setBit_and, fieldErrHop]

/-- The record at the start of stage 6 when the payload decodes to `d` (42_pipeline.md R196). -/
def payloadRun (d : List Byte) (p : PipeRun) : PipeRun :=
  (p.enter 6).mapRegs (fun r => { r with pldLen := BitVec.ofNat 8 d.length })

/-- The record at the start of the trials of stage 7 (42_pipeline.md R200). -/
def ringRun (s : State) (k : Kind) (p : PipeRun) : PipeRun :=
  (p.enter 7).mapRegs (fun r =>
    { r with keyRing := boolByte (kindIsInvite k), rounds := BitVec.ofNat 8 (roundsOf s.params k) })

/-- The record after stage 7 when no key matches (42_pipeline.md R204). -/
def noKeyRun (s : State) (k : Kind) (d : List Byte) (p : PipeRun) : PipeRun :=
  (lastTrial s k (cipherRegion s.params d) (ringRun s k (payloadRun d p)) (s.ringCount k)).mapRegs
    (fun r => r.fail .decrypt)

/-- The record after stage 7 when key `i` is accepted (42_pipeline.md R203). -/
def acceptedRun (s : State) (k : Kind) (d : List Byte) (i : Nat) (p : PipeRun) : PipeRun :=
  (tryKey s.params i (s.plaintext k (cipherRegion s.params d) i) (ringRun s k (payloadRun d p))).mapRegs
    (fun r => ({ r with keyIdx := BitVec.ofNat 8 i }.setFlag flagValidDecrypt).setFlag flagValidPayloadChecksum)

theorem noKeyRun_later (s : State) (k : Kind) (d : List Byte) (p : PipeRun) :
    Later PipeRegs.before6 p (noKeyRun s k d p) := by
  refine .trans (q := lastTrial s k (cipherRegion s.params d) (ringRun s k (payloadRun d p)) (s.ringCount k)) ?_
    (.fail PipeRegs.before6_before8 _ _)
  cases s.ringCount k <;> exact .of_same rfl rfl rfl rfl

theorem acceptedRun_later (s : State) (k : Kind) (d : List Byte) (i : Nat) (p : PipeRun) :
    Later PipeRegs.before6 p (acceptedRun s k d i p) := by
  refine .of_same ?_ rfl rfl rfl
  simp [acceptedRun, ringRun, payloadRun, tryKey, PipeRegs.before6, PipeRegs.before8, setBit_and, flagValidDecrypt,
    flagValidPayloadChecksum]

theorem dispatchVariant_before8 (c : Params) (k : Kind) (pt : List Byte) (r : PipeRegs) :
    (dispatchVariant c k pt r).before8 = r.before8 := by
  unfold dispatchVariant
  split
  case h_1 =>
    unfold singleData
    dsimp only
    split
    case h_5 =>
      rw [PipeRegs.before8_fail]
      simp [PipeRegs.before8, setBit_and, flagParseErr]
    all_goals rfl
  all_goals rfl

theorem stage8_later (s : State) (k : Kind) (pt : List Byte) (p : PipeRun) :
    Later PipeRegs.before8 p (stage8 s k pt p) where
  kept := dispatchVariant_before8 _ _ _ _
  failure hp := by
    rcases dispatchVariant_flags s.params k pt { p.regs with msgId := byteAt pt s.params.msgIdIdx } with
      ⟨-, e⟩ | ⟨-, e⟩
    · exact e
    · exact e.trans (by simp [hp])
  decodeOk hp := by
    rw [stage8, PipeRun.mapRegs_regs, dispatchVariant_fieldErr]
    exact hp

end Stages

/-! ### The payload paths, by what the payload is -/

section PayloadPath

variable {s : State} {k : Kind} {p q : PipeRun} {out d : List Byte}

/-- A payload stands for at most one byte string. -/
theorem payload_unique {d' : List Byte} (hd : StringReads s.symTable (payloadSyms s k) d)
    (hd' : StringReads s.symTable (payloadSyms s k) d') : d = d' := by
  have hl : (payloadSyms s k).length % 4 = 0 := by
    rw [payloadSyms_length]
    exact (Config.payload_constraints s.cfg k).1
  rw [← stringDecode_ok_iff s.symTable_injective hl] at hd hd'
  exact Except.ok.inj (hd.symm.trans hd')

/-- At most one key is accepted (42_pipeline.md R201). -/
theorem Accepted.unique {i j : Nat} (hi : Accepted s k d i) (hj : Accepted s k d j) : i = j := by
  obtain ⟨-, hmi, hfi⟩ := hi
  obtain ⟨-, hmj, hfj⟩ := hj
  rcases Nat.lt_trichotomy i j with hlt | rfl | hlt
  · exact absurd hmi (hfj i hlt)
  · rfl
  · exact absurd hmj (hfi j hlt)

namespace PayloadPath

theorem of_undecodable (h : PayloadPath s k p q out) (hn : ∀ d, ¬ StringReads s.symTable (payloadSyms s k) d) :
    q = (p.enter 6).decodeFailed.mapRegs (fun r => (r.setFieldErr fieldErrPld).fail .pldDecode) ∧ out = [] := by
  cases h with
  | undecodable => exact ⟨rfl, rfl⟩
  | noKey _ hd => exact absurd hd (hn _)
  | accepted d _ hd => exact absurd hd (hn d)

theorem of_noKey (h : PayloadPath s k p q out) (hd : StringReads s.symTable (payloadSyms s k) d)
    (hn : ∀ i, ¬ Accepted s k d i) : q = noKeyRun s k d p ∧ out = d := by
  cases h with
  | undecodable hu => exact absurd hd (hu d)
  | noKey d' hd' hl hm =>
    obtain rfl := payload_unique hd' hd
    exact ⟨congrArg Prod.fst (stage7_fails _ hm), rfl⟩
  | accepted d' i hd' hl ha =>
    obtain rfl := payload_unique hd' hd
    exact absurd ha (hn i)

theorem of_accepted {i : Nat} (h : PayloadPath s k p q out) (hd : StringReads s.symTable (payloadSyms s k) d)
    (ha : Accepted s k d i) :
    q = stage8 s k (s.plaintext k (cipherRegion s.params d) i) (acceptedRun s k d i p) ∧
      out = s.plaintext k (cipherRegion s.params d) i ++ trailer s.params d := by
  cases h with
  | undecodable hu => exact absurd hd (hu d)
  | noKey d' hd' hl hm =>
    obtain rfl := payload_unique hd' hd
    exact absurd ha ((not_accepted_iff s k _).2 hm i)
  | accepted d' i' hd' hl ha' =>
    obtain rfl := payload_unique hd' hd
    cases ha.unique ha'
    refine ⟨?_, rfl⟩
    rw [stage7_accepts _ ha]
    rfl

/-- The three cases of a payload. -/
theorem cases_on (h : PayloadPath s k p q out) :
    (q = (p.enter 6).decodeFailed.mapRegs (fun r => (r.setFieldErr fieldErrPld).fail .pldDecode) ∧ out = []) ∨
      (∃ d, q = noKeyRun s k d p ∧ out = d ∧ d.length = 3 * s.params.payloadSymbols k / 4) ∨
      (∃ d i, q = stage8 s k (s.plaintext k (cipherRegion s.params d) i) (acceptedRun s k d i p) ∧
        out = s.plaintext k (cipherRegion s.params d) i ++ trailer s.params d ∧
        d.length = 3 * s.params.payloadSymbols k / 4) := by
  cases hc : h with
  | undecodable => exact .inl ⟨rfl, rfl⟩
  | noKey _ hd hl hm => exact .inr (.inl ⟨_, (h.of_noKey hd ((not_accepted_iff s k _).2 hm)).1, rfl, hl⟩)
  | accepted d i hd hl ha => exact .inr (.inr ⟨d, i, (h.of_accepted hd ha).1, rfl, hl⟩)

/-- Stages 6 to 8 keep what stood before. -/
theorem later (h : PayloadPath s k p q out) : Later PipeRegs.before6 p q := by
  rcases h.cases_on with ⟨rfl, -⟩ | ⟨d, rfl, -⟩ | ⟨d, i, rfl, -⟩
  · refine .decodeFailure PipeRegs.before6_before8 (by decide) ?_ _ _
    simp [PipeRegs.before6, PipeRegs.before8, setBit_and, fieldErrPld]
  · exact noKeyRun_later s k d p
  · exact (acceptedRun_later s k d i p).trans ((stage8_later s k _ _).coarsen PipeRegs.before6_before8)

end PayloadPath

end PayloadPath

/-! ### The record of each kind of packet -/

/-- The record after stage 3 of a packet whose PID decodes to `pid` and has kind `k` (42_pipeline.md R190). -/
def pidRun (s : State) (pid : Nat) (k : Kind) : PipeRun :=
  ((headerRun s).enter 3).mapRegs (fun r =>
    { r with pidFlags := pidFlagsOf (pidMh s pid) (pidSa s pid), kind := kindCode k })

/-- The record after stage 4 of a packet of the length its PID implies (42_pipeline.md R193). -/
def classifiedRun (s : State) (pid : Nat) (k : Kind) : PipeRun :=
  ((pidRun s pid k).enter 4).mapRegs (fun r => r.setFlag flagValidPid)

/-- The record after stage 4 of a packet of another length (42_pipeline.md R193). -/
def badLengthRun (s : State) (pid : Nat) (k : Kind) : PipeRun :=
  ((pidRun s pid k).enter 4).mapRegs (fun r => r.fail .lenMismatch)

section Records

variable {s : State} {pid : Nat} {k : Kind}

/-- A packet has at most one PID and kind. -/
theorem PidIs.unique {pid' : Nat} {k' : Kind} (h : PidIs s pid k) (h' : PidIs s pid' k') : pid = pid' ∧ k = k' := by
  obtain ⟨-, hr, hk⟩ := h
  obtain ⟨-, hr', hk'⟩ := h'
  obtain rfl := hr.unique hr'
  exact ⟨rfl, Option.some.inj (hk.symm.trans hk')⟩

/-- Stage 3 of a packet with a kind. -/
theorem Stage3Path.of_pidIs {q : PipeRun} {o : Option Kind} (h : Stage3Path s (headerRun s) (q, o))
    (hk : PidIs s pid k) :
    q = pidRun s pid k ∧ o = some k := by
  obtain ⟨-, hr, hmap⟩ := hk
  cases h with
  | undecodable hn => exact absurd hr (hn pid)
  | unknown pid' hr' hmap' =>
    obtain rfl := hr.unique hr'
    cases hmap.symm.trans hmap'
  | known pid' k' hr' hmap' =>
    obtain rfl := hr.unique hr'
    cases hmap.symm.trans hmap'
    exact ⟨rfl, rfl⟩

namespace PktPath

variable {e : Effect}

theorem of_classified (h : PktPath s e) (hc : Classified s pid k) :
    ∃ q out, PayloadPath s k (stage5 s k (classifiedRun s pid k)) q out ∧
      e = { mem := cellsAt pldBufBase out, pipe := some (stage9 q) } := by
  cases h with
  | aborted _ _ hn => exact absurd hc.1.1 hn
  | unclassified p ha h3 => cases (h3.of_pidIs hc.1).2
  | badLength p pid' k' hk hn h3 =>
    obtain ⟨rfl, rfl⟩ := hc.1.unique hk
    exact absurd hc hn
  | classified p q out pid' k' hc' h3 hm h5 =>
    obtain ⟨rfl, rfl⟩ := hc.1.unique hc'.1
    obtain ⟨rfl, -⟩ := h3.of_pidIs hc.1
    exact ⟨q, out, h5, rfl⟩

theorem of_badLength (h : PktPath s e) (hk : PidIs s pid k) (hn : ¬ Classified s pid k) :
    e = { mem := [], pipe := some (stage9 (badLengthRun s pid k)) } := by
  cases h with
  | aborted _ _ hna => exact absurd hk.1 hna
  | unclassified p ha h3 => cases (h3.of_pidIs hk).2
  | badLength p pid' k' hk' _ h3 =>
    obtain ⟨rfl, rfl⟩ := hk.unique hk'
    obtain ⟨rfl, -⟩ := h3.of_pidIs hk
    rfl
  | classified p q out pid' k' hc' =>
    obtain ⟨rfl, rfl⟩ := hk.unique hc'.1
    exact absurd hc' hn

theorem of_unclassified (h : PktPath s e) (ha : PacketAdmitted s) (hn : ∀ pid k, ¬ PidIs s pid k) :
    ∃ q, Stage3Path s (headerRun s) (q, none) ∧ e = { mem := [], pipe := some (stage9 q) } := by
  cases h with
  | aborted _ _ hna => exact absurd ha hna
  | unclassified p _ h3 => exact ⟨p, h3, rfl⟩
  | badLength _ pid k hk => exact absurd hk (hn pid k)
  | classified _ _ _ pid k hc => exact absurd hc.1 (hn pid k)

theorem of_not_admitted (h : PktPath s e) (hn : ¬ PacketAdmitted s) :
    ∃ c, stage0Abort s = some c ∧
      e =
        { err := c,
          pipe := some (PipeRun.start.mapRegs (fun r => { r with failReason := FailReason.aborted.code })) } := by
  cases h with
  | aborted c hc => exact ⟨c, hc, rfl⟩
  | unclassified _ ha => exact absurd ha hn
  | badLength _ _ _ hk => exact absurd hk.1 hn
  | classified _ _ _ _ _ hc => exact absurd hc.1.1 hn

/-- The packets that stage 0 lets through: unclassified, of a bad length, or classified. -/
theorem admitted_cases (h : PktPath s e) (ha : PacketAdmitted s) :
    (∃ q, Stage3Path s (headerRun s) (q, none) ∧ e = { mem := [], pipe := some (stage9 q) }) ∨
      (∃ pid k, e = { mem := [], pipe := some (stage9 (badLengthRun s pid k)) }) ∨
      (∃ pid k q out, Classified s pid k ∧ PayloadPath s k (stage5 s k (classifiedRun s pid k)) q out ∧
        e = { mem := cellsAt pldBufBase out, pipe := some (stage9 q) }) := by
  by_cases hk : ∃ pid k, PidIs s pid k
  · obtain ⟨pid, k, hk⟩ := hk
    by_cases hc : Classified s pid k
    · obtain ⟨q, out, hq, he⟩ := h.of_classified hc
      exact .inr (.inr ⟨pid, k, q, out, hc, hq, he⟩)
    · exact .inr (.inl ⟨pid, k, h.of_badLength hk hc⟩)
  · exact .inl (h.of_unclassified ha fun pid k hpk => hk ⟨pid, k, hpk⟩)

end PktPath

theorem pidRun_later (s : State) (pid : Nat) (k : Kind) : Later PipeRegs.before3 (headerRun s) (pidRun s pid k) :=
  .of_same rfl rfl rfl rfl

theorem classifiedRun_later (s : State) (pid : Nat) (k : Kind) :
    Later PipeRegs.before4 (pidRun s pid k) (classifiedRun s pid k) := by
  refine .of_same ?_ rfl rfl rfl
  simp [classifiedRun, PipeRegs.before4, PipeRegs.before5, PipeRegs.before6, PipeRegs.before8, setBit_and,
    flagValidPid]

theorem badLengthRun_later (s : State) (pid : Nat) (k : Kind) :
    Later PipeRegs.before4 (pidRun s pid k) (badLengthRun s pid k) :=
  .trans (q := (pidRun s pid k).enter 4) (.of_same rfl rfl rfl rfl) (.fail PipeRegs.before4_before8 _ _)

theorem badLengthRun_later_header (s : State) (pid : Nat) (k : Kind) :
    Later PipeRegs.before3 (headerRun s) (badLengthRun s pid k) :=
  (pidRun_later s pid k).trans ((badLengthRun_later s pid k).coarsen PipeRegs.before3_before4)

/-- Stages 5 to 8 keep what stood before. -/
theorem PayloadPath.later_classified {q : PipeRun} {out : List Byte}
    (h : PayloadPath s k (stage5 s k (classifiedRun s pid k)) q out) :
    Later PipeRegs.before5 (classifiedRun s pid k) q :=
  (stage5_path s k _).later.trans (h.later.coarsen PipeRegs.before5_before6)

/-- Stages 3 to 8 of a classified packet keep what stages 1 and 2 found. -/
theorem PayloadPath.later_header {q : PipeRun} {out : List Byte}
    (h : PayloadPath s k (stage5 s k (classifiedRun s pid k)) q out) :
    Later PipeRegs.before3 (headerRun s) q := by
  have hlater := (classifiedRun_later s pid k).trans (h.later_classified.coarsen PipeRegs.before4_before5)
  exact (pidRun_later s pid k).trans (hlater.coarsen PipeRegs.before3_before4)

/-- Every admitted packet ends with stage 9 on a record that kept what stages 1 and 2 found. -/
theorem PktPath.later_header {e : Effect} (h : PktPath s e) (ha : PacketAdmitted s) :
    e.err = .ok ∧ ∃ q, Later PipeRegs.before3 (headerRun s) q ∧ e.pipe = some (stage9 q) := by
  rcases h.admitted_cases ha with ⟨q, hq, rfl⟩ | ⟨pid, k, rfl⟩ | ⟨pid, k, q, out, -, hq, rfl⟩
  · exact ⟨rfl, q, hq.later, rfl⟩
  · exact ⟨rfl, _, badLengthRun_later_header s pid k, rfl⟩
  · exact ⟨rfl, q, hq.later_header, rfl⟩

end Records

/-! ### The pipeline results PKT_PROC leaves -/

namespace PktProcRan

variable {e : Effect} {s t : State} {pid : Nat} {k : Kind}

/-- The result registers are those of the record that the effect ends with. -/
theorem pipe_eq (h : PktProcRan e s t) {q : PipeRun} (hq : e.pipe = some q) : t.pipe = q.regs := by
  have hpipe := h.pipe
  rw [hq] at hpipe
  exact Option.some.inj hpipe

/-- The bytes the effect writes are read in PLD_BUF. -/
theorem pldBufHolds (h : PktProcRan e s t) {out : List Byte} (hmem : e.mem = cellsAt pldBufBase out)
    (hlen : out.length ≤ 256) : PldBufHolds t out := by
  intro j hj
  have ha : 0x100 ≤ pldBufBase + j ∧ pldBufBase + j < 0x700 := by
    simp only [pldBufBase]
    omega
  rw [State.peek_buffer _ _ ha, State.readByte, h.mem, hmem, Memory.read?_writeAll_cellsAt, dif_pos (by omega)]
  simp

end PktProcRan

section Prompt

variable {s : State} {pid : Nat} {k : Kind}

theorem exec_pktProc_admitted (h : Prompt 0x10#8 s) (ha : PacketAdmitted s) :
    ∃ t q, exec .pktProc s = .next t ∧ CommandRan 0x10#8 0x00#8 s t ∧ Later PipeRegs.before3 (headerRun s) q ∧
      t.pipe = { q.regs with flags := sealedFlags q.decodeOk q.regs.flags } := by
  obtain ⟨t, ht, hran⟩ := exec_pktProc h
  obtain ⟨herr, q, hq, hpipe⟩ := (pktProc_path s).later_header ha
  refine ⟨t, q, ht, ?_, hq, ?_⟩
  · have hbook := hran.ran
    rwa [herr] at hbook
  · rw [hran.pipe_eq hpipe, stage9_regs_eq]

end Prompt

end Sys2Proof.Machine

/-! The statements about PKT_PROC that hold of every packet: stage 0, the header, and the flags of stage 9
(42_pipeline.md R185 to R188, R197, R209). -/

namespace Sys2Proof.Machine

/-! ### What stages 1 and 2 find, at the end -/

namespace Later

variable {s : State} {q : PipeRun} (h : Later PipeRegs.before3 (headerRun s) q)
include h

theorem fieldErr_header : q.regs.fieldErr &&& 0x3F#8 = s.hdrFieldErr := by
  have hkept : q.regs.fieldErr &&& 0x3F#8 = (headerRun s).regs.fieldErr &&& 0x3F#8 := congrArg PipeRegs.fieldErr h.kept
  rw [hkept, headerRun_eq]
  exact s.hdrFieldErr_bits.2.2

theorem hcrcCalc_eq : q.regs.hcrcCalc = s.hdrCrc := by
  have hkept : q.regs.hcrcCalc = (headerRun s).regs.hcrcCalc := (congrArg PipeRegs.hcrcCalc h.kept :)
  rw [hkept, headerRun_eq]

theorem decodeOk_iff : q.decodeOk = true ↔ q.regs.fieldErr = 0x00#8 :=
  h.decodeOk (by rw [headerRun_eq]; simp)

/-- The flags of stages 0, 2 and 9, before stage 9. -/
theorem flags_getLsbD {i : Nat} (hi : (0x47#8 : Byte).getLsbD i = true) :
    q.regs.flags.getLsbD i = (headerRun s).regs.flags.getLsbD i :=
  getLsbD_eq_of_and_eq (congrArg PipeRegs.flags h.kept :) hi

theorem validDigits : q.regs.flags.getLsbD 0 = true := by
  rw [h.flags_getLsbD (by decide), headerRun_eq]
  dsimp only
  split <;> rfl

theorem validDecode : q.regs.flags.getLsbD 1 = false := by
  rw [h.flags_getLsbD (by decide), headerRun_eq]
  dsimp only
  split <;> rfl

theorem validHeaderChecksum : q.regs.flags.getLsbD 2 = true ↔ s.hdrCrcOk := by
  rw [h.flags_getLsbD (by decide), headerRun_eq]
  dsimp only
  split <;> simp [*]

theorem valid : q.regs.flags.getLsbD 6 = false := by
  rw [h.flags_getLsbD (by decide), headerRun_eq]
  dsimp only
  split <;> rfl

/-- A header field that does not decode is the first failure (42_pipeline.md R187). -/
theorem failReason_hdrDecode (hf : s.hdrFieldErr ≠ 0x00#8) : q.regs.failReason = 0x01#8 := by
  have hr : (headerRun s).regs.failReason = 0x01#8 := by simp [headerRun_eq, hf]
  rw [h.failure (by rw [hr]; decide), hr]

/-- A wrong header checksum is the first failure of a header that decodes (42_pipeline.md R188). -/
theorem failReason_hdrChecksum (hf : s.hdrFieldErr = 0x00#8) (hc : ¬ s.hdrCrcOk) : q.regs.failReason = 0x02#8 := by
  have hr : (headerRun s).regs.failReason = 0x02#8 := by simp [headerRun_eq, hf, hc]
  rw [h.failure (by rw [hr]; decide), hr]

end Later

/-! ### The header -/

/-- The register of a header field (10_state.md R44 to R47). -/
def HdrField.register (r : PipeRegs) : HdrField → Nat
  | .rptr => r.rptrDid.toNat
  | .hcrc => r.hcrcRx.toNat
  | .dst => r.dstDid.toNat
  | .nid => r.nid.toNat
  | .src => r.srcDid.toNat
  | .pid => r.pid.toNat

theorem Later.register_eq {s : State} {q : PipeRun} (h : Later PipeRegs.before3 (headerRun s) q) (f : HdrField) :
    f.register q.regs = (s.hdrReg f f.width).toNat := by
  have hkept : f.register q.regs.before3 = f.register (headerRun s).regs.before3 := congrArg f.register h.kept
  rw [headerRun_eq] at hkept
  cases f <;> exact hkept

/-- Settles O41: the registers and FIELD_ERR bits of stage 1, which the later stages keep. -/
theorem pktProcDecodesTheHeader : Obligations.PktProcDecodesTheHeader := by
  intro s h ha
  obtain ⟨t, q, ht, -, hq, hpipe⟩ := exec_pktProc_admitted h ha
  refine ⟨t, ht, fun f v hv => ?_, fun hf => ?_⟩
  · have hreg : v = (s.hdrReg f f.width).toNat := by
      rw [hpipe] at hv
      exact hv.trans ((by cases f <;> rfl : _ = f.register q.regs).trans (hq.register_eq f))
    have hbit : t.pipe.fieldErr.getLsbD f.bit = (s.hdrValue f).isNone := by
      rw [hpipe, ← s.hdrFieldErr_bits.1 f]
      refine getLsbD_eq_of_and_eq (m := 0x3F#8) ?_ (by cases f <;> rfl)
      rw [hq.fieldErr_header, s.hdrFieldErr_bits.2.2]
    rw [hreg, hbit]
    refine ⟨fun x hx => ⟨State.hdrReg_toNat hx, ?_⟩, fun hn => ⟨?_, ?_⟩⟩
    · rw [(s.hdrValue_eq_some_iff f x).2 hx]
      rfl
    · rw [State.hdrReg_zero hn]
      exact BitVec.toNat_zero
    · rw [(s.hdrValue_eq_none_iff f).2 hn]
      rfl
  · rw [hpipe] at hf ⊢
    dsimp only at hf ⊢
    refine ⟨hq.failReason_hdrDecode (hq.fieldErr_header ▸ hf), ?_⟩
    rw [sealedFlags_validDecode _ hq.validDecode, ← Bool.not_eq_true, hq.decodeOk_iff]
    intro h0
    exact hf (by simp [h0])

/-- Settles O42: the checksum of stage 2, which the later stages keep. -/
theorem pktProcChecksTheHeader : Obligations.PktProcChecksTheHeader := by
  intro s h ha
  obtain ⟨t, q, ht, -, hq, hpipe⟩ := exec_pktProc_admitted h ha
  have hcalc : t.pipe.hcrcCalc = s.hdrCrc := by rw [hpipe, ← hq.hcrcCalc_eq]
  have hflag : t.pipe.flags.getLsbD 2 = true ↔ s.hdrCrcOk := by
    rw [hpipe, ← hq.validHeaderChecksum]
    dsimp only
    rw [sealedFlags_getLsbD_other _ _ (by decide)]
  refine ⟨t, ht, ?_, ?_, fun hno hf => ?_⟩
  · rw [hcalc, State.hdrCrc]
    refine congrArg _ (List.map_congr_left fun o ho => (s.peek_buffer _ ?_).symm)
    have := ha.header_fits ((Config.header_constraints s.cfg).2 o ho)
    simp only [pktBufBase]
    omega
  · rw [hflag, hcalc]
    rfl
  · rw [hpipe] at hf ⊢
    exact hq.failReason_hdrChecksum (hq.fieldErr_header ▸ hf) (by rw [← hflag, hno]; decide)

/-! ### Stage 0 and stage 9 -/

/-- An abort leaves the cleared results and its reason (42_pipeline.md R185). -/
theorem exec_pktProc_aborted {s : State} {e : ErrCode} (h : Prompt 0x10#8 s) (he : stage0Abort s = some e) :
    ∃ t, exec .pktProc s = .next t ∧ CommandRan 0x10#8 e.code s t ∧
      t.pipe = { PipeRegs.cleared with failReason := 0x09#8 } ∧
      SameMapExcept (fun a => isCommandReg a ∨ (0x020 ≤ a ∧ a < 0x044)) s t := by
  have hna : ¬ PacketAdmitted s := fun ha => by
    rw [(stage0Abort_none_iff s).2 ha] at he
    cases he
  obtain ⟨t, ht, hran⟩ := exec_pktProc h
  obtain ⟨c, hc, heff⟩ := (pktProc_path s).of_not_admitted hna
  obtain rfl : e = c := Option.some.inj (he.symm.trans hc)
  rw [heff] at hran
  exact ⟨t, ht, hran.ran, hran.pipe_eq rfl, hran.frame.mono fun a ha => by simpa using ha⟩

/-- Settles O39: the checks of stage 0 in their order. -/
theorem pktProcAborts : Obligations.PktProcAborts := by
  refine ⟨fun s h ha => ?_, fun s e h hcase => exec_pktProc_aborted h ?_⟩
  · obtain ⟨t, q, ht, hran, hq, hpipe⟩ := exec_pktProc_admitted h ha
    refine ⟨t, ht, ?_, hran.errCode⟩
    rw [hpipe]
    exact (sealedFlags_getLsbD_other _ _ (by decide)).trans hq.validDigits
  · unfold stage0Abort
    rcases hcase with ⟨hlen, rfl⟩ | ⟨hlen, hdigits, rfl⟩ | ⟨hlen, hdigits, hshort, rfl⟩
    · rw [if_pos hlen]
    · rw [if_neg hlen, if_pos hdigits]
    · rw [if_neg hlen, hdigits, if_neg (by decide), if_pos hshort]

/-- Settles O50: valid_decode from its accumulator, which FIELD_ERR shows, and valid from the sub-flags. -/
theorem pktProcOverallValidity : Obligations.PktProcOverallValidity := by
  intro s h
  by_cases ha : PacketAdmitted s
  · obtain ⟨t, q, ht, -, hq, hpipe⟩ := exec_pktProc_admitted h ha
    refine ⟨t, ht, fun _ => ⟨?_, ?_⟩, fun hna => absurd ha hna, ?_⟩ <;> rw [hpipe] <;> dsimp only
    · exact (sealedFlags_getLsbD_other _ _ (by decide)).trans hq.validDigits
    · rw [sealedFlags_validDecode _ hq.validDecode, hq.decodeOk_iff]
    · rw [sealedFlags_valid _ hq.valid, allSubFlags_eq]
  · obtain ⟨c, hc, -⟩ := (pktProc_path s).of_not_admitted ha
    obtain ⟨t, ht, -, hpipe, -⟩ := exec_pktProc_aborted h hc
    refine ⟨t, ht, fun hadm => absurd hadm ha, fun _ => ?_, ?_⟩ <;> rw [hpipe] <;> rfl

end Sys2Proof.Machine

/-! The statements about PKT_PROC by the packet it is given: classification, length, hop field and payload
(42_pipeline.md R190 to R200). -/

namespace Sys2Proof.Machine

/-! ### What a skipped stage leaves

`r.fromN` is what stages N to 9 wrote in `r` beside valid_decode and FAIL_REASON, all else cleared. -/

namespace PipeRegs

/-- What stage 8 writes. -/
def from8 (r : PipeRegs) : PipeRegs :=
  { cleared with
    flags := r.flags &&& 0x80#8
    variant := r.variant
    msgId := r.msgId
    msgType := r.msgType
    adminType := r.adminType
    respKind := r.respKind
    respReason := r.respReason
    respHandle := r.respHandle
    respLen := r.respLen }

/-- What stages 7 to 9 write, and PLD_LEN. -/
def from7 (r : PipeRegs) : PipeRegs :=
  { r.from8 with
    flags := r.flags &&& 0xF0#8
    pldLen := r.pldLen
    keyRing := r.keyRing
    rounds := r.rounds
    keyIdx := r.keyIdx
    keysTried := r.keysTried
    pldCrcRx := r.pldCrcRx
    pldCrcCalc := r.pldCrcCalc }

/-- What stages 5 to 9 write. -/
def from5 (r : PipeRegs) : PipeRegs :=
  { r.from7 with fieldErr := r.fieldErr &&& 0xC0#8, hops := r.hops, maxHops := r.maxHops }

theorem from5_fail (r : PipeRegs) (reason : FailReason) : (r.fail reason).from5 = r.from5 := by
  rw [fail_eq]
  rfl

theorem from7_fail (r : PipeRegs) (reason : FailReason) : (r.fail reason).from7 = r.from7 := by
  rw [fail_eq]
  rfl

theorem from8_fail (r : PipeRegs) (reason : FailReason) : (r.fail reason).from8 = r.from8 := by
  rw [fail_eq]
  rfl

variable {r : PipeRegs}

theorem from7_eq_cleared (h : r.from5 = cleared) : r.from7 = cleared := by
  have h7 : { r.from5 with fieldErr := 0x00#8, hops := 0x00#8, maxHops := 0x00#8 } = r.from7 := rfl
  rw [← h7, h]
  rfl

theorem from8_eq_cleared (h : r.from7 = cleared) : r.from8 = cleared := by
  have hflags : r.flags &&& 0x80#8 = 0x00#8 := by
    have h7 : r.flags &&& 0xF0#8 = 0x00#8 := congrArg flags h
    rw [show (0x80#8 : Byte) = 0xF0#8 &&& 0x80#8 from rfl, ← BitVec.and_assoc, h7]
    rfl
  have h8 : r.from8 =
      { r.from7 with
        flags := r.flags &&& 0x80#8
        pldLen := 0x00#8
        keyRing := 0x00#8
        rounds := 0x00#8
        keyIdx := 0xFF#8
        keysTried := 0x00#8
        pldCrcRx := 0x00#8
        pldCrcCalc := 0x00#8 } := rfl
  rw [h8, h, hflags]
  rfl

/-- A flag that is 0 among those shown. -/
theorem getLsbD_eq_false_of_and {f m : Byte} (h : f &&& m = 0x00#8) {i : Nat} (hm : m.getLsbD i = true) :
    f.getLsbD i = false := by
  have hbit := congrArg (·.getLsbD i) h
  simpa [hm] using hbit

theorem noPayload_of_from8 (h : r.from8 = cleared) : NoPayload r where
  variant := (congrArg variant h :)
  parseErr := getLsbD_eq_false_of_and (m := 0x80#8) (congrArg flags h :) (by decide)
  msgId := (congrArg msgId h :)
  msgType := (congrArg msgType h :)
  adminType := (congrArg adminType h :)
  respKind := (congrArg respKind h :)
  respReason := (congrArg respReason h :)
  respHandle := (congrArg respHandle h :)
  respLen := (congrArg respLen h :)

theorem noDecryption_of_from7 (h : r.from7 = cleared) : NoDecryption r where
  noPayload := noPayload_of_from8 (from8_eq_cleared h)
  validDecrypt := getLsbD_eq_false_of_and (m := 0xF0#8) (congrArg flags h :) (by decide)
  validPayloadChecksum := getLsbD_eq_false_of_and (m := 0xF0#8) (congrArg flags h :) (by decide)
  valid := getLsbD_eq_false_of_and (m := 0xF0#8) (congrArg flags h :) (by decide)
  keyIdx := (congrArg keyIdx h :)
  keyRing := (congrArg keyRing h :)
  keysTried := (congrArg keysTried h :)
  rounds := (congrArg rounds h :)
  pldCrcRx := (congrArg pldCrcRx h :)
  pldCrcCalc := (congrArg pldCrcCalc h :)
  pldLen := (congrArg pldLen h :)

theorem noLaterStage_of_from5 (h : r.from5 = cleared) : NoLaterStage r where
  noDecryption := noDecryption_of_from7 (from7_eq_cleared h)
  hops := (congrArg hops h :)
  maxHops := (congrArg maxHops h :)
  hopErr := getLsbD_eq_false_of_and (m := 0xC0#8) (congrArg fieldErr h :) (by decide)
  pldErr := getLsbD_eq_false_of_and (m := 0xC0#8) (congrArg fieldErr h :) (by decide)

/-- Stage 9 sets no flag above valid_pid unless valid_decrypt stood. -/
theorem sealedFlags_and_0xF0 :
    ∀ (ok : Bool) (f : Byte), f &&& 0xF0#8 = 0x00#8 → sealedFlags ok f &&& 0xF0#8 = 0x00#8 := by
  decide

theorem sealed_from8 (ok : Bool) (h : r.from8 = cleared) :
    ({ r with flags := sealedFlags ok r.flags } : PipeRegs).from8 = cleared := by
  have hflags : sealedFlags ok r.flags &&& 0x80#8 = r.flags &&& 0x80#8 := by
    revert ok; generalize r.flags = f; revert f; decide
  rw [← h, from8, from8, hflags]

theorem sealed_from7 (ok : Bool) (h : r.from7 = cleared) :
    ({ r with flags := sealedFlags ok r.flags } : PipeRegs).from7 = cleared := by
  have h7 : { r.from7 with flags := sealedFlags ok r.flags &&& 0xF0#8 } =
    ({ r with flags := sealedFlags ok r.flags } : PipeRegs).from7 := rfl
  rw [← h7, sealedFlags_and_0xF0 ok _ (congrArg flags h :), h]
  rfl

theorem sealed_from5 (ok : Bool) (h : r.from5 = cleared) :
    ({ r with flags := sealedFlags ok r.flags } : PipeRegs).from5 = cleared := by
  have h5 : { r.from5 with flags := sealedFlags ok r.flags &&& 0xF0#8 } =
    ({ r with flags := sealedFlags ok r.flags } : PipeRegs).from5 := rfl
  rw [← h5, sealedFlags_and_0xF0 ok _ (congrArg flags h :), h]
  rfl

end PipeRegs

/-! ### The record before stage 5 -/

section BeforeStage5

variable {s : State} {pid : Nat} {k : Kind}

theorem headerRun_from5 (s : State) : (headerRun s).regs.from5 = PipeRegs.cleared := by
  have herr := s.hdrFieldErr_bits.2.1
  rw [headerRun_eq]
  simp only [PipeRegs.from5, PipeRegs.from7, herr]
  split <;> rfl

theorem badLengthRun_from5 (s : State) (pid : Nat) (k : Kind) :
    (badLengthRun s pid k).regs.from5 = PipeRegs.cleared :=
  (PipeRegs.from5_fail _ _).trans (headerRun_from5 s)

theorem classifiedRun_from5 (s : State) (pid : Nat) (k : Kind) :
    (classifiedRun s pid k).regs.from5 = PipeRegs.cleared := by
  rw [← headerRun_from5 s]
  simp [classifiedRun, pidRun, PipeRegs.from5, PipeRegs.from7, PipeRegs.from8, setBit_and, flagValidPid]

theorem headerRun_kind (s : State) : (headerRun s).regs.kind = 0xFF#8 := by rw [headerRun_eq]; rfl

theorem headerRun_validPid (s : State) : (headerRun s).regs.flags.getLsbD 3 = false := by
  rw [headerRun_eq]
  dsimp only
  split <;> rfl

/-- Nothing failed up to here but what FIELD_ERR and valid_header_checksum show. -/
def OnTrack (p : PipeRun) : Prop :=
  p.regs.failReason = 0x00#8 ↔ p.regs.fieldErr = 0x00#8 ∧ p.regs.flags.getLsbD 2 = true

theorem headerRun_onTrack (s : State) : OnTrack (headerRun s) := by
  unfold OnTrack
  rw [headerRun_eq]
  by_cases he : s.hdrFieldErr = 0x00#8 <;> by_cases hc : s.hdrCrcOk <;> simp [he, hc]

theorem classifiedRun_onTrack (s : State) (pid : Nat) (k : Kind) : OnTrack (classifiedRun s pid k) := by
  have hflag : (classifiedRun s pid k).regs.flags.getLsbD 2 = (headerRun s).regs.flags.getLsbD 2 :=
    setBit_other _ (by decide) (by decide) (by decide)
  unfold OnTrack
  rw [hflag]
  exact headerRun_onTrack s

/-- A header without failure, seen at the end. -/
theorem Later.headerRun_failReason {q : PipeRun} (h : Later PipeRegs.before3 (headerRun s) q)
    (hf : q.regs.fieldErr &&& 0x3F#8 = 0x00#8) (hc : q.regs.flags.getLsbD 2 = true) :
    (headerRun s).regs.failReason = 0x00#8 := by
  rw [h.fieldErr_header] at hf
  rw [h.validHeaderChecksum] at hc
  simp [headerRun_eq, hf, hc]

/-- The record of a packet without a kind, with the PID flags `flags` (42_pipeline.md R190). -/
def unclassifiedRun (s : State) (flags : Byte) : PipeRun :=
  ((headerRun s).enter 3).mapRegs (fun r => ({ r with pidFlags := flags } : PipeRegs).fail .pidUnknown)

/-- The PID flags are written when the PID decodes and else stay 0 (42_pipeline.md R190). -/
theorem Stage3Path.of_none {q : PipeRun} (h : Stage3Path s (headerRun s) (q, none)) :
    ∃ flags, q = unclassifiedRun s flags ∧
      (∀ pid, HeaderReads s .pid pid → flags = pidFlagsOf (pidMh s pid) (pidSa s pid)) ∧
      ((∀ x, ¬ HeaderReads s .pid x) → flags = 0x00#8) := by
  cases h with
  | undecodable hn =>
    refine ⟨0x00#8, ?_, fun pid hr => absurd hr (hn pid), fun _ => rfl⟩
    have hregs : ({ (headerRun s).regs with pidFlags := 0x00#8 } : PipeRegs) = (headerRun s).regs := by
      rw [headerRun_eq]
      rfl
    rw [unclassifiedRun, PipeRun.mapRegs, PipeRun.mapRegs, PipeRun.enter_regs, hregs]
  | unknown pid hr =>
    refine ⟨_, rfl, fun pid' hr' => ?_, fun hn => absurd hr (hn pid)⟩
    obtain rfl := hr.unique hr'
    rfl

theorem unclassifiedRun_from5 (s : State) (flags : Byte) :
    (unclassifiedRun s flags).regs.from5 = PipeRegs.cleared :=
  (PipeRegs.from5_fail _ _).trans (headerRun_from5 s)

end BeforeStage5

/-! ### Classification and length -/

section Classification

variable {s : State} {pid : Nat} {k : Kind}

/-- A classified packet holds its payload, so the decoded payload is a byte's count (42_pipeline.md R192). -/
theorem Classified.payload_le (h : Classified s pid k) : 3 * s.params.payloadSymbols k / 4 ≤ 255 := by
  obtain ⟨-, hlen⟩ := h
  have := s.pktLen.isLt
  split at hlen <;> omega

/-- What a packet with a kind ends with keeps its KIND and PID flags. -/
theorem PktPath.later_pid {e : Effect} (h : PktPath s e) (hk : PidIs s pid k) :
    ∃ q, Later PipeRegs.before4 (pidRun s pid k) q ∧ e.pipe = some (stage9 q) := by
  by_cases hc : Classified s pid k
  · obtain ⟨q, out, hq, rfl⟩ := h.of_classified hc
    exact ⟨q, (classifiedRun_later s pid k).trans (hq.later_classified.coarsen PipeRegs.before4_before5), rfl⟩
  · exact ⟨_, badLengthRun_later s pid k, congrArg Effect.pipe (h.of_badLength hk hc)⟩

theorem exec_pktProc_pid (h : Prompt 0x10#8 s) (hk : PidIs s pid k) :
    ∃ t q, exec .pktProc s = .next t ∧ Later PipeRegs.before4 (pidRun s pid k) q ∧
      t.pipe = { q.regs with flags := sealedFlags q.decodeOk q.regs.flags } := by
  obtain ⟨t, ht, hran⟩ := exec_pktProc h
  obtain ⟨q, hq, hpipe⟩ := (pktProc_path s).later_pid hk
  exact ⟨t, q, ht, hq, (hran.pipe_eq hpipe).trans (stage9_regs_eq q)⟩

theorem exec_pktProc_unclassified (h : Prompt 0x10#8 s) (ha : PacketAdmitted s) (hn : ∀ pid k, ¬ PidIs s pid k) :
    ∃ t q, exec .pktProc s = .next t ∧ Stage3Path s (headerRun s) (q, none) ∧
      t.pipe = { q.regs with flags := sealedFlags q.decodeOk q.regs.flags } := by
  obtain ⟨t, ht, hran⟩ := exec_pktProc h
  obtain ⟨q, hq, heff⟩ := (pktProc_path s).of_unclassified ha hn
  rw [heff] at hran
  exact ⟨t, q, ht, hq, (hran.pipe_eq rfl).trans (stage9_regs_eq q)⟩

theorem exec_pktProc_badLength (h : Prompt 0x10#8 s) (hk : PidIs s pid k) (hn : ¬ Classified s pid k) :
    ∃ t, exec .pktProc s = .next t ∧
      t.pipe = { (badLengthRun s pid k).regs with
        flags := sealedFlags (badLengthRun s pid k).decodeOk (badLengthRun s pid k).regs.flags } := by
  obtain ⟨t, ht, hran⟩ := exec_pktProc h
  rw [(pktProc_path s).of_badLength hk hn] at hran
  exact ⟨t, ht, (hran.pipe_eq rfl).trans (stage9_regs_eq _)⟩

theorem exec_pktProc_classified (h : Prompt 0x10#8 s) (hc : Classified s pid k) :
    ∃ t q out, exec .pktProc s = .next t ∧ PayloadPath s k (stage5 s k (classifiedRun s pid k)) q out ∧
      t.pipe = { q.regs with flags := sealedFlags q.decodeOk q.regs.flags } ∧ PldBufHolds t out := by
  obtain ⟨t, ht, hran⟩ := exec_pktProc h
  obtain ⟨q, out, hq, heff⟩ := (pktProc_path s).of_classified hc
  rw [heff] at hran
  refine ⟨t, q, out, ht, hq, (hran.pipe_eq rfl).trans (stage9_regs_eq _), hran.pldBufHolds rfl ?_⟩
  exact (hq.out_length.trans hc.payload_le).trans (by decide)

end Classification

/-- A failure after a header without one is the first (42_pipeline.md R184). -/
theorem Later.fail_first {s : State} {q : PipeRun} {r : PipeRegs} {reason : FailReason}
    (h : Later PipeRegs.before3 (headerRun s) q) (hr : r.failReason = (headerRun s).regs.failReason)
    (hf : q.regs.fieldErr &&& 0x3F#8 = 0x00#8) (hc : (sealedFlags q.decodeOk q.regs.flags).getLsbD 2 = true) :
    (r.fail reason).failReason = reason.code := by
  rw [sealedFlags_getLsbD_other _ _ (by decide)] at hc
  rw [PipeRegs.fail_failReason, hr, h.headerRun_failReason hf hc, if_pos rfl]

/-- Settles O43: what stage 3 wrote, by what the PID is. -/
theorem pktProcClassifiesByPid : Obligations.PktProcClassifiesByPid := by
  intro s h ha
  by_cases hkind : ∃ pid k, PidIs s pid k
  · obtain ⟨pid, k, hk⟩ := hkind
    obtain ⟨t, q, ht, hq, hpipe⟩ := exec_pktProc_pid h hk
    have hkindReg : t.pipe.kind = kindCode k := by
      rw [hpipe]
      exact (congrArg PipeRegs.kind hq.kept :)
    have hflags : t.pipe.pidFlags = pidFlagsOf (pidMh s pid) (pidSa s pid) := by
      rw [hpipe]
      exact (congrArg PipeRegs.pidFlags hq.kept :)
    refine ⟨t, ht, fun pid' k' hk' => ?_, fun pid' hr => ?_, fun hn => absurd hk.2.1 (hn pid),
      fun hn => absurd hk (hn pid k)⟩
    · obtain ⟨-, rfl⟩ := hk.unique hk'
      exact hkindReg
    · obtain rfl := hk.2.1.unique hr
      obtain ⟨hmh, hsa, -⟩ := pidFlagsOf_bits (pidMh s pid) (pidSa s pid)
      rw [hflags]
      exact ⟨hmh, hsa⟩
  · have hn : ∀ pid k, ¬ PidIs s pid k := fun pid k hk => hkind ⟨pid, k, hk⟩
    obtain ⟨t, q, ht, h3, hpipe⟩ := exec_pktProc_unclassified h ha hn
    obtain ⟨flags, rfl, hreads, hnone⟩ := h3.of_none
    have hflags : t.pipe.pidFlags = flags := by
      rw [hpipe]
      exact PipeRegs.fail_pidFlags _ _
    refine ⟨t, ht, fun pid k hk => absurd hk (hn pid k), fun pid hr => ?_, fun hno => hflags.trans (hnone hno), ?_⟩
    · obtain ⟨hmh, hsa, -⟩ := pidFlagsOf_bits (pidMh s pid) (pidSa s pid)
      rw [hflags, hreads pid hr]
      exact ⟨hmh, hsa⟩
    · intro _
      rw [hpipe]
      refine ⟨?_, ?_, PipeRegs.noLaterStage_of_from5 (PipeRegs.sealed_from5 _ (unclassifiedRun_from5 s flags)),
        fun hf hc => ?_⟩
      · exact (PipeRegs.fail_kind _ _).trans (headerRun_kind s)
      · rw [sealedFlags_getLsbD_other _ _ (by decide)]
        exact (congrArg (BitVec.getLsbD · 3) (PipeRegs.fail_flags _ _)).trans (headerRun_validPid s)
      · exact h3.later.fail_first (r := { (headerRun s).regs with pidFlags := flags }) rfl hf hc

/-- Settles O44: stage 4 either sets valid_pid or records the mismatch. -/
theorem pktProcChecksTheLength : Obligations.PktProcChecksTheLength := by
  intro s pid k h hk
  by_cases hc : Classified s pid k
  · obtain ⟨t, q, out, ht, hq, hpipe, -⟩ := exec_pktProc_classified h hc
    refine ⟨t, ht, ⟨fun _ => hc, fun _ => ?_⟩, fun hn => absurd hc hn⟩
    rw [hpipe]
    dsimp only
    rw [sealedFlags_getLsbD_other _ _ (by decide)]
    have hkept := getLsbD_eq_of_and_eq (m := 0x4F#8) (i := 3) (congrArg PipeRegs.flags hq.later_classified.kept :)
      (by decide)
    exact hkept.trans (setBit_self _ (by decide))
  · obtain ⟨t, ht, hpipe⟩ := exec_pktProc_badLength h hk hc
    have hflag : t.pipe.flags.getLsbD 3 = false := by
      rw [hpipe, sealedFlags_getLsbD_other _ _ (by decide)]
      exact (congrArg (BitVec.getLsbD · 3) (PipeRegs.fail_flags _ _)).trans (headerRun_validPid s)
    refine ⟨t, ht, ⟨fun h3 => absurd (hflag.symm.trans h3) (by decide), fun hcl => absurd hcl hc⟩, fun _ => ?_⟩
    rw [hpipe]
    refine ⟨PipeRegs.fail_kind _ _,
      PipeRegs.noLaterStage_of_from5 (PipeRegs.sealed_from5 _ (badLengthRun_from5 s pid k)), fun hf hcrc => ?_⟩
    exact (badLengthRun_later_header s pid k).fail_first (r := (pidRun s pid k).regs) rfl hf hcrc

/-! ### The hop field -/

/-- The hop count ranges are at most 8 bits wide (00_scope.md R8, 42_pipeline.md R195). -/
theorem Config.hop_ranges (c : Config) :
    c.params.hopsBits.hi - c.params.hopsBits.lo < 8 ∧ c.params.maxHopsBits.hi - c.params.maxHopsBits.lo < 8 := by
  have hl := c.legal
  simp only [Params.legal, Bool.and_eq_true, and_assoc] at hl
  obtain ⟨-, -, -, -, -, -, -, -, -, -, -, hhops, hmax, -⟩ := hl
  simp only [BitRange.inHopField, Bool.and_eq_true, decide_eq_true_eq] at hhops hmax
  exact ⟨hhops.2, hmax.2⟩

/-- A byte holds a range of at most 8 bits. -/
theorem hopBits_toNat (x : Nat) {r : BitRange} (hr : r.hi - r.lo < 8) :
    (hopBits x r).toNat = x / 2 ^ r.lo % 2 ^ (r.hi - r.lo + 1) := by
  have hlt : x / 2 ^ r.lo % 2 ^ (r.hi - r.lo + 1) < 2 ^ 8 :=
    (Nat.mod_lt _ (by positivity)).trans_le (Nat.pow_le_pow_right (by decide) hr)
  rw [hopBits, BitVec.toNat_ofNat, Nat.mod_eq_of_lt hlt]

/-- A hop field stands for at most one value. -/
theorem HopReads.unique {s : State} {k : Kind} {x y : Nat} (hx : HopReads s k x) (hy : HopReads s k y) : x = y := by
  rw [← hopField_eq_some_iff] at hx hy
  exact Option.some.inj (hx.symm.trans hy)

section Hops

variable {s : State} {pid : Nat} {k : Kind} {p q : PipeRun} {out : List Byte}

theorem classifiedRun_mh (s : State) (pid : Nat) (k : Kind) : (classifiedRun s pid k).regs.mh = pidMh s pid :=
  (pidFlagsOf_bits (pidMh s pid) (pidSa s pid)).1

/-- The bits of FIELD_ERR that stage 5 finds are 0. -/
theorem classifiedRun_fieldErr {i : Nat} (hi : (0xC0#8 : Byte).getLsbD i = true) (s : State) (pid : Nat) (k : Kind) :
    (classifiedRun s pid k).regs.fieldErr.getLsbD i = false :=
  PipeRegs.getLsbD_eq_false_of_and (congrArg PipeRegs.fieldErr (classifiedRun_from5 s pid k) :) hi

/-- What stage 5 wrote is kept to the end (42_pipeline.md R195). -/
theorem PayloadPath.hops_kept (h : PayloadPath s k p q out) :
    q.regs.hops = p.regs.hops ∧ q.regs.maxHops = p.regs.maxHops ∧
      q.regs.fieldErr.getLsbD 6 = p.regs.fieldErr.getLsbD 6 :=
  ⟨(congrArg PipeRegs.hops h.later.kept :), (congrArg PipeRegs.maxHops h.later.kept :),
    getLsbD_eq_of_and_eq (m := 0x7F#8) (congrArg PipeRegs.fieldErr h.later.kept :) (by decide)⟩

end Hops

/-- Settles O45: what stage 5 wrote, by the PID's flag and by what the hop symbols stand for. -/
theorem pktProcReadsTheHopField : Obligations.PktProcReadsTheHopField := by
  rintro s pid k syms h hc rfl
  obtain ⟨t, q, out, ht, hq, hpipe, -⟩ := exec_pktProc_classified h hc
  have hheader := hq.later_header
  have hmh := classifiedRun_mh s pid k
  have herr := classifiedRun_fieldErr (i := 6) (by decide) s pid k
  obtain ⟨hhopsLt, hmaxLt⟩ := Config.hop_ranges s.cfg
  have hcleared := classifiedRun_from5 s pid k
  have h5 := stage5_path s k (classifiedRun s pid k)
  generalize stage5 s k (classifiedRun s pid k) = p at hq h5
  obtain ⟨hhops, hmax, hbit⟩ := hq.hops_kept
  refine ⟨t, ht, ?_⟩
  rw [hpipe]
  dsimp only
  rw [hhops, hmax, hbit]
  cases h5 with
  | noField hm =>
    rw [hmh] at hm
    exact ⟨fun _ => ⟨(congrArg PipeRegs.hops hcleared :), (congrArg PipeRegs.maxHops hcleared :), herr⟩,
      fun h1 => absurd (hm.symm.trans h1) (by decide)⟩
  | reads x hm hx =>
    rw [hmh] at hm
    refine ⟨fun h0 => absurd (hm.symm.trans h0) (by decide),
      fun _ => ⟨fun y hy => ?_, fun hn => absurd hx (hn x)⟩⟩
    obtain rfl := hx.unique hy
    exact ⟨hopBits_toNat x hhopsLt, hopBits_toNat x hmaxLt, herr⟩
  | undecodable hm hx =>
    rw [hmh] at hm
    refine ⟨fun h0 => absurd (hm.symm.trans h0) (by decide),
      fun _ => ⟨fun y hy => absurd hy (hx y), fun _ => ?_⟩⟩
    have hset : q.regs.fieldErr.getLsbD 6 = true := by
      rw [hbit]
      exact (congrArg (BitVec.getLsbD · 6) (PipeRegs.fail_fieldErr _ _)).trans (setBit_self _ (by decide))
    refine ⟨(PipeRegs.fail_hops _ _).trans (congrArg PipeRegs.hops hcleared :),
      (PipeRegs.fail_maxHops _ _).trans (congrArg PipeRegs.maxHops hcleared :), hbit ▸ hset, ?_, fun hf hcrc => ?_⟩
    · rw [sealedFlags_validDecode _ hheader.validDecode, ← Bool.not_eq_true, hheader.decodeOk_iff]
      intro h0
      simp [h0] at hset
    · have hfirst : _ = FailReason.hopDecode.code :=
        hheader.fail_first (r := (classifiedRun s pid k).regs.setFieldErr fieldErrHop) rfl hf hcrc
      exact (hq.later.failure (by rw [PipeRun.mapRegs_regs]; exact hfirst ▸ by decide)).trans hfirst

/-! ### The payload -/

section Payload

variable {s : State} {pid : Nat} {k : Kind} {p q : PipeRun} {out d : List Byte}

theorem byte_toNat {n : Nat} (h : n ≤ 255) : (BitVec.ofNat 8 n).toNat = n := by
  rw [BitVec.toNat_ofNat]
  omega

/-- The record before stage 6: what stage 5 leaves of a classified packet. -/
structure ReadyForPayload (p : PipeRun) : Prop where
  from7 : p.regs.from7 = PipeRegs.cleared
  pldErr : p.regs.fieldErr.getLsbD fieldErrPld = false
  validPid : p.regs.flags.getLsbD flagValidPid = true
  onTrack : OnTrack p

/-- A hop field that does not decode is a failure, and FIELD_ERR shows it. -/
theorem stage5_ready (s : State) (pid : Nat) (k : Kind) : ReadyForPayload (stage5 s k (classifiedRun s pid k)) := by
  have h7 := PipeRegs.from7_eq_cleared (classifiedRun_from5 s pid k)
  have herr := classifiedRun_fieldErr (i := fieldErrPld) (by decide) s pid k
  have hpid : (classifiedRun s pid k).regs.flags.getLsbD flagValidPid = true := setBit_self _ (by decide)
  have hok := classifiedRun_onTrack s pid k
  have h5 := stage5_path s k (classifiedRun s pid k)
  generalize stage5 s k (classifiedRun s pid k) = p at h5
  cases h5 with
  | noField => exact ⟨h7, herr, hpid, hok⟩
  | reads => exact ⟨h7, herr, hpid, hok⟩
  | undecodable =>
    refine ⟨(PipeRegs.from7_fail _ _).trans h7, ?_, ?_, ?_⟩
    · refine (congrArg (BitVec.getLsbD · 7) (PipeRegs.fail_fieldErr _ _)).trans ?_
      exact (setBit_other _ (by decide) (by decide) (by decide)).trans herr
    · exact (congrArg (BitVec.getLsbD · 3) (PipeRegs.fail_flags _ _)).trans hpid
    · exact iff_of_false (PipeRegs.fail_failReason_ne _ _ (by decide))
        fun hno => setBit_ne_zero _ (by decide) ((PipeRegs.fail_fieldErr _ _).symm.trans hno.1)

/-- A payload that decodes sets PLD_LEN, KEY_RING and ROUNDS, whichever key is accepted (42_pipeline.md R196, R200). -/
theorem PayloadPath.decoded (h : PayloadPath s k p q out) (hd : StringReads s.symTable (payloadSyms s k) d) :
    q.regs.pldLen = BitVec.ofNat 8 d.length ∧ q.regs.rounds = BitVec.ofNat 8 (roundsOf s.params k) ∧
      q.regs.keyRing = boolByte (kindIsInvite k) ∧ q.regs.fieldErr = p.regs.fieldErr := by
  rcases accepted_or_none s k d with ⟨i, ha⟩ | hn
  · obtain ⟨rfl, -⟩ := h.of_accepted hd ha
    have hk := (stage8_later s k (s.plaintext k (cipherRegion s.params d) i) (acceptedRun s k d i p)).kept
    exact ⟨(congrArg PipeRegs.pldLen hk :), (congrArg PipeRegs.rounds hk :), (congrArg PipeRegs.keyRing hk :),
      (congrArg PipeRegs.fieldErr hk :)⟩
  · obtain ⟨rfl, -⟩ := h.of_noKey hd ((not_accepted_iff s k d).2 hn)
    unfold noKeyRun
    cases s.ringCount k <;> simp [lastTrial, tryKey, ringRun, payloadRun]

/-- Round counts fit ROUNDS (00_scope.md R8). -/
theorem Config.rounds_le (c : Config) : c.params.fullRounds ≤ 255 ∧ c.params.reducedRounds ≤ 255 := by
  have hl := c.legal
  simp only [Params.legal, Bool.and_eq_true, and_assoc, decide_eq_true_eq] at hl
  obtain ⟨-, -, -, -, -, -, -, -, -, -, -, -, -, -, hfull, -, hreduced⟩ := hl
  exact ⟨hfull, hreduced⟩

/-- ROUNDS by the kind (42_pipeline.md R200). -/
theorem roundsOf_toNat (s : State) (k : Kind) :
    (BitVec.ofNat 8 (roundsOf s.params k)).toNat =
      if k = .stream ∨ k = .streamAck ∨ k = .streamNack ∨ k = .streamTerm then s.params.reducedRounds
      else s.params.fullRounds := by
  obtain ⟨hfull, hreduced⟩ := Config.rounds_le s.cfg
  have hstream : kindIsStream k = true ↔ k = .stream ∨ k = .streamAck ∨ k = .streamNack ∨ k = .streamTerm := by
    cases k <;> decide
  have hle : roundsOf s.params k ≤ 255 := by
    unfold roundsOf
    split <;> assumption
  rw [byte_toNat hle]
  simp only [roundsOf, hstream]

theorem PayloadPath.length_eq (h : PayloadPath s k p q out) (hd : StringReads s.symTable (payloadSyms s k) d) :
    d.length = 3 * s.params.payloadSymbols k / 4 := by
  cases h with
  | undecodable hn => exact absurd hd (hn d)
  | noKey d' hd' hl => rwa [payload_unique hd hd']
  | accepted d' i hd' hl => rwa [payload_unique hd hd']

end Payload

/-- Settles O46: what stage 6 wrote, and the ring and rounds stage 7 takes, by what the payload symbols stand for. -/
theorem pktProcDecodesThePayload : Obligations.PktProcDecodesThePayload := by
  intro s pid k h hc
  obtain ⟨t, q, out, ht, hq, hpipe, -⟩ := exec_pktProc_classified h hc
  have hheader := hq.later_header
  obtain ⟨h7, hpld, -, hok⟩ := stage5_ready s pid k
  generalize stage5 s k (classifiedRun s pid k) = p at hq h7 hpld hok
  refine ⟨t, ht, fun d hd => ?_, fun hn => ?_⟩ <;> rw [hpipe]
  · obtain ⟨hlen, hrounds, hring, herr⟩ := hq.decoded hd
    have hle := hc.payload_le
    have hd' := hq.length_eq hd
    dsimp only
    rw [hlen, hrounds, hring, herr, byte_toNat (by omega)]
    refine ⟨rfl, hd', hpld, roundsOf_toNat s k, ?_⟩
    cases k <;> rfl
  · obtain ⟨rfl, -⟩ := hq.of_undecodable hn
    have hset : ((((p.enter 6).decodeFailed.mapRegs
        (fun r => (r.setFieldErr fieldErrPld).fail .pldDecode)).regs.fieldErr).getLsbD 7) = true :=
      (congrArg (BitVec.getLsbD · 7) (PipeRegs.fail_fieldErr _ _)).trans (setBit_self _ (by decide))
    refine ⟨hset, ?_, PipeRegs.noDecryption_of_from7 (PipeRegs.sealed_from7 _ ((PipeRegs.from7_fail _ _).trans h7)),
      fun hf hcrc => ?_⟩
    · rw [sealedFlags_validDecode _ hheader.validDecode]
      rfl
    · have hlow : p.regs.fieldErr &&& 0x7F#8 = 0x00#8 := by
        rw [← setBit_and (i := 7) (by decide) (by decide)]
        exact (congrArg (· &&& 0x7F#8) (PipeRegs.fail_fieldErr _ _).symm).trans hf
      have hzero : ∀ e : Byte, e &&& 0x7F#8 = 0x00#8 → e.getLsbD fieldErrPld = false → e = 0x00#8 := by decide
      rw [sealedFlags_getLsbD_other _ _ (by decide)] at hcrc
      have hcrc' := (congrArg (BitVec.getLsbD · 2) (PipeRegs.fail_flags _ _)).symm.trans hcrc
      have hp : p.regs.failReason = 0x00#8 := hok.2 ⟨hzero _ hlow hpld, hcrc'⟩
      exact (PipeRegs.fail_failReason _ _).trans (if_pos hp)

end Sys2Proof.Machine

/-! The statements about PKT_PROC's keys and variants (42_pipeline.md R201 to R208), and about every run: its frame and
FAIL_REASON. -/

namespace Sys2Proof.Machine

/-! ### Trial decryption -/

section Keys

variable {s : State} {pid : Nat} {k : Kind} {p q : PipeRun} {out d : List Byte} {i : Nat}

theorem State.ringCount_le (s : State) (k : Kind) : s.ringCount k ≤ 255 := by
  have hkey := s.keyCount.isLt
  have hinvite := s.invKeyCount.isLt
  unfold State.ringCount
  split <;> omega

theorem dispatchVariant_msgId (c : Params) (k : Kind) (pt : List Byte) (r : PipeRegs) :
    (dispatchVariant c k pt r).msgId = r.msgId := by
  unfold dispatchVariant
  split
  case h_1 =>
    unfold singleData
    dsimp only
    split
    case h_5 => exact PipeRegs.fail_msgId _ _
    all_goals rfl
  all_goals rfl

/-- An accepted key raises both flags (42_pipeline.md R203). -/
theorem acceptedRun_flags (s : State) (k : Kind) (d : List Byte) (i : Nat) (p : PipeRun) :
    (acceptedRun s k d i p).regs.flags.getLsbD 4 = true ∧ (acceptedRun s k d i p).regs.flags.getLsbD 5 = true :=
  ⟨(setBit_other _ (by decide) (by decide) (by decide)).trans (setBit_self _ (by decide)), setBit_self _ (by decide)⟩

/-- Stage 8 keeps every flag but parse_err. -/
theorem stage8_flags (s : State) (k : Kind) (pt : List Byte) (p : PipeRun) {j : Nat}
    (hj : (0x7F#8 : Byte).getLsbD j = true) : (stage8 s k pt p).regs.flags.getLsbD j = p.regs.flags.getLsbD j :=
  getLsbD_eq_of_and_eq (congrArg PipeRegs.flags (stage8_later s k pt p).kept :) hj

/-- What a run without an accepted key keeps of the stages before, and its failure (42_pipeline.md R204). -/
theorem noKeyRun_kept (s : State) (k : Kind) (d : List Byte) (p : PipeRun) :
    (noKeyRun s k d p).regs.flags = p.regs.flags ∧ (noKeyRun s k d p).regs.keyIdx = p.regs.keyIdx ∧
      (noKeyRun s k d p).regs.from8 = p.regs.from8 ∧
      (noKeyRun s k d p).regs.failReason = (p.regs.fail .decrypt).failReason := by
  unfold noKeyRun
  rw [PipeRun.mapRegs_regs, PipeRegs.fail_flags, PipeRegs.fail_keyIdx, PipeRegs.from8_fail, PipeRegs.fail_failReason,
    PipeRegs.fail_failReason]
  cases s.ringCount k <;> exact ⟨rfl, rfl, rfl, rfl⟩

/-- The trial registers after the keys were tried in vain: those of the last key (42_pipeline.md R204). -/
theorem noKeyRun_trials (s : State) (k : Kind) (d : List Byte) (h7 : p.regs.from7 = PipeRegs.cleared) :
    (noKeyRun s k d p).regs.keysTried = BitVec.ofNat 8 (s.ringCount k) ∧
      (s.ringCount k = 0 → (noKeyRun s k d p).regs.pldCrcCalc = 0x00#8 ∧ (noKeyRun s k d p).regs.pldCrcRx = 0x00#8) ∧
      ∀ n, s.ringCount k = n + 1 →
        (noKeyRun s k d p).regs.pldCrcCalc = payloadCrc s.params (s.plaintext k (cipherRegion s.params d) n) ∧
        (noKeyRun s k d p).regs.pldCrcRx = byteAt (s.plaintext k (cipherRegion s.params d) n) s.params.pldCrcIdx := by
  unfold noKeyRun
  rw [PipeRun.mapRegs_regs, PipeRegs.fail_keysTried, PipeRegs.fail_pldCrcCalc, PipeRegs.fail_pldCrcRx]
  cases s.ringCount k with
  | zero =>
    exact ⟨(congrArg PipeRegs.keysTried h7 :),
      fun _ => ⟨(congrArg PipeRegs.pldCrcCalc h7 :), (congrArg PipeRegs.pldCrcRx h7 :)⟩,
      fun n hn => absurd hn (by omega)⟩
  | succ m =>
    refine ⟨rfl, fun h0 => absurd h0 (by omega), fun n hn => ?_⟩
    obtain rfl : m = n := by omega
    exact ⟨rfl, rfl⟩

end Keys

/-- Settles O47: the loop ends at the first matching key, and stage 8 keeps what stage 7 wrote. -/
theorem pktProcAcceptsTheFirstMatchingKey : Obligations.PktProcAcceptsTheFirstMatchingKey := by
  intro s pid k d i h hc hd ha
  obtain ⟨t, q, out, ht, hq, hpipe, hbuf⟩ := exec_pktProc_classified h hc
  obtain ⟨rfl, rfl⟩ := hq.of_accepted hd ha
  generalize stage5 s k (classifiedRun s pid k) = p at hpipe
  have hkept := (stage8_later s k (s.plaintext k (cipherRegion s.params d) i) (acceptedRun s k d i p)).kept
  have hcount := s.ringCount_le k
  obtain ⟨hlt, hmatch, -⟩ := ha
  obtain ⟨hflag4, hflag5⟩ := acceptedRun_flags s k d i p
  refine ⟨t, ht, ?_⟩
  rw [hpipe]
  refine ⟨(congrArg (fun r : PipeRegs => r.keyIdx.toNat) hkept :).trans (byte_toNat (by omega)),
    (congrArg (fun r : PipeRegs => r.keysTried.toNat) hkept :).trans (byte_toNat (by omega)),
    (congrArg PipeRegs.pldCrcCalc hkept :), ?_, ?_, ?_, hbuf, dispatchVariant_msgId _ _ _ _⟩
  · calc _ = byteAt (s.plaintext k (cipherRegion s.params d) i) s.params.pldCrcIdx :=
          (congrArg PipeRegs.pldCrcRx hkept :)
      _ = payloadCrc s.params (s.plaintext k (cipherRegion s.params d) i) := hmatch.symm
      _ = _ := (congrArg PipeRegs.pldCrcCalc hkept.symm :)
  · rw [sealedFlags_getLsbD_other _ _ (by decide), stage8_flags _ _ _ _ (by decide), hflag4]
  · rw [sealedFlags_getLsbD_other _ _ (by decide), stage8_flags _ _ _ _ (by decide), hflag5]

/-- Settles O48: no trial raises a flag, and the last one leaves its checksums. -/
theorem pktProcWithNoMatchingKey : Obligations.PktProcWithNoMatchingKey := by
  intro s pid k d h hc hd hn
  obtain ⟨t, q, out, ht, hq, hpipe, hbuf⟩ := exec_pktProc_classified h hc
  obtain ⟨h7, -, -, hok⟩ := stage5_ready s pid k
  obtain ⟨-, -, -, herr⟩ := hq.decoded hd
  obtain ⟨rfl, rfl⟩ := hq.of_noKey hd hn
  generalize stage5 s k (classifiedRun s pid k) = p at hpipe h7 hok herr
  have hcount := s.ringCount_le k
  obtain ⟨hflags, hkeyIdx, h8, hfail⟩ := noKeyRun_kept s k out p
  obtain ⟨htried, hzero, hsucc⟩ := noKeyRun_trials s k out h7
  have hf0 : p.regs.flags &&& 0xF0#8 = 0x00#8 := (congrArg PipeRegs.flags h7 :)
  have hsealed := PipeRegs.sealedFlags_and_0xF0 (noKeyRun s k out p).decodeOk _ (hflags ▸ hf0)
  refine ⟨t, ht, ?_⟩
  rw [hpipe]
  dsimp only
  refine ⟨hkeyIdx.trans (congrArg PipeRegs.keyIdx h7 :), ?_, PipeRegs.getLsbD_eq_false_of_and hsealed (by decide),
    PipeRegs.getLsbD_eq_false_of_and hsealed (by decide), PipeRegs.getLsbD_eq_false_of_and hsealed (by decide),
    PipeRegs.noPayload_of_from8 (PipeRegs.sealed_from8 _ (h8.trans (PipeRegs.from8_eq_cleared h7))), hbuf,
    fun hf hcrc => ?_, hzero, hsucc⟩
  · rw [htried, byte_toNat (by omega)]
  · rw [sealedFlags_getLsbD_other _ _ (by decide), hflags] at hcrc
    rw [hfail, PipeRegs.fail_failReason, if_pos (hok.2 ⟨herr ▸ hf, hcrc⟩)]
    rfl

/-! ### Variant dispatch -/

/-- The variant of a message class, NONE for an unknown type (42_pipeline.md R207). -/
def msgVariant : Option MsgClass → Byte
  | some .app => 0x01#8
  | some .admin => 0x02#8
  | some .features => 0x03#8
  | some .route => 0x04#8
  | none => 0x00#8

section Dispatch

variable (c : Params) (k : Kind) (pt : List Byte) (r : PipeRegs)

/-- A kind other than single data has no message type (42_pipeline.md R206). -/
theorem dispatchVariant_of_ne_singleData (h : k ≠ .singleData) :
    (dispatchVariant c k pt r).msgType = r.msgType ∧ (dispatchVariant c k pt r).adminType = r.adminType ∧
      (dispatchVariant c k pt r).flags = r.flags := by
  cases k
  case singleData => exact absurd rfl h
  all_goals exact ⟨rfl, rfl, rfl⟩

/-- The kinds of `usesResponse` are the acknowledgements, whose variant is Response (42_pipeline.md R208). -/
theorem dispatchVariant_of_usesResponse (h : k.usesResponse = true) :
    ∃ a, dispatchVariant c k pt r = response c pt a r := by
  cases k
  case singleAck | singleNack | routeAck | routeNack | blockAck | blockNack | streamAck | streamNack => exact ⟨_, rfl⟩
  all_goals exact absurd h (by decide)

theorem singleData_resp :
    (singleData c pt r).respKind = r.respKind ∧ (singleData c pt r).respReason = r.respReason ∧
      (singleData c pt r).respHandle = r.respHandle ∧ (singleData c pt r).respLen = r.respLen := by
  unfold singleData
  dsimp only
  split <;> simp

/-- A kind without a Response writes no response register (42_pipeline.md R208). -/
theorem dispatchVariant_of_not_usesResponse (h : k.usesResponse = false) :
    (dispatchVariant c k pt r).respKind = r.respKind ∧ (dispatchVariant c k pt r).respReason = r.respReason ∧
      (dispatchVariant c k pt r).respHandle = r.respHandle ∧ (dispatchVariant c k pt r).respLen = r.respLen := by
  cases k
  case singleData => exact singleData_resp c pt r
  case singleAck | singleNack | routeAck | routeNack | blockAck | blockNack | streamAck | streamNack =>
    exact absurd h (by decide)
  all_goals exact ⟨rfl, rfl, rfl, rfl⟩

/-- Single data, by the class of its message type, over registers without a payload (42_pipeline.md R207). -/
theorem singleData_eq (hv : r.variant = 0x00#8) (ha : r.adminType = 0x00#8)
    (hf : r.flags.getLsbD flagParseErr = false) :
    (singleData c pt r).msgType = byteAt pt c.msgTypeIdx ∧
      (singleData c pt r).variant = msgVariant c.msgTypeMap[(byteAt pt c.msgTypeIdx).toNat] ∧
      (singleData c pt r).adminType =
        (if c.msgTypeMap[(byteAt pt c.msgTypeIdx).toNat] = some .admin then byteAt pt c.adminTypeIdx else 0x00#8) ∧
      ((singleData c pt r).flags.getLsbD flagParseErr = true ↔
        c.msgTypeMap[(byteAt pt c.msgTypeIdx).toNat] = none) ∧
      (c.msgTypeMap[(byteAt pt c.msgTypeIdx).toNat] = none →
        (singleData c pt r).failReason = (r.fail .parse).failReason) := by
  unfold singleData
  dsimp only
  split
  case h_5 hm =>
    refine ⟨PipeRegs.fail_msgType _ _, ?_, ?_, iff_of_true ?_ hm, fun _ => ?_⟩
    · rw [hm, PipeRegs.fail_variant]
      exact hv
    · rw [hm, if_neg (by decide), PipeRegs.fail_adminType]
      exact ha
    · rw [PipeRegs.fail_flags]
      exact setBit_self _ (by decide)
    · rw [PipeRegs.fail_failReason, PipeRegs.fail_failReason]
      rfl
  all_goals
    next hm => simp [hm, hf, ha, msgVariant]

end Dispatch

section Accepted

variable {s : State} {pid : Nat} {k : Kind} {p q : PipeRun} {out d pt : List Byte} {i : Nat}

/-- Stage 7 writes nothing of stage 8. -/
theorem acceptedRun_from8 (s : State) (k : Kind) (d : List Byte) (i : Nat) (p : PipeRun) :
    (acceptedRun s k d i p).regs.from8 = p.regs.from8 := by
  have hflags : (acceptedRun s k d i p).regs.flags &&& 0x80#8 = p.regs.flags &&& 0x80#8 :=
    (setBit_and (by decide) (by decide)).trans (setBit_and (by decide) (by decide))
  have h8 : (acceptedRun s k d i p).regs.from8 =
    { p.regs.from8 with flags := (acceptedRun s k d i p).regs.flags &&& 0x80#8 } := rfl
  rw [h8, hflags]
  rfl

/-- The registers stage 8 dispatches on (42_pipeline.md R206). -/
def PipeRegs.withMsgId (r : PipeRegs) (c : Params) (pt : List Byte) : PipeRegs :=
  { r with msgId := byteAt pt c.msgIdIdx }

theorem stage8_regs (s : State) (k : Kind) (pt : List Byte) (p : PipeRun) :
    (stage8 s k pt p).regs = dispatchVariant s.params k pt (p.regs.withMsgId s.params pt) := rfl

end Accepted

/-- Settles O49: the dispatch by kind over registers in which nothing of stage 8 stands. -/
theorem pktProcDispatchesTheVariant : Obligations.PktProcDispatchesTheVariant := by
  rintro s pid k d pt i h hc hd ha rfl
  generalize hpt : s.plaintext k (cipherRegion s.params d) i = pt
  obtain ⟨t, q, out, ht, hq, hpipe, -⟩ := exec_pktProc_classified h hc
  obtain ⟨h7, -, -, hok⟩ := stage5_ready s pid k
  generalize stage5 s k (classifiedRun s pid k) = p at hq h7 hok
  obtain ⟨-, -, -, herr⟩ := hq.decoded hd
  have hcrc : q.regs.flags.getLsbD 2 = p.regs.flags.getLsbD 2 :=
    getLsbD_eq_of_and_eq (m := 0x4F#8) (congrArg PipeRegs.flags hq.later.kept :) (by decide)
  obtain ⟨rfl, -⟩ := hq.of_accepted hd ha
  rw [hpt, stage8_regs] at hpipe herr hcrc
  have hblank := PipeRegs.noPayload_of_from8 ((acceptedRun_from8 s k d i p).trans (PipeRegs.from8_eq_cleared h7))
  have hfirst : (acceptedRun s k d i p).regs.failReason = p.regs.failReason := rfl
  generalize (acceptedRun s k d i p).regs = r at hpipe herr hcrc hblank hfirst
  refine ⟨t, ht, ?_⟩
  rw [hpipe]
  dsimp only
  rw [sealedFlags_getLsbD_other _ _ (j := 7) (by decide),
    sealedFlags_getLsbD_other _ _ (j := 2) (by decide)]
  refine ⟨dispatchVariant_msgId _ _ _ _, ?_, fun hne => ?_, ?_, ?_, ?_, ?_, ?_, ?_, fun hu => ?_, fun hu => ?_⟩
  · rintro rfl
    obtain ⟨htype, hvariant, hadmin, hflag, hfail⟩ := singleData_eq s.params pt (r.withMsgId s.params pt)
      hblank.variant hblank.adminType hblank.parseErr
    refine ⟨htype, hvariant, hadmin, hflag, fun hset hf hc => (hfail (hflag.1 hset)).trans ?_⟩
    have hp : r.failReason = 0x00#8 := hfirst.trans (hok.2 ⟨herr ▸ hf, hcrc ▸ hc⟩)
    exact (PipeRegs.fail_failReason _ _).trans (if_pos hp)
  · obtain ⟨htype, hadmin, hflags⟩ := dispatchVariant_of_ne_singleData s.params k pt (r.withMsgId s.params pt) hne
    exact ⟨htype.trans hblank.msgType, hadmin.trans hblank.adminType,
      (congrArg (BitVec.getLsbD · 7) hflags).trans hblank.parseErr⟩
  · rintro rfl
    rfl
  · rintro (rfl | rfl) <;> rfl
  · rintro (rfl | rfl) <;> rfl
  · rintro (rfl | rfl) <;> rfl
  · rintro (rfl | rfl | rfl | rfl) <;> exact ⟨rfl, rfl⟩
  · rintro (rfl | rfl | rfl | rfl) <;> exact ⟨rfl, rfl⟩
  · obtain ⟨a, hdispatch⟩ := dispatchVariant_of_usesResponse s.params k pt (r.withMsgId s.params pt) hu
    rw [hdispatch]
    exact ⟨rfl, rfl, rfl⟩
  · obtain ⟨hkind, hreason, hhandle, hlen⟩ :=
      dispatchVariant_of_not_usesResponse s.params k pt (r.withMsgId s.params pt) hu
    exact ⟨hkind.trans hblank.respKind, hreason.trans hblank.respReason, hhandle.trans hblank.respHandle,
      hlen.trans hblank.respLen⟩

/-! ### FAIL_REASON against FLAGS -/

section FullyValid

variable {s : State} {pid : Nat} {k : Kind} {p q : PipeRun} {out d : List Byte} {i : Nat}

theorem ne_0x7F_of_getLsbD {f : Byte} {j : Nat} (h : f.getLsbD j ≠ (0x7F#8 : Byte).getLsbD j) : f ≠ 0x7F#8 :=
  fun heq => h (by rw [heq])

/-- A packet that stopped before an accepted key: a failure is recorded, and valid_decrypt is 0. -/
theorem fullyValid_of_stopped (hfail : q.regs.failReason ≠ 0x00#8)
    (hflag : q.regs.flags.getLsbD flagValidDecrypt = false) :
    q.regs.failReason = 0x00#8 ↔ sealedFlags q.decodeOk q.regs.flags = 0x7F#8 := by
  refine iff_of_false hfail (ne_0x7F_of_getLsbD (j := flagValidDecrypt) ?_)
  rw [sealedFlags_getLsbD_other _ _ (by decide), hflag]
  decide

/-- FLAGS of an accepted packet whose message type is known: full exactly when the header checksum is right and every
decode succeeded (42_pipeline.md R209). -/
theorem sealedFlags_eq_0x7F_iff : ∀ (ok : Bool) (f : Byte), f.getLsbD 0 = true → f.getLsbD 1 = false →
    f.getLsbD 3 = true → f.getLsbD 4 = true → f.getLsbD 5 = true → f.getLsbD 6 = false → f.getLsbD 7 = false →
    (sealedFlags ok f = 0x7F#8 ↔ ok = true ∧ f.getLsbD 2 = true) := by
  decide

/-- A packet with an accepted key is fully valid unless an earlier decode or checksum, or its message type, failed. -/
theorem fullyValid_of_accepted {pt : List Byte} (hp : ReadyForPayload p)
    (hheader : Later PipeRegs.before3 (headerRun s) q) (hlater : Later PipeRegs.before6 p q)
    (hq : q = stage8 s k pt (acceptedRun s k d i p)) :
    q.regs.failReason = 0x00#8 ↔ sealedFlags q.decodeOk q.regs.flags = 0x7F#8 := by
  have hearly : ∀ j, (0x4F#8 : Byte).getLsbD j = true → q.regs.flags.getLsbD j = p.regs.flags.getLsbD j :=
    fun j hj => getLsbD_eq_of_and_eq (congrArg PipeRegs.flags hlater.kept :) hj
  have hpid := (hearly 3 (by decide)).trans hp.validPid
  have hcrc := hearly 2 (by decide)
  obtain ⟨hflag4, hflag5⟩ := acceptedRun_flags s k d i p
  have hparse := (PipeRegs.noPayload_of_from8
    ((acceptedRun_from8 s k d i p).trans (PipeRegs.from8_eq_cleared hp.from7))).parseErr
  have hkept := (stage8_later s k pt (acceptedRun s k d i p)).kept
  have hdispatch := dispatchVariant_flags s.params k pt ((acceptedRun s k d i p).regs.withMsgId s.params pt)
  rw [← stage8_regs, ← hq] at hdispatch
  rw [← hq] at hkept
  rcases hdispatch with ⟨hflags, hfail⟩ | ⟨hflags, hfail⟩
  · have hdecrypt : q.regs.flags.getLsbD 4 = true := (congrArg (BitVec.getLsbD · 4) hflags).trans hflag4
    have hpayload : q.regs.flags.getLsbD 5 = true := (congrArg (BitVec.getLsbD · 5) hflags).trans hflag5
    have hknown : q.regs.flags.getLsbD 7 = false := (congrArg (BitVec.getLsbD · 7) hflags).trans hparse
    have herr : q.regs.fieldErr = p.regs.fieldErr := (congrArg PipeRegs.fieldErr hkept :)
    rw [sealedFlags_eq_0x7F_iff _ _ hheader.validDigits hheader.validDecode hpid hdecrypt hpayload hheader.valid hknown,
      hheader.decodeOk_iff, herr, hcrc, hfail]
    exact hp.onTrack
  · refine iff_of_false (hfail ▸ PipeRegs.fail_failReason_ne _ _ (by decide))
      (ne_0x7F_of_getLsbD (j := flagParseErr) ?_)
    rw [sealedFlags_getLsbD_other _ _ (by decide), hflags, setBit_self _ (by decide)]
    decide

end FullyValid

/-- Settles O51: a path without failure is one with an accepted key, on which FLAGS tells what failed. -/
theorem noFailReasonMeansAFullyValidPacket : Obligations.NoFailReasonMeansAFullyValidPacket := by
  intro s h
  by_cases ha : PacketAdmitted s
  case neg =>
    obtain ⟨c, hc, -⟩ := (pktProc_path s).of_not_admitted ha
    obtain ⟨t, ht, -, hpipe, -⟩ := exec_pktProc_aborted h hc
    exact ⟨t, ht, by rw [hpipe]; decide⟩
  obtain ⟨t, ht, hran⟩ := exec_pktProc h
  refine ⟨t, ht, ?_⟩
  rcases (pktProc_path s).admitted_cases ha with ⟨q, hq, heff⟩ | ⟨pid, k, heff⟩ | ⟨pid, k, q, out, hc, hq, heff⟩ <;>
    rw [heff] at hran <;> rw [hran.pipe_eq rfl, stage9_regs_eq]
  · obtain ⟨flags, rfl, -⟩ := hq.of_none
    exact fullyValid_of_stopped (PipeRegs.fail_failReason_ne _ _ (by decide))
      (PipeRegs.noLaterStage_of_from5 (unclassifiedRun_from5 s flags)).noDecryption.validDecrypt
  · exact fullyValid_of_stopped (PipeRegs.fail_failReason_ne _ _ (by decide))
      (PipeRegs.noLaterStage_of_from5 (badLengthRun_from5 s pid k)).noDecryption.validDecrypt
  · have hp := stage5_ready s pid k
    have hheader := hq.later_header
    generalize stage5 s k (classifiedRun s pid k) = p at hq hp
    have hflag := (PipeRegs.noDecryption_of_from7 hp.from7).validDecrypt
    rcases hq.cases_on with ⟨rfl, -⟩ | ⟨d, rfl, -⟩ | ⟨d, i, hq8, -⟩
    · exact fullyValid_of_stopped (PipeRegs.fail_failReason_ne _ _ (by decide))
        ((congrArg (BitVec.getLsbD · 4) (PipeRegs.fail_flags _ _)).trans hflag)
    · obtain ⟨hflags, -, -, hfail⟩ := noKeyRun_kept s k d p
      exact fullyValid_of_stopped (hfail ▸ PipeRegs.fail_failReason_ne _ _ (by decide)) (hflags ▸ hflag)
    · exact fullyValid_of_accepted hp hheader hq.later hq8

/-! ### The frame of PKT_PROC -/

/-- PKT_PROC writes PLD_LEN bytes of PLD_BUF (42_pipeline.md section 2). -/
theorem PktPath.mem_eq_pldLen {s : State} {e : Effect} (h : PktPath s e) :
    ∃ q out, e.pipe = some q ∧ e.mem = cellsAt pldBufBase out ∧ q.regs.pldLen.toNat = out.length := by
  by_cases ha : PacketAdmitted s
  case neg =>
    obtain ⟨c, -, rfl⟩ := h.of_not_admitted ha
    exact ⟨_, [], rfl, rfl, rfl⟩
  rcases h.admitted_cases ha with ⟨q, hq, rfl⟩ | ⟨pid, k, rfl⟩ | ⟨pid, k, q, out, hc, hq, rfl⟩
  · obtain ⟨flags, rfl, -⟩ := hq.of_none
    refine ⟨_, [], rfl, rfl, ?_⟩
    rw [stage9_regs_eq]
    exact congrArg BitVec.toNat (PipeRegs.noLaterStage_of_from5 (unclassifiedRun_from5 s flags)).noDecryption.pldLen
  · refine ⟨_, [], rfl, rfl, ?_⟩
    rw [stage9_regs_eq]
    exact congrArg BitVec.toNat (PipeRegs.noLaterStage_of_from5 (badLengthRun_from5 s pid k)).noDecryption.pldLen
  · refine ⟨_, out, rfl, rfl, ?_⟩
    rw [stage9_regs_eq]
    have hp := stage5_ready s pid k
    have hle := hc.payload_le
    generalize stage5 s k (classifiedRun s pid k) = p at hq hp
    cases hcase : hq with
    | undecodable hn =>
      exact congrArg BitVec.toNat ((PipeRegs.fail_pldLen (p.regs.setFieldErr fieldErrPld) _).trans
        (PipeRegs.noDecryption_of_from7 hp.from7).pldLen)
    | noKey _ hd hl hm =>
      obtain ⟨hlen, -⟩ := hq.decoded hd
      exact (congrArg BitVec.toNat hlen).trans (byte_toNat (by omega))
    | accepted d i hd hl hacc =>
      obtain ⟨hlen, -⟩ := hq.decoded hd
      refine (congrArg BitVec.toNat hlen).trans ((byte_toNat (by omega)).trans ?_)
      rw [List.length_append, State.plaintext_length, ← List.length_append, cipherRegion_append_trailer]

/-- Settles O40: the frame of the command, whose bytes are the PLD_LEN first of PLD_BUF. -/
theorem pktProcWritesOnlyItsResults : Obligations.PktProcWritesOnlyItsResults := by
  intro s h
  obtain ⟨t, ht, hran⟩ := exec_pktProc h
  obtain ⟨q, out, hpipe, hmem, hlen⟩ := (pktProc_path s).mem_eq_pldLen
  refine ⟨t, _, ht, hran.ran, fun ha => ?_, hran.frame.mono fun a ha => ha.imp_right ?_⟩
  · obtain ⟨herr, -⟩ := (pktProc_path s).later_header ha
    rw [herr]
    rfl
  · rintro (⟨c, hc, rfl⟩ | hres)
    · rw [hran.pipe_eq hpipe, hlen]
      exact .inr (mem_cellsAt (hmem ▸ hc))
    · exact .inl hres

end Sys2Proof.Machine

/-! Control (43_control.md): what a host write stores while IDLE and while BUSY, what NOP and ILLEGAL leave, and where a
command of any LATENCY ends. -/

namespace Sys2Proof.Machine

/-! ### One byte of the address map is written -/

/-- All that the address map does not show is the same: the pins, the sequencer, and what the host port shows of
reads. -/
structure SameBesideMap (s t : State) : Prop where
  pins : SamePins s t
  sequencer : SameSequencer s t
  reads : SameReads s t

/-- A map in which one byte is replaced differs there only. -/
theorem sameMapExcept_of_peek_eq_update {s t : State} {a : Nat} {v : Byte}
    (h : t.peek = Function.update s.peek a v) : SameMapExcept (· = a) s t := fun b _ hb => by
  rw [h, Function.update_of_ne hb]

/-- Two states with the same ARG, RES, pipeline results and buffers show the same wherever the eight control and status
registers agree. -/
theorem State.peek_congr_ctl {s t : State} (harg : t.arg = s.arg) (hres : t.res = s.res) (hpipe : t.pipe = s.pipe)
    (hmem : t.mem = s.mem) (hepoch : t.epoch = s.epoch) {a : Nat}
    (hctl : a < 0x008 → t.ctlBytes.getD a 0x00#8 = s.ctlBytes.getD a 0x00#8) : t.peek a = s.peek a :=
  State.peek_congr s t a hctl (fun _ _ => harg ▸ rfl) (fun _ _ => hres ▸ rfl) (fun _ _ => hpipe ▸ rfl)
    (fun _ _ => State.readByte_congr hmem hepoch a)

/-- A write to one of the eight control and status registers. -/
theorem State.peek_setCtl {s t : State} {i : Nat} {v : Byte} (hi : i < 0x008) (hctl : t.ctlBytes = s.ctlBytes.set i v)
    (harg : t.arg = s.arg) (hres : t.res = s.res) (hpipe : t.pipe = s.pipe) (hmem : t.mem = s.mem)
    (hepoch : t.epoch = s.epoch) : t.peek = Function.update s.peek i v := by
  refine Function.eq_update_iff.2 ⟨?_, fun a ha => ?_⟩
  · have hlen : i < s.ctlBytes.length := hi
    rw [State.peek_register t i (by omega), if_pos hi, hctl]
    simp [List.getD_eq_getElem?_getD, hlen]
  · refine State.peek_congr_ctl harg hres hpipe hmem hepoch fun _ => ?_
    rw [hctl, List.getD_eq_getElem?_getD, List.getElem?_set_ne (Ne.symm ha), List.getD_eq_getElem?_getD]

/-- A write to an ARG register. -/
theorem State.peek_setArg (s : State) {a : Nat} (hlo : 0x008 ≤ a) (hhi : a < 0x018) (d : Byte) :
    ({ s with arg := s.arg.setIfInBounds (a - 0x008) d } : State).peek = Function.update s.peek a d := by
  refine Function.eq_update_iff.2 ⟨?_, fun b hb => ?_⟩
  · rw [State.peek_register _ a (by omega), if_neg (by omega), if_pos hhi]
    simp [List.getD_eq_getElem?_getD, show a - 8 < 16 by omega]
  · refine State.peek_congr _ _ b (fun _ => rfl) (fun h8 h9 => ?_) (fun _ _ => rfl) (fun _ _ => rfl) (fun _ _ => rfl)
    have hne : a - 0x008 ≠ b - 0x008 := by omega
    simp [List.getD_eq_getElem?_getD, List.getElem?_set_ne hne]

/-- A write to a buffer byte. -/
theorem State.peek_writeBuffer (s : State) {a : Nat} (ha : 0x100 ≤ a ∧ a < 0x700) (d : Byte) :
    ({ s with mem := Memory.write s.mem a d } : State).peek = Function.update s.peek a d := by
  refine Function.eq_update_iff.2 ⟨?_, fun b hb => ?_⟩
  · simp [State.peek_buffer _ _ ha, State.readByte, Memory.read?_write_self]
  · refine State.peek_congr _ _ b (fun _ => rfl) (fun _ _ => rfl) (fun _ _ => rfl) (fun _ _ => rfl) fun _ _ => ?_
    simp [State.readByte, Memory.read?_write_other _ _ _ _ hb]

/-- A write to STATUS, of which the reserved bits read 0. -/
theorem State.peek_setStatus (s : State) (st : Byte) :
    ({ s with status := st } : State).peek = Function.update s.peek addrStatus (st &&& 0x0F#8) :=
  State.peek_setCtl (i := 0x001) (by omega) rfl rfl rfl rfl rfl rfl

/-- A write to CTRL, of which the reserved bits read 0. -/
theorem State.peek_setCtrl (s : State) (d : Byte) :
    ({ s with ctrl := d } : State).peek = Function.update s.peek addrCtrl (d &&& 0x01#8) :=
  State.peek_setCtl (i := 0x003) (by omega) rfl rfl rfl rfl rfl rfl

/-- STATUS stands at its address, its reserved bits 0 (20_memory.md R71). -/
theorem State.peek_status (s : State) : s.peek addrStatus = s.status &&& 0x0F#8 := rfl

/-! ### Host writes while IDLE -/

/-- What an address reads after a host write of `d` to it while IDLE (43_control.md R241). -/
def State.storedByte (s : State) (a : Nat) (d : Byte) : Byte :=
  if a = 0x001 then s.peek 0x001 &&& ~~~(d &&& 0x0E#8)
  else if a = 0x003 ∨ a = 0x007 then d &&& 0x01#8
  else if a = 0x005 ∨ a = 0x006 then (if d.toNat ≤ 16 then d else 0x10#8)
  else if a = 0x004 ∨ (0x008 ≤ a ∧ a < 0x018) ∨ (0x100 ≤ a ∧ a < 0x200) ∨ (0x300 ≤ a ∧ a < 0x600) then d
  else s.peek a

theorem State.storedByte_of_writable (s : State) {a : Nat}
    (h : (0x008 ≤ a ∧ a < 0x018) ∨ (0x100 ≤ a ∧ a < 0x200) ∨ (0x300 ≤ a ∧ a < 0x600)) (d : Byte) :
    s.storedByte a d = d := by
  rw [State.storedByte, if_neg (by omega), if_neg (by omega), if_neg (by omega), if_pos (by omega)]

/-- CMD, whose writes are commands, ERR_CODE, the results, the buffers of results and reserved addresses store no byte
of a plain write (20_memory.md R71, R74). -/
theorem State.storedByte_of_not_writable (s : State) {a : Nat} (h : a = 0x000 ∨ a = 0x002 ∨ 0x018 ≤ a)
    (hbuf : ¬ ((0x100 ≤ a ∧ a < 0x200) ∨ (0x300 ≤ a ∧ a < 0x600))) (d : Byte) : s.storedByte a d = s.peek a := by
  rw [State.storedByte, if_neg (by omega), if_neg (by omega), if_neg (by omega), if_neg (by omega)]

/-- The counts store min(D, 16) (10_state.md R36, R37). -/
theorem capCount_eq (d : Byte) : capCount d = if d.toNat ≤ 16 then d else 0x10#8 := by
  unfold capCount keyringMax
  split
  case isTrue h => rw [Nat.min_eq_left h, BitVec.ofNat_toNat, BitVec.setWidth_eq]
  case isFalse h => rw [Nat.min_eq_right (by omega)]

/-- The buffers the host may write (20_memory.md R71). -/
theorem isHostWritableBufferAddr_iff (a : Nat) :
    isHostWritableBufferAddr a = true ↔ (0x100 ≤ a ∧ a < 0x200) ∨ (0x300 ≤ a ∧ a < 0x600) := by
  simp only [isHostWritableBufferAddr, isBufferAddr, Bool.and_eq_true, Bool.not_eq_true', Bool.and_eq_false_iff,
    decide_eq_true_eq, decide_eq_false_iff_not]
  omega

/-- A host write while IDLE replaces the byte at its address and no other (43_control.md R241). -/
theorem State.idleWrite_peek (s : State) (a : BusAddr) (d : Byte) :
    (s.idleWrite a d).peek = Function.update s.peek a.toNat (s.storedByte a.toNat d) := by
  rcases s.idleWrite_cases a d with ⟨ha, e⟩ | ⟨ha, e⟩ | ⟨ha, e⟩ | ⟨ha, e⟩ | ⟨ha, e⟩ | ⟨ha, e⟩ | ⟨hlo, hhi, e⟩ |
    ⟨hw, e⟩ | ⟨hw, ha, e⟩
  · rw [e, ha, State.peek_setStatus, statusW1C_reads]
    rfl
  · rw [e, ha, State.peek_setCtrl, BitVec.and_assoc, BitVec.and_self]
    rfl
  · rw [e, ha]
    exact State.peek_setCtl (by omega) rfl rfl rfl rfl rfl rfl
  · rw [e, ha, capCount_eq]
    exact State.peek_setCtl (by omega) rfl rfl rfl rfl rfl rfl
  · rw [e, ha, capCount_eq]
    exact State.peek_setCtl (by omega) rfl rfl rfl rfl rfl rfl
  · rw [e, ha]
    exact State.peek_setCtl (by omega) (by simp [State.ctlBytes, State.storedByte, BitVec.and_assoc]) rfl rfl rfl rfl rfl
  · rw [e, s.storedByte_of_writable (.inl ⟨hlo, hhi⟩), State.peek_setArg s hlo hhi]
  · rw [isHostWritableBufferAddr_iff] at hw
    rw [e, s.storedByte_of_writable (.inr hw), State.peek_writeBuffer s (by omega)]
  · rw [Bool.eq_false_iff, ne_eq, isHostWritableBufferAddr_iff] at hw
    rw [e, s.storedByte_of_not_writable ha hw, Function.update_eq_self]

/-- A host write while IDLE reaches the address map only. -/
theorem State.idleWrite_sameBesideMap (s : State) (a : BusAddr) (d : Byte) : SameBesideMap s (s.idleWrite a d) := by
  rcases s.idleWrite_cases a d with ⟨-, e⟩ | ⟨-, e⟩ | ⟨-, e⟩ | ⟨-, e⟩ | ⟨-, e⟩ | ⟨-, e⟩ | ⟨-, -, e⟩ | ⟨-, e⟩ |
    ⟨-, -, e⟩ <;>
    · rw [e]
      exact ⟨⟨rfl, rfl, rfl, rfl⟩, ⟨rfl, rfl, rfl, rfl, rfl⟩, ⟨rfl, rfl⟩⟩

/-- Settles O17: the map after the write is the map before with one byte replaced. -/
theorem idleHostWrite : Obligations.IdleHostWrite := by
  intro s a d hb ha
  have hexec : exec (.hostWr a d) s = .next (s.idleWrite a d) :=
    (execHostWr_plain ha d s).trans (by simp [hb])
  have hpeek := s.idleWrite_peek a d
  have hrest := s.idleWrite_sameBesideMap a d
  refine ⟨_, hexec, ?_, sameMapExcept_of_peek_eq_update hpeek, (s.idleWrite_busy a d).trans hb, hrest.pins,
    hrest.sequencer, hrest.reads⟩
  rw [hpeek, Function.update_self]
  rfl

/-! ### Host writes while BUSY -/

/-- A host write to any address, CMD included, is BusyWrite while BUSY (43_control.md R244). -/
theorem exec_writeWord_of_busy {s : State} (hb : s.busy = true) (a : BusAddr) (d : Byte) :
    exec (decode (busWord true a d)) s = .next (s.busyWrite a d) := by
  by_cases ha : a = 0x000#12
  · subst ha
    rw [← State.hostCommand_of_busy hb]
    exact exec_command d s
  · rw [decode_plainWriteWord ha]
    exact (execHostWr_plain ha d s).trans (by simp [hb])

/-- A host write while BUSY replaces the byte at STATUS or at CTRL and no other (43_control.md R244). -/
theorem State.busyWrite_peek (s : State) (a : BusAddr) (d : Byte) :
    (s.busyWrite a d).peek =
      if a.toNat = 0x001 then Function.update s.peek addrStatus (s.peek addrStatus &&& ~~~(d &&& 0x0E#8))
      else if a.toNat = 0x003 then Function.update s.peek addrCtrl (d &&& 0x01#8)
      else Function.update s.peek addrStatus (s.peek addrStatus ||| 0x08#8) := by
  rcases s.busyWrite_cases a d with ⟨rfl, e⟩ | ⟨rfl, e⟩ | ⟨h1, h3, e⟩
  · rw [e, State.peek_setStatus, statusW1C_reads]
    rfl
  · rw [e, State.peek_setCtrl, BitVec.and_assoc, BitVec.and_self]
    rfl
  · have hdropped : statusBusyWrite s.status &&& 0x0F#8 = s.peek addrStatus ||| 0x08#8 := by
      rw [State.peek_status]
      generalize s.status = st
      revert st
      decide
    have h1' : a.toNat ≠ 0x001 := fun h => h1 (BitVec.eq_of_toNat_eq h)
    have h3' : a.toNat ≠ 0x003 := fun h => h3 (BitVec.eq_of_toNat_eq h)
    rw [if_neg h1', if_neg h3', e, State.peek_setStatus, hdropped]

/-- A host write while BUSY reaches the address map only. -/
theorem State.busyWrite_sameBesideMap (s : State) (a : BusAddr) (d : Byte) : SameBesideMap s (s.busyWrite a d) := by
  rcases s.busyWrite_cases a d with ⟨-, e⟩ | ⟨-, e⟩ | ⟨-, -, e⟩ <;>
    · rw [e]
      exact ⟨⟨rfl, rfl, rfl, rfl⟩, ⟨rfl, rfl, rfl, rfl, rfl⟩, ⟨rfl, rfl⟩⟩

/-- Settles O18: the map after the write is the map before with STATUS or CTRL replaced, and the command goes on. -/
theorem busyHostWrite : Obligations.BusyHostWrite := by
  intro s a d hb
  have hpeek := s.busyWrite_peek a d
  have hrest := s.busyWrite_sameBesideMap a d
  refine ⟨_, exec_writeWord_of_busy hb a d, (s.busyWrite_busy a d).trans hb, ?_, ?_, fun b _ hne => ?_, hrest.pins,
    hrest.sequencer, hrest.reads⟩
  all_goals rw [hpeek]
  · split_ifs <;> simp [addrStatus, addrCtrl]
  · by_cases h3 : a.toNat = 0x003
    · simp [h3]
    · simp only [h3, if_false]
      split <;> simp [addrStatus, addrCtrl]
  · obtain ⟨hs, hc⟩ := not_or.1 hne
    split_ifs <;> simp [hs, hc]

/-- Settles O19: a write to CMD while BUSY is dropped like a write to any other address. -/
theorem commandWhileBusyIsDropped : Obligations.CommandWhileBusyIsDropped := fun _ op hb =>
  exec_writeWord_of_busy hb 0x000#12 op

/-! ### NOP and ILLEGAL -/

/-- ILLEGAL_CMD is the whole effect of an opcode that the map does not hold (43_control.md R246). -/
theorem effectOf_of_unassigned {op : Byte} (h : opcodeAssigned op = false) (s : State) :
    effectOf op s = raiseErr .illegalCmd := by
  rw [opcodeAssigned_eq_false_iff] at h
  unfold effectOf
  split
  case h_10 => rfl
  all_goals omega

/-- Settles O24: NOP has no effect but that it completes. -/
theorem nopCompletesWithNoEffect : Obligations.NopCompletesWithNoEffect := fun s h =>
  have heffect : effectOf 0x00#8 s.snapped = raiseErr .ok := rfl
  endsWith_of_raiseErr h heffect

/-- Settles O25: a well-formed ILLEGAL carries an unassigned opcode, whose effect is the error. -/
theorem illegalOpcodeIsReported : Obligations.IllegalOpcodeIsReported := by
  intro s op h hwf
  have hop : opcodeAssigned op = false := by simpa [Instr.wf] using hwf
  rw [← decodeCommand_of_unassigned hop]
  exact endsWith_of_raiseErr h (effectOf_of_unassigned hop s.snapped)

/-! ### A command that takes its time -/

/-- The start of a command writes CMD, STATUS and ERR_CODE only (43_control.md R242). -/
theorem State.startCommand_sameMapExcept (s : State) (op : Byte) (n : Nat) :
    SameMapExcept isCommandReg s { s.startCommand op with left := n } := by
  intro a _ hne
  refine State.peek_congr_ctl (s := s) (t := { s.startCommand op with left := n }) rfl rfl rfl rfl rfl fun _ => ?_
  obtain ⟨h0, h1, h2⟩ : a ≠ 0x000 ∧ a ≠ 0x001 ∧ a ≠ 0x002 := by
    simpa [isCommandReg, addrCmd, addrStatus, addrErrCode] using hne
  rcases a with _ | _ | _ | a
  · exact absurd rfl h0
  · exact absurd rfl h1
  · exact absurd rfl h2
  · rfl

/-- With nothing at the pins a step is the sequencer's part of it. -/
theorem step_of_port_nil {s : State} (h : s.port = []) : step s = .next s.tick := by
  simp [step, State.nextEvent, h]

/-- The sequencer's part of a step by the time the running command still takes (70_reset_and_hazards.md R301). -/
theorem State.tick_of_left_zero {s : State} (hb : s.busy = true) (hl : s.left = 0) : s.tick = s.finish := by
  simp [State.tick, hb, hl]

theorem State.tick_of_left_succ {s : State} (hb : s.busy = true) {n : Nat} (hl : s.left = n + 1) :
    s.tick = { s with left := n } := by
  simp [State.tick, hb, hl]

/-- A step that answers a next state is the first of a run. -/
theorem run_succ_of_step {M : Host.Core} {s t : M.State} (h : M.step s = .next t) (n : Nat) :
    M.run (n + 1) s = M.run n t := by
  rw [Host.Core.run, h]

/-- A running command with `n` steps left completes in `n + 1` steps when nothing happens at the pins. -/
theorem run_of_port_nil {s : State} (hb : s.busy = true) (hp : s.port = []) {n : Nat} (hl : s.left = n) :
    Host.Core.run core (n + 1) s = .next (State.finish { s with left := 0 }) := by
  induction n generalizing s with
  | zero =>
    have hstep : step s = .next s.finish := by rw [step_of_port_nil hp, State.tick_of_left_zero hb hl]
    have hself : ({ s with left := 0 } : State) = s := by rw [← hl]
    rw [hself]
    exact run_succ_of_step (M := core) hstep 0
  | succ n ih =>
    have hstep : step s = .next { s with left := n } := by rw [step_of_port_nil hp, State.tick_of_left_succ hb hl]
    exact (run_succ_of_step (M := core) hstep (n + 1)).trans (ih (s := { s with left := n }) hb hp rfl)

/-- What a completion does is the same with every LATENCY: a command's effect reads its inputs only. -/
theorem State.finish_withLatency (s : State) (l : Latency) : (s.withLatency l).finish = s.finish.withLatency l := by
  have heffect : effectOf s.seqOp (s.withLatency l) = effectOf s.seqOp s :=
    effectOf_congr (s := s) (t := s.withLatency l) ⟨rfl, rfl, rfl, rfl, rfl, rfl, rfl, rfl⟩ s.seqOp
  rw [State.finish_eq, State.finish_eq, State.withLatency_seqOp, heffect]
  rfl

/-- A command with a LATENCY of `n + 1` starts and stays BUSY. -/
theorem State.hostCommand_of_slow {s : State} {op : Byte} {n : Nat} (hb : s.busy = false)
    (hn : s.nextLatency op = n + 1) : s.hostCommand op = { s.startCommand op with left := n } := by
  simp [State.hostCommand, hb, hn]

/-- A command with a LATENCY of 0 starts and completes. -/
theorem State.hostCommand_of_prompt {s : State} {op : Byte} (h : Prompt op s) :
    s.hostCommand op = State.finish { s.startCommand op with left := 0 } := by
  simp [State.hostCommand, h.1, h.2]

/-- With LATENCY 0 a command ends where it completes after any other LATENCY. -/
theorem State.hostCommand_withLatency_zero {s : State} (hb : s.busy = false) (op : Byte) :
    (s.withLatency (.fixed 0)).hostCommand op =
      (State.finish { s.startCommand op with left := 0 }).withLatency (.fixed 0) := by
  have h : Prompt op (s.withLatency (.fixed 0)) := ⟨hb, rfl⟩
  rw [State.hostCommand_of_prompt h, ← State.finish_withLatency]
  rfl

/-- Settles O22: the command stands BUSY until its time is over, and a completion does not depend on the LATENCY. -/
theorem slowCommandEndsAsThePromptOne : Obligations.SlowCommandEndsAsThePromptOne := by
  intro s op n hb hp hn
  have hstart : exec (decode (commandWord op)) s = .next { s.startCommand op with left := n } := by
    rw [exec_command, State.hostCommand_of_slow hb hn]
  have hbusy : ({ s.startCommand op with left := n } : State).busy = true := s.startCommand_busy op
  have hrun : Host.Core.run core (n + 1) { s.startCommand op with left := n } =
      .next (State.finish { s.startCommand op with left := 0 }) :=
    run_of_port_nil (s := { s.startCommand op with left := n }) hbusy hp rfl
  have hprompt : exec (decode (commandWord op)) (s.withLatency (.fixed 0)) =
      .next ((State.finish { s.startCommand op with left := 0 }).withLatency (.fixed 0)) := by
    rw [exec_command, State.hostCommand_withLatency_zero hb]
  exact ⟨_, _, hstart, hbusy, rfl, statusStart_reads s.status, rfl, s.startCommand_sameMapExcept op n,
    hrun, hprompt⟩

end Sys2Proof.Machine

/-! The interrupt (60_exceptions.md R266): IRQ, which is IRQ_EN AND DONE, after each operation that sets or clears one
of its two factors. -/

namespace Sys2Proof.Machine

/-! ### The factors of IRQ -/

/-- CTRL stands at its address, its reserved bits 0 (20_memory.md R71). -/
theorem State.peek_ctrl (s : State) : s.peek addrCtrl = s.ctrl &&& 0x01#8 := rfl

/-- The reserved bits, which read 0, are not bit 0 of CTRL and bit 1 of STATUS. -/
theorem State.irq_eq_peek (s : State) :
    s.irq = ((s.peek addrCtrl).getLsbD 0 && (s.peek addrStatus).getLsbD 1) := by
  simp [State.irq, State.irqEn, State.done, State.peek_ctrl, State.peek_status]

theorem State.irq_of_done {s : State} (h : s.done = true) : s.irq = s.irqEn := by simp [State.irq, h]

theorem State.irq_of_not_done {s : State} (h : s.done = false) : s.irq = false := by simp [State.irq, h]

/-! ### The life of a command -/

/-- The start of a command clears DONE (43_control.md R242). -/
theorem State.startCommand_done (s : State) (op : Byte) : (s.startCommand op).done = false :=
  (statusStart_bits s.status).2.1

/-- A completion sets DONE (43_control.md R243). -/
theorem State.finish_done (s : State) : s.finish.done = true :=
  (statusComplete_bits s.status (effectOf s.seqOp s).err.code).2.1

/-- A completion leaves IRQ_EN, so IRQ rises at it exactly when IRQ_EN is 1. -/
theorem State.finish_irq (s : State) : s.finish.irq = s.irqEn := State.irq_of_done s.finish_done

/-- A read leaves both factors of IRQ (20_memory.md R79). -/
theorem exec_hostRd_irq {a : BusAddr} {d : Byte} {s t : State} (h : exec (.hostRd a d) s = .next t) :
    t.irq = s.irq := by
  rcases execHostRd_cases s a d with ⟨-, -, e⟩ | ⟨-, e⟩ <;>
    · cases e.symm.trans h
      rfl

/-- A command that completes within its transaction leaves IRQ at IRQ_EN. -/
theorem exec_command_irq_of_prompt {s t : State} {op : Byte} (h : Prompt op s)
    (he : exec (decode (commandWord op)) s = .next t) : t.irq = s.irqEn := by
  rw [exec_command, State.hostCommand_of_prompt h] at he
  cases he
  exact State.finish_irq _

/-- IRQ is 0 while a newly started command runs (60_exceptions.md R266). -/
theorem exec_command_irq_of_slow {s : State} {op : Byte} (hb : s.busy = false) (hn : s.nextLatency op ≠ 0) :
    ∃ t, exec (decode (commandWord op)) s = .next t ∧ t.irq = false := by
  obtain ⟨n, hn⟩ := Nat.exists_eq_succ_of_ne_zero hn
  refine ⟨{ s.startCommand op with left := n }, ?_, State.irq_of_not_done (s.startCommand_done op)⟩
  rw [exec_command, State.hostCommand_of_slow hb hn]

/-- A completion in a later step leaves IRQ at IRQ_EN, with nothing or a host read at the port. -/
theorem step_completion_irq {s : State} (hb : s.busy = true) (hl : s.left = 0) (hr : s.rstPin = false)
    (hport : s.port = [] ∨ ∃ a d rest, s.port = .bus (busWord false a d) :: rest) :
    ∃ t, step s = .next t ∧ t.irq = s.irqEn := by
  rcases hport with hp | ⟨a, d, rest, hp⟩
  · refine ⟨s.finish, ?_, s.finish_irq⟩
    rw [step_of_port_nil hp, State.tick_of_left_zero hb hl]
  · rw [step_completes_then_transacts hb hl hr hp, decode_readWord]
    obtain ⟨t, ht⟩ := exec_answers_next (.hostRd a d) (State.finish { s with port := rest })
    exact ⟨t, ht, (exec_hostRd_irq ht).trans (State.finish_irq _)⟩

/-! ### Writes to STATUS and CTRL -/

/-- A write to STATUS does the same while IDLE and while BUSY (43_control.md R241, R244). -/
theorem exec_writeStatus (s : State) (d : Byte) :
    exec (.hostWr 0x001#12 d) s = .next { s with status := statusW1C s.status d } := by
  refine (execHostWr_plain (by decide) d s).trans ?_
  cases s.busy <;> rfl

/-- A write to CTRL does the same while IDLE and while BUSY (43_control.md R241, R244). -/
theorem exec_writeCtrl (s : State) (d : Byte) :
    exec (.hostWr 0x003#12 d) s = .next { s with ctrl := d &&& 0x01#8 } := by
  refine (execHostWr_plain (by decide) d s).trans ?_
  cases s.busy <;> rfl

/-- A W1C write of 1 to DONE clears it (10_state.md R32). -/
theorem State.writeStatus_done (s : State) {d : Byte} (h : d.getLsbD 1 = true) :
    ({ s with status := statusW1C s.status d } : State).done = false := by
  obtain ⟨-, hdone, -⟩ := statusW1C_bits s.status d
  exact hdone.trans (by simp [h])

/-- IRQ_EN after a write to CTRL is bit 0 of the byte written (10_state.md R34). -/
theorem State.writeCtrl_irqEn (s : State) (d : Byte) :
    ({ s with ctrl := d &&& 0x01#8 } : State).irqEn = d.getLsbD 0 := by
  simp [State.irqEn]

/-- A write to CTRL leaves DONE, so IRQ is DONE where it enables the interrupt and else 0 (60_exceptions.md R266). -/
theorem State.writeCtrl_irq (s : State) (d : Byte) :
    ({ s with ctrl := d &&& 0x01#8 } : State).irq = (d.getLsbD 0 && s.done) :=
  congrArg (· && s.done) (s.writeCtrl_irqEn d)

/-- Settles O23: IRQ follows DONE at a start, a completion and a write to STATUS, and IRQ_EN at a write to CTRL. -/
theorem completionInterrupt : Obligations.CompletionInterrupt := by
  refine ⟨State.irq_eq_peek, ?completesAtOnce, ?enabled, ?doneCleared, ?disabled, ?started, ?enabledWhileBusy,
    ?completesLater⟩
  case completesAtOnce => exact fun _ _ _ h hen he => (exec_command_irq_of_prompt h he).trans hen
  case enabled =>
    exact fun s d hdone hd => ⟨_, exec_writeCtrl s d, (s.writeCtrl_irq d).trans (by rw [hd, hdone, Bool.and_self])⟩
  case doneCleared => exact fun s d hd => ⟨_, exec_writeStatus s d, State.irq_of_not_done (s.writeStatus_done hd)⟩
  case disabled =>
    exact fun s d hd => ⟨_, exec_writeCtrl s d, (s.writeCtrl_irq d).trans (by rw [hd, Bool.false_and])⟩
  case started => exact fun _ _ hb hn => exec_command_irq_of_slow hb hn
  case enabledWhileBusy => exact fun s d hb hd => ⟨_, exec_writeCtrl s d, hb, (s.writeCtrl_irqEn d).trans hd⟩
  case completesLater =>
    intro s hb hl hr hen hport
    obtain ⟨t, ht, hirq⟩ := step_completion_irq hb hl hr hport
    exact ⟨t, ht, hirq.trans hen⟩

end Sys2Proof.Machine

/-! Asserting reset (70_reset_and_hazards.md R290, R291): the register values of 10_state.md R65, the RES bytes of an
abandoned command, and the pins while reset is asserted. -/

namespace Sys2Proof.Machine

/-! ### Register values -/

/-- The reset value of the register byte at an address (10_state.md R65): IN_FLAGS 0x01, KIND and KEY_IDX 0xFF. -/
def registerResetValue (a : Nat) : Byte :=
  if a = 0x007 then 0x01#8 else if a = 0x024 ∨ a = 0x035 then 0xFF#8 else 0x00#8

/-- No reset value depends on the configuration, so one instance shows them all. -/
theorem State.resetOf_regBytes (c : Config) :
    (State.resetOf c).regBytes = (List.range 0x044).map registerResetValue := by
  change (State.resetOf Config.ref).regBytes = _
  decide

/-- Right after reset every register reads its reset value, with every configuration. -/
theorem State.resetOf_peek_register (c : Config) {a : Nat} (h : a < 0x044) :
    (State.resetOf c).peek a = registerResetValue a := by
  have hb : isBufferAddr a = false := by
    simp only [isBufferAddr, Bool.and_eq_false_iff, decide_eq_false_iff_not]
    omega
  simp [State.peek, hb, State.resetOf_regBytes, h]

/-- Outside RES, asserting reset leaves the registers as a machine right after reset has them. -/
theorem State.assertReset_peek_register (s : State) {a : Nat} (h : a < 0x044)
    (hres : ¬ (addrRes0 ≤ a ∧ a < addrRes0 + 8)) : s.assertReset.peek a = registerResetValue a := by
  rw [← State.resetOf_peek_register s.cfg h]
  exact State.peek_congr (State.resetOf s.cfg) s.assertReset a (fun _ => rfl) (fun _ _ => rfl)
    (fun hlo hhi => absurd ⟨hlo, hhi⟩ hres) (fun _ _ => rfl) (fun hlo _ => by omega)

/-! ### The RES bytes of an abandoned command -/

/-- A running command would have written RES register `i` at its completion, so that a reset now leaves that byte
unspecified (70_reset_and_hazards.md R291). -/
def State.abandonsRes (s : State) (i : Nat) : Bool :=
  s.busy && (effectOf s.seqOp s).res.any (fun w => decide (w.1 = i))

theorem State.abandonsRes_iff (s : State) (i : Nat) :
    s.abandonsRes i = true ↔ s.busy = true ∧ ∃ v, (i, v) ∈ (effectOf s.seqOp s).res := by
  simp [State.abandonsRes]

/-- What a running command would write does not depend on the events at the pins (20_memory.md R83). -/
theorem State.abandonsRes_withPort (s : State) (rest : List PortEvent) (i : Nat) :
    ({ s with port := rest } : State).abandonsRes i = s.abandonsRes i := by
  have heffect :=
    effectOf_congr (s := s) (t := { s with port := rest }) ⟨rfl, rfl, rfl, rfl, rfl, rfl, rfl, rfl⟩ s.seqOp
  simp only [State.abandonsRes, heffect]
  rfl

theorem State.assertReset_res_getElem (s : State) {i : Nat} (h : i < 8) :
    s.assertReset.res[i] = if s.abandonsRes i then Config.abandonedRes (s.epoch + 1) i else 0x00#8 :=
  Vector.getElem_ofFn h

/-! ### Buffers -/

/-- Asserting reset leaves every buffer byte a free value of the new reset (93_implementation_defined.md U1). -/
theorem State.assertReset_peek_buffer (s : State) {a : Nat} (h : 0x100 ≤ a ∧ a < 0x700) :
    s.assertReset.peek a = Config.ramByte (s.epoch + 1) a := by
  rw [State.peek_buffer _ _ h, State.readByte, State.assertReset_mem, State.assertReset_epoch, Memory.read?_nil,
    Option.getD_none]

/-! ### The sequencer and the pins -/

theorem State.assertReset_busy (s : State) : s.assertReset.busy = false := by
  simp [State.busy]

theorem State.assertReset_irq (s : State) : s.assertReset.irq = false := by
  simp [State.irq, State.irqEn]

/-- A step that meets the assertion of reset is the reset alone: the sequencer does not move before it. -/
theorem step_of_assertReset {s : State} {rest : List PortEvent} (h : s.port = .assertReset :: rest) :
    step s = .next ({ s with port := rest } : State).assertReset := by
  simp [step, State.nextEvent, State.consume, h]

/-- A transaction that meets reset asserted is lost (70_reset_and_hazards.md R290). -/
theorem step_of_bus_of_rstPin {s : State} {w : BusWord} {rest : List PortEvent} (hp : s.port = .bus w :: rest)
    (hr : s.rstPin = true) : step s = .next { s with port := rest } := by
  simp [step, State.nextEvent, State.consume, hp, hr]

/-- Settles O10: the step is the reset alone, and each part of the map after it is read by its own lemma. -/
theorem assertingResetAtAnyTime : Obligations.AssertingResetAtAnyTime := by
  intro s rest hport
  refine ⟨_, step_of_assertReset hport, State.assertReset_busy _, State.assertReset_irq _, rfl, ?registers, ?res,
    ?buffers, ?transaction⟩
  case registers => exact fun a ha hres => State.assertReset_peek_register _ ha hres
  case res =>
    intro i hi
    rw [State.peek_res _ hi, State.assertReset_res_getElem _ hi, State.abandonsRes_withPort]
    exact if_congr (s.abandonsRes_iff i) rfl rfl
  case buffers => exact fun a hlo hhi => State.assertReset_peek_buffer _ ⟨hlo, hhi⟩
  case transaction => exact fun w more hrest => step_of_bus_of_rstPin hrest rfl

end Sys2Proof.Machine

/-! The invariant of the machine (10_state.md sections 2 to 6): the results of PKT_PROC meet it, the operations of a
transaction and of the sequencer keep it, and so does every step. -/

namespace Sys2Proof.Machine

/-! ### The codes of the pipeline results -/

/-- The pipeline registers that hold codes hold codes of the spec, and the reserved bits of PID_FLAGS are 0
(10_state.md R43, R44, R49, R50, R52). It says so of the six bytes, so that a write to another register keeps it as it
stands. -/
structure ResultCodes (failReason kind pidFlags keyRing variant respKind : Byte) : Prop where
  failReason : failReason.toNat ≤ 9
  kind : kind.toNat < 16 ∨ kind = 0xFF#8
  pidFlags : pidFlags &&& 0xFC#8 = 0x00#8
  keyRing : keyRing.toNat ≤ 1
  variant : variant.toNat ≤ 8
  respKind : respKind.toNat ≤ 2

/-- The codes in a record's registers. -/
abbrev PipeRegs.CodesValid (r : PipeRegs) : Prop :=
  ResultCodes r.failReason r.kind r.pidFlags r.keyRing r.variant r.respKind

theorem FailReason.code_le (reason : FailReason) : reason.code.toNat ≤ 9 := by cases reason <;> decide

theorem kindCode_lt (k : Kind) : (kindCode k).toNat < 16 := by cases k <;> decide

theorem PipeRegs.CodesValid.fail {r : PipeRegs} (h : r.CodesValid) (reason : FailReason) :
    (r.fail reason).CodesValid := by
  have hcode : (r.fail reason).failReason.toNat ≤ 9 := by
    rw [PipeRegs.fail_failReason]
    split
    · exact reason.code_le
    · exact h.failReason
  rw [PipeRegs.fail_eq]
  exact { h with failReason := hcode }

theorem PipeRegs.CodesValid.withPidFlags {r : PipeRegs} (h : r.CodesValid) (mh sa : Bool) :
    ({ r with pidFlags := pidFlagsOf mh sa } : PipeRegs).CodesValid :=
  { h with pidFlags := (pidFlagsOf_bits mh sa).2.2 }

theorem cleared_codesValid : PipeRegs.cleared.CodesValid :=
  ⟨by decide, by decide, by decide, by decide, by decide, by decide⟩

/-- Stages 1 and 2 record two of the failures and write no other code. -/
theorem headerRun_codesValid (s : State) : (headerRun s).regs.CodesValid := by
  rw [headerRun_eq]
  refine { cleared_codesValid with failReason := ?_ }
  dsimp only
  split
  · decide
  · split <;> decide

/-- Stage 3 writes KIND and PID_FLAGS, each by its code. -/
theorem Stage3Path.codesValid {s : State} {p q : PipeRun} {o : Option Kind} (h : Stage3Path s p (q, o))
    (hp : p.regs.CodesValid) : q.regs.CodesValid := by
  cases h with
  | undecodable => exact hp.fail _
  | unknown => exact (hp.withPidFlags _ _).fail _
  | known _ k => exact { hp.withPidFlags _ _ with kind := .inl (kindCode_lt k) }

theorem Stage5Path.codesValid {s : State} {k : Kind} {p q : PipeRun} (h : Stage5Path s k p q)
    (hp : p.regs.CodesValid) : q.regs.CodesValid := by
  cases h with
  | noField => exact hp
  | reads => exact hp
  | undecodable => exact PipeRegs.CodesValid.fail (r := p.regs.setFieldErr fieldErrHop) hp _

/-- VARIANT and RESP_KIND of every kind are codes (42_pipeline.md R206 to R208). -/
theorem dispatchVariant_codesValid (c : Params) (k : Kind) (pt : List Byte) {r : PipeRegs} (h : r.CodesValid) :
    (dispatchVariant c k pt r).CodesValid := by
  unfold dispatchVariant
  split
  case h_1 =>
    unfold singleData
    dsimp only
    split
    case h_5 =>
      refine PipeRegs.CodesValid.fail ?_ _
      exact h
    all_goals exact { h with variant := Nat.le_of_ble_eq_true rfl }
  case h_3 | h_4 | h_5 | h_6 | h_7 | h_8 | h_9 | h_10 =>
    exact { h with variant := Nat.le_of_ble_eq_true rfl, respKind := Nat.le_of_ble_eq_true rfl }
  all_goals exact { h with variant := Nat.le_of_ble_eq_true rfl }

theorem boolByte_le (b : Bool) : (boolByte b).toNat ≤ 1 := by cases b <;> decide

theorem ringRun_codesValid (s : State) (k : Kind) {p : PipeRun} (h : p.regs.CodesValid) :
    (ringRun s k p).regs.CodesValid :=
  { h with keyRing := boolByte_le _ }

theorem noKeyRun_codesValid (s : State) (k : Kind) (d : List Byte) {p : PipeRun} (h : p.regs.CodesValid) :
    (noKeyRun s k d p).regs.CodesValid := by
  have hring := ringRun_codesValid s k (p := payloadRun d p) h
  refine PipeRegs.CodesValid.fail ?_ _
  cases s.ringCount k <;> exact hring

theorem PayloadPath.codesValid {s : State} {k : Kind} {p q : PipeRun} {out : List Byte} (h : PayloadPath s k p q out)
    (hp : p.regs.CodesValid) : q.regs.CodesValid := by
  rcases h.cases_on with ⟨rfl, -⟩ | ⟨d, rfl, -⟩ | ⟨d, i, rfl, -⟩
  · exact PipeRegs.CodesValid.fail (r := p.regs.setFieldErr fieldErrPld) hp _
  · exact noKeyRun_codesValid s k d hp
  · have hring := ringRun_codesValid s k (p := payloadRun d p) hp
    exact dispatchVariant_codesValid _ _ _ hring

/-! ### The outcome of trial decryption -/

/-- Either no key was accepted or one was, and FLAGS, KEY_IDX, KEYS_TRIED and VARIANT agree on it (10_state.md R49,
42_pipeline.md R203 to R205). -/
structure PipeRegs.TrialsSettled (r : PipeRegs) : Prop where
  decryptPair : r.flags.getLsbD 4 = r.flags.getLsbD 5
  accepted : r.flags.getLsbD 4 = true → r.keysTried = r.keyIdx + 0x01#8
  notAccepted : r.flags.getLsbD 4 = false → r.keyIdx = 0xFF#8 ∧ r.variant = 0x00#8

namespace PipeRegs.TrialsSettled

variable {r : PipeRegs}

theorem of_notAccepted (h4 : r.flags.getLsbD 4 = false) (h5 : r.flags.getLsbD 5 = false) (hkey : r.keyIdx = 0xFF#8)
    (hvariant : r.variant = 0x00#8) : r.TrialsSettled where
  decryptPair := h4.trans h5.symm
  accepted h := absurd (h4.symm.trans h) (by decide)
  notAccepted _ := ⟨hkey, hvariant⟩

theorem of_accepted (h4 : r.flags.getLsbD 4 = true) (h5 : r.flags.getLsbD 5 = true)
    (htried : r.keysTried = r.keyIdx + 0x01#8) : r.TrialsSettled where
  decryptPair := h4.trans h5.symm
  accepted _ := htried
  notAccepted h := absurd (h4.symm.trans h) (by decide)

/-- Stages 7 and 8 did not run. -/
theorem of_noDecryption (h : NoDecryption r) : r.TrialsSettled :=
  of_notAccepted h.validDecrypt h.validPayloadChecksum h.keyIdx h.noPayload.variant

end PipeRegs.TrialsSettled

/-- No trial of keys in vain raises a flag or writes KEY_IDX (42_pipeline.md R204). -/
theorem noKeyRun_trialsSettled (s : State) (k : Kind) (d : List Byte) {p : PipeRun}
    (h7 : p.regs.from7 = PipeRegs.cleared) : (noKeyRun s k d p).regs.TrialsSettled := by
  have hnone := PipeRegs.noDecryption_of_from7 h7
  obtain ⟨hflags, hkey, h8, -⟩ := noKeyRun_kept s k d p
  have hblank := PipeRegs.noPayload_of_from8 (h8.trans (PipeRegs.from8_eq_cleared h7))
  exact .of_notAccepted (hflags ▸ hnone.validDecrypt) (hflags ▸ hnone.validPayloadChecksum) (hkey.trans hnone.keyIdx)
    hblank.variant

/-- On acceptance KEYS_TRIED = KEY_IDX + 1, and stage 8 keeps both (42_pipeline.md R205(d)). -/
theorem stage8_acceptedRun_trialsSettled (s : State) (k : Kind) (d pt : List Byte) (i : Nat) (p : PipeRun) :
    (stage8 s k pt (acceptedRun s k d i p)).regs.TrialsSettled := by
  obtain ⟨hflag4, hflag5⟩ := acceptedRun_flags s k d i p
  have hkept := (stage8_later s k pt (acceptedRun s k d i p)).kept
  have hkey : (stage8 s k pt (acceptedRun s k d i p)).regs.keyIdx = BitVec.ofNat 8 i :=
    (congrArg PipeRegs.keyIdx hkept :)
  have htried : (stage8 s k pt (acceptedRun s k d i p)).regs.keysTried = BitVec.ofNat 8 (i + 1) :=
    (congrArg PipeRegs.keysTried hkept :)
  refine .of_accepted ((stage8_flags _ _ _ _ (by decide)).trans hflag4)
    ((stage8_flags _ _ _ _ (by decide)).trans hflag5) ?_
  rw [hkey, htried, BitVec.ofNat_add]

theorem PayloadPath.trialsSettled {s : State} {k : Kind} {p q : PipeRun} {out : List Byte}
    (h : PayloadPath s k p q out) (h7 : p.regs.from7 = PipeRegs.cleared) : q.regs.TrialsSettled := by
  rcases h.cases_on with ⟨rfl, -⟩ | ⟨d, rfl, -⟩ | ⟨d, i, rfl, -⟩
  · exact .of_noDecryption (PipeRegs.noDecryption_of_from7 ((PipeRegs.from7_fail _ _).trans h7))
  · exact noKeyRun_trialsSettled s k d h7
  · exact stage8_acceptedRun_trialsSettled s k d _ i p

/-! ### The pipeline results -/

/-- Stage 9 makes FLAGS.valid the AND of bits 0 to 5, of a record in which it is still 0 (42_pipeline.md R209). -/
theorem stage9_pipeInv {q : PipeRun} (hvalid : q.regs.flags.getLsbD 6 = false) (hcodes : q.regs.CodesValid)
    (htrials : q.regs.TrialsSettled) : PipeInv (stage9 q).regs := by
  have h4 : (sealedFlags q.decodeOk q.regs.flags).getLsbD 4 = q.regs.flags.getLsbD 4 :=
    sealedFlags_getLsbD_other _ _ (by decide)
  have h5 : (sealedFlags q.decodeOk q.regs.flags).getLsbD 5 = q.regs.flags.getLsbD 5 :=
    sealedFlags_getLsbD_other _ _ (by decide)
  rw [stage9_regs_eq]
  exact
    { hcodes with
      validIsAnd := sealedFlags_valid q.decodeOk hvalid
      decryptPair := h4.trans (htrials.decryptPair.trans h5.symm)
      accepted := fun h => htrials.accepted (h4.symm.trans h)
      notAccepted := fun h => htrials.notAccepted (h4.symm.trans h) }

theorem cleared_pipeInv : PipeInv PipeRegs.cleared :=
  { cleared_codesValid with
    validIsAnd := by decide
    decryptPair := by decide
    accepted := by decide
    notAccepted := by decide }

/-- Every path of PKT_PROC ends with results that meet the invariant. -/
theorem PktPath.pipeInv {s : State} {e : Effect} (h : PktPath s e) : ∃ q, e.pipe = some q ∧ PipeInv q.regs := by
  by_cases ha : PacketAdmitted s
  case neg =>
    obtain ⟨c, -, rfl⟩ := h.of_not_admitted ha
    exact ⟨_, rfl, { cleared_pipeInv with failReason := FailReason.code_le .aborted }⟩
  have hheader := headerRun_codesValid s
  rcases h.admitted_cases ha with ⟨q, hq, rfl⟩ | ⟨pid, k, rfl⟩ | ⟨pid, k, q, out, -, hq, rfl⟩
  · obtain ⟨flags, hrun, -⟩ := hq.of_none
    have hlater := PipeRegs.noLaterStage_of_from5 (unclassifiedRun_from5 s flags)
    exact ⟨_, rfl, stage9_pipeInv hq.later.valid (hq.codesValid hheader)
      (.of_noDecryption (hrun ▸ hlater.noDecryption))⟩
  · have hlater := PipeRegs.noLaterStage_of_from5 (badLengthRun_from5 s pid k)
    have hpid : (pidRun s pid k).regs.CodesValid :=
      { hheader.withPidFlags _ _ with kind := .inl (kindCode_lt k) }
    exact ⟨_, rfl, stage9_pipeInv (badLengthRun_later_header s pid k).valid (hpid.fail _)
      (.of_noDecryption hlater.noDecryption)⟩
  · have hclassified : (classifiedRun s pid k).regs.CodesValid :=
      { hheader.withPidFlags _ _ with kind := .inl (kindCode_lt k) }
    exact ⟨_, rfl, stage9_pipeInv hq.later_header.valid
      (hq.codesValid ((stage5_path s k _).codesValid hclassified)) (hq.trialsSettled (stage5_ready s pid k).from7)⟩

/-- A completion leaves the pipeline results as they were, or those of PKT_PROC. -/
theorem State.finish_pipeInv {s : State} (h : PipeInv s.pipe) : PipeInv s.finish.pipe := by
  rw [State.finish_eq]
  by_cases hop : s.seqOp = 0x10#8
  · obtain ⟨q, hq, hinv⟩ := (pktProc_path s).pipeInv
    have heffect : (effectOf s.seqOp s).pipe = some q := hop ▸ hq
    rw [heffect]
    exact hinv
  · rw [effectOf_pipe_eq_none hop]
    exact h

/-! ### Reset -/

/-- A clause that asks for BUSY says nothing of an IDLE machine. -/
theorem busy_elim_of_idle {s : State} (h : s.busy = false) {P : Prop} (hb : s.busy = true) : P :=
  absurd (h.symm.trans hb) (by decide)

theorem State.resetOf_busy (c : Config) : (State.resetOf c).busy = false := by
  simp [State.busy, State.resetOf]

theorem State.resetOf_inv (c : Config) : Inv (State.resetOf c) where
  memCanonical := rfl
  memInBuffers := by simp [State.resetOf]
  statusReserved := BitVec.zero_and
  ctrlReserved := BitVec.zero_and
  inFlagsReserved := (by decide : 0x01#8 &&& 0xFE#8 = 0x00#8)
  keyCount := Nat.zero_le _
  invKeyCount := Nat.zero_le _
  errCode := Nat.zero_le _
  errFlag := by simp [State.resetOf]
  busyClear := busy_elim_of_idle (State.resetOf_busy c)
  busyRuns := busy_elim_of_idle (State.resetOf_busy c)
  resetIdle _ := State.resetOf_busy c
  pipe := cleared_pipeInv

/-- Settles O11: the reset values meet every clause, whatever the configuration. -/
theorem resetMeetsTheInvariant : Obligations.ResetMeetsTheInvariant :=
  ⟨State.resetOf_inv, State.resetOf_inv _⟩

/-- What asserting reset leaves beside the reset values, the invariant does not speak of. -/
theorem State.assertReset_inv (s : State) : Inv s.assertReset :=
  { State.resetOf_inv s.cfg with resetIdle := fun _ => s.assertReset_busy }

/-! ### What each operation keeps -/

theorem ErrCode.code_le (e : ErrCode) : e.code.toNat ≤ 7 := by cases e <;> decide

section Keeps

variable {s : State}

/-- What stands at the pins next, and the time a command still takes, are not in the invariant. -/
theorem Inv.withPortAndLeft (h : Inv s) (port : List PortEvent) (left : Nat) :
    Inv { s with port := port, left := left } :=
  { h with }

/-- A W1C write to STATUS sets no bit (43_control.md R241). -/
theorem Inv.writeStatus (h : Inv s) (d : Byte) : Inv { s with status := statusW1C s.status d } := by
  obtain ⟨hbusy, hdone, herr, -, hreserved⟩ := statusW1C_bits s.status d
  have hb : ({ s with status := statusW1C s.status d } : State).busy = s.busy := hbusy
  exact
    { h with
      statusReserved := hreserved.trans h.statusReserved
      errFlag := fun he => h.errFlag (Bool.and_eq_true_iff.1 (herr.symm.trans he)).1
      busyClear := fun hrun => by
        obtain ⟨hdone0, herr0, hcode⟩ := h.busyClear (hb.symm.trans hrun)
        exact ⟨hdone.trans (by rw [show s.status.getLsbD 1 = false from hdone0, Bool.false_and]),
          herr.trans (by rw [herr0, Bool.false_and]), hcode⟩
      busyRuns := fun hrun => h.busyRuns (hb.symm.trans hrun)
      resetIdle := fun hr => hb.trans (h.resetIdle hr) }

/-- A write dropped while BUSY sets BUSY_WR, which no clause but the reserved bits' speaks of (43_control.md R244). -/
theorem Inv.dropWrite (h : Inv s) : Inv { s with status := statusBusyWrite s.status } := by
  obtain ⟨hbusy, hdone, herr, -, hreserved⟩ := statusBusyWrite_bits s.status
  have hb : ({ s with status := statusBusyWrite s.status } : State).busy = s.busy := hbusy
  exact
    { h with
      statusReserved := hreserved.trans h.statusReserved
      errFlag := fun he => h.errFlag (herr.symm.trans he)
      busyClear := fun hrun => by
        obtain ⟨hdone0, herr0, hcode⟩ := h.busyClear (hb.symm.trans hrun)
        exact ⟨hdone.trans hdone0, herr.trans herr0, hcode⟩
      busyRuns := fun hrun => h.busyRuns (hb.symm.trans hrun)
      resetIdle := fun hr => hb.trans (h.resetIdle hr) }

/-- A write of bit 0 alone leaves bits 7 to 1 at 0 (10_state.md R34, R38). -/
theorem bit0_reserved (d : Byte) : d &&& 0x01#8 &&& 0xFE#8 = 0x00#8 := by
  rw [BitVec.and_assoc]
  exact BitVec.and_zero

theorem Inv.writeCtrl (h : Inv s) (d : Byte) : Inv { s with ctrl := d &&& 0x01#8 } :=
  { h with ctrlReserved := bit0_reserved d }

theorem Inv.busyWrite (h : Inv s) (a : BusAddr) (d : Byte) : Inv (s.busyWrite a d) := by
  rcases s.busyWrite_cases a d with ⟨-, e⟩ | ⟨-, e⟩ | ⟨-, -, e⟩ <;> rw [e]
  · exact h.writeStatus d
  · exact h.writeCtrl d
  · exact h.dropWrite

/-- A count is stored as at most KEYRING_MAX (10_state.md R36, R37). -/
theorem capCount_le (d : Byte) : (capCount d).toNat ≤ 16 := by
  rw [capCount_eq]
  split
  · assumption
  · decide

theorem isBufferAddr_of_hostWritable {a : Nat} (h : isHostWritableBufferAddr a = true) : isBufferAddr a = true := by
  rw [isHostWritableBufferAddr_iff] at h
  simp only [isBufferAddr, Bool.and_eq_true, decide_eq_true_eq]
  omega

/-- A host write while IDLE: STATUS, CTRL, the inputs with their caps and masks, ARG, which no command has in its
snapshot, and the buffers (43_control.md R241). -/
theorem Inv.idleWrite (h : Inv s) (hidle : s.busy = false) (a : BusAddr) (d : Byte) : Inv (s.idleWrite a d) := by
  rcases s.idleWrite_cases a d with ⟨-, e⟩ | ⟨-, e⟩ | ⟨-, e⟩ | ⟨-, e⟩ | ⟨-, e⟩ | ⟨-, e⟩ | ⟨-, -, e⟩ | ⟨hw, e⟩ |
    ⟨-, -, e⟩ <;> rw [e]
  · exact h.writeStatus d
  · exact h.writeCtrl d
  · exact { h with }
  · exact { h with keyCount := capCount_le d }
  · exact { h with invKeyCount := capCount_le d }
  · exact { h with inFlagsReserved := bit0_reserved d }
  · exact { h with busyRuns := busy_elim_of_idle hidle }
  · refine { h with memCanonical := Memory.write_wf _ _ h.memCanonical, memInBuffers := fun c hc => ?_ }
    rcases Memory.mem_write hc with rfl | hc
    · exact isBufferAddr_of_hostWritable hw
    · exact h.memInBuffers c hc
  · exact h

/-- A command starts with DONE, ERR and ERR_CODE clear, its opcode in CMD and ARG as its snapshot (43_control.md
R242). -/
theorem Inv.startCommand (h : Inv s) (hpin : s.rstPin = false) (op : Byte) : Inv (s.startCommand op) := by
  obtain ⟨-, hdone, herr, -, hreserved⟩ := statusStart_bits s.status
  exact
    { h with
      statusReserved := hreserved.trans h.statusReserved
      errCode := Nat.zero_le _
      errFlag := fun he => absurd (herr.symm.trans he) (by decide)
      busyClear := fun _ => ⟨hdone, herr, rfl⟩
      busyRuns := fun _ => ⟨rfl, rfl⟩
      resetIdle := fun hr => absurd (hpin.symm.trans hr) (by decide) }

/-- A command's bytes lie in the buffers, ERR is set with a nonzero ERR_CODE only, and the sequencer is IDLE
(43_control.md R243). -/
theorem Inv.finish (h : Inv s) : Inv s.finish := by
  obtain ⟨-, -, herr, -, hreserved⟩ := statusComplete_bits s.status (effectOf s.seqOp s).err.code
  exact
    { h with
      memCanonical := Memory.writeAll_wf _ h.memCanonical
      memInBuffers := fun c hc => by
        rcases Memory.mem_writeAll hc with hc | hc
        · have := (effectOf_inBounds s.seqOp s).mem c hc
          simp only [isBufferAddr, Bool.and_eq_true, decide_eq_true_eq]
          omega
        · exact h.memInBuffers c hc
      statusReserved := hreserved.trans h.statusReserved
      errCode := ErrCode.code_le _
      errFlag := fun he => of_decide_eq_true (herr.symm.trans he)
      busyClear := busy_elim_of_idle s.finish_busy
      busyRuns := busy_elim_of_idle s.finish_busy
      resetIdle := fun _ => s.finish_busy
      pipe := State.finish_pipeInv h.pipe }

theorem Inv.tick (h : Inv s) : Inv s.tick := by
  rcases s.tick_cases with ⟨-, e⟩ | ⟨-, -, e⟩ | ⟨n, -, -, e⟩ <;> rw [e]
  · exact h
  · exact h.finish
  · exact h.withPortAndLeft s.port n

theorem Inv.hostCommand (h : Inv s) (hpin : s.rstPin = false) (op : Byte) : Inv (s.hostCommand op) := by
  have hstart := h.startCommand hpin op
  rcases s.hostCommand_cases op with ⟨-, e⟩ | ⟨-, -, e⟩ | ⟨n, -, -, e⟩ <;> rw [e]
  · exact h.dropWrite
  · exact (hstart.withPortAndLeft _ 0).finish
  · exact hstart.withPortAndLeft _ n

theorem Inv.exec {t : State} {i : Instr} (h : Inv s) (hpin : s.rstPin = false)
    (he : Machine.exec i s = .next t) : Inv t := by
  rcases exec_cases he with ⟨op, rfl⟩ | ⟨a, d, -, hr⟩ | ⟨a, d, -, -, -, rfl⟩ | ⟨a, d, -, -, hidle, rfl⟩
  · exact h.hostCommand hpin op
  · rcases execHostRd_cases s a d with ⟨-, -, e⟩ | ⟨-, e⟩ <;>
      · cases e.symm.trans hr
        exact { h with }
  · exact h.busyWrite a d
  · exact h.idleWrite hidle a d

@[simp] theorem State.tick_rstPin (s : State) : s.tick.rstPin = s.rstPin := by
  rcases s.tick_cases with ⟨-, e⟩ | ⟨-, -, e⟩ | ⟨n, -, -, e⟩ <;> simp [e]

end Keeps

/-- Settles O12: the sequencer, the transactions and both edges of reset keep every clause. -/
theorem everyStepKeepsTheInvariant : Obligations.EveryStepKeepsTheInvariant := by
  intro s t h hs
  rcases step_cases hs with ⟨-, rfl⟩ | ⟨w, rest, -, -, rfl⟩ | ⟨w, rest, -, hpin, he⟩ | ⟨rest, -, rfl⟩ | ⟨rest, -, rfl⟩
  · exact h.tick
  · exact h.withPortAndLeft rest s.left
  · exact (h.withPortAndLeft rest s.left).tick.exec ((State.tick_rstPin _).trans hpin) he
  · exact State.assertReset_inv _
  · exact { h with resetIdle := fun hr => absurd hr Bool.false_ne_true }

end Sys2Proof.Machine

/-! The step and the reset state: every step answers a next state, a step runs the transaction at the port, the
registers stand at their addresses, and the values right after reset. -/

namespace Sys2Proof.Machine

/-! ### The transaction of a step -/

/-- A step performs the transaction at the head of the port after the sequencer's part (20_memory.md R80). -/
theorem step_of_bus {s : State} {w : BusWord} {rest : List PortEvent} (hp : s.port = .bus w :: rest)
    (hr : s.rstPin = false) : step s = exec (decode w) ({ s with port := rest } : State).tick := by
  simp [step, State.nextEvent, State.consume, hp, hr]

theorem State.tick_of_idle {s : State} (h : s.busy = false) : s.tick = s := by simp [State.tick, h]

/-- Settles O5: with the sequencer IDLE its part of the step is nothing. -/
theorem stepRunsTheDecodedTransaction : Obligations.StepRunsTheDecodedTransaction := by
  intro s w rest hp hr
  have hstep := step_of_bus hp hr
  refine ⟨hstep, fun hidle => ?_⟩
  have hidle' : ({ s with port := rest } : State).busy = false := hidle
  rw [hstep, State.tick_of_idle hidle']

/-- A number of 21 bits is placed at the head of the port. -/
theorem State.withFetchWord_of_lt (s : State) (nbits : Nat) {w : Nat} (h : w < 2 ^ 21) :
    s.withFetchWord nbits w = s.present (BitVec.ofNat 21 w) := if_pos h

/-- Settles O6: the placed transaction is the head of the port, and taking it leaves the events that stood there. -/
theorem placedTransactionRunsNext : Obligations.PlacedTransactionRunsNext := by
  intro s nbits w hidle hw
  have hidle' : ({ s with rstPin := false } : State).busy = false := hidle
  rw [s.withFetchWord_of_lt nbits hw, step_of_bus (s.present_port _) (s.present_rstPin _)]
  exact congrArg (exec (decode (BitVec.ofNat 21 w))) (State.tick_of_idle hidle')

/-- A step that meets the release of reset is the release alone. -/
theorem step_of_releaseReset {s : State} {rest : List PortEvent} (h : s.port = .releaseReset :: rest) :
    step s = .next ({ s with port := rest } : State).releaseReset := by
  simp [step, State.nextEvent, State.consume, h]

/-- Settles O7: what each kind of event answers, a transaction by its instruction. -/
theorem everyStepAnswersANextState : Obligations.EveryStepAnswersANextState := by
  intro s
  cases hp : s.port with
  | nil => exact ⟨_, step_of_port_nil hp⟩
  | cons e rest =>
    cases e with
    | assertReset => exact ⟨_, step_of_assertReset hp⟩
    | releaseReset => exact ⟨_, step_of_releaseReset hp⟩
    | bus w =>
      cases hr : s.rstPin with
      | true => exact ⟨_, step_of_bus_of_rstPin hp hr⟩
      | false => exact step_of_bus hp hr ▸ exec_answers_next _ _

/-- Settles O14: the read of an IDLE machine. -/
theorem idleReadReturnsTheMappedByte : Obligations.IdleReadReturnsTheMappedByte :=
  fun _ a d hidle => execHostRd_of_idle hidle a d

/-! ### The registers at their addresses -/

/-- ARG0..ARG15 (20_memory.md R71). -/
theorem State.peek_arg (s : State) {i : Nat} (h : i < 16) : s.peek (0x008 + i) = s.arg[i] := by
  rw [State.peek_register _ _ (by omega), if_neg (by omega), if_pos (by omega)]
  simp [List.getD_eq_getElem?_getD, h]

/-- The pipeline result registers (20_memory.md R71). -/
theorem State.peek_pipe (s : State) (i : Fin 36) : s.peek (0x020 + i) = s.pipe.bytes.getD i 0x00#8 := by
  rw [State.peek_register _ _ (by omega), if_neg (by omega), if_neg (by omega), if_neg (by omega),
    Nat.add_sub_cancel_left]

/-- A register file holds its lowest byte at the lowest address: with the bytes above index `i` goes byte `i`
(20_memory.md R75). -/
theorem toNat_append_byteLE {n v i : Nat} {hi : BitVec n} (h : hi.toNat = v / 256 ^ (i + 1)) :
    (hi ++ BitVec.ofNat 8 (v / 256 ^ i)).toNat = v / 256 ^ i := by
  rw [BitVec.toNat_append, h, BitVec.toNat_ofNat, ← Nat.shiftLeft_add_eq_or_of_lt (Nat.mod_lt _ (by decide)),
    Nat.shiftLeft_eq, Nat.pow_succ, ← Nat.div_div_eq_div_mul]
  exact Nat.div_add_mod' _ _

/-- The highest byte of a register file, with the unused bits 0. -/
theorem toNat_top_byteLE {v i : Nat} (h : v < 256 ^ (i + 1)) : (BitVec.ofNat 8 (v / 256 ^ i)).toNat = v / 256 ^ i := by
  rw [BitVec.toNat_ofNat]
  exact Nat.mod_eq_of_lt (Nat.div_lt_of_lt_mul (by rwa [← Nat.pow_succ]))

/-- The two bytes of a DID (10_state.md R45). -/
theorem toNat_didBytes {x : BitVec 12} {b1 b0 : Byte} (h1 : b1 = BitVec.ofNat 8 (x.toNat / 256 ^ 1))
    (h0 : b0 = BitVec.ofNat 8 (x.toNat / 256 ^ 0)) : (b1 ++ b0).toNat = x.toNat := by
  have htop := toNat_top_byteLE (i := 1) (x.isLt.trans (by decide))
  rw [h1, h0]
  exact (toNat_append_byteLE htop).trans (Nat.div_one _)

/-- The five bytes of the NID (10_state.md R46). -/
theorem toNat_nidBytes {x : BitVec 36} {b4 b3 b2 b1 b0 : Byte} (h4 : b4 = BitVec.ofNat 8 (x.toNat / 256 ^ 4))
    (h3 : b3 = BitVec.ofNat 8 (x.toNat / 256 ^ 3)) (h2 : b2 = BitVec.ofNat 8 (x.toNat / 256 ^ 2))
    (h1 : b1 = BitVec.ofNat 8 (x.toNat / 256 ^ 1)) (h0 : b0 = BitVec.ofNat 8 (x.toNat / 256 ^ 0)) :
    (b4 ++ b3 ++ b2 ++ b1 ++ b0).toNat = x.toNat := by
  have htop := toNat_top_byteLE (i := 4) (x.isLt.trans (by decide))
  rw [h4, h3, h2, h1, h0]
  exact (toNat_append_byteLE (toNat_append_byteLE (toNat_append_byteLE (toNat_append_byteLE htop)))).trans
    (Nat.div_one _)

/-- Settles O13: the map's list of registers, the DIDs and the NID put together from their bytes. -/
theorem addressMapOfTheRegisters : Obligations.AddressMapOfTheRegisters := by
  intro s
  have hpipe := s.peek_pipe
  refine ⟨rfl, rfl, rfl, rfl, rfl, rfl, rfl, rfl, fun _ h => s.peek_arg h, fun _ h => s.peek_res h, hpipe 0x00,
    hpipe 0x01, hpipe 0x02, hpipe 0x03, hpipe 0x04, hpipe 0x05, ?rptr, ?dst, ?src, ?nid, hpipe 0x11, hpipe 0x12,
    hpipe 0x13, hpipe 0x14, hpipe 0x15, hpipe 0x16, hpipe 0x17, hpipe 0x18, hpipe 0x19, hpipe 0x1A, hpipe 0x1B,
    hpipe 0x1C, hpipe 0x1D, hpipe 0x1E, hpipe 0x1F, hpipe 0x20, hpipe 0x21, hpipe 0x22, hpipe 0x23⟩
  case rptr => exact toNat_didBytes (hpipe 0x07) (hpipe 0x06)
  case dst => exact toNat_didBytes (hpipe 0x09) (hpipe 0x08)
  case src => exact toNat_didBytes (hpipe 0x0B) (hpipe 0x0A)
  case nid => exact toNat_nidBytes (hpipe 0x10) (hpipe 0x0F) (hpipe 0x0E) (hpipe 0x0D) (hpipe 0x0C)

/-! ### Right after reset -/

/-- A byte nothing has written is the free value of reset 0 (93_implementation_defined.md U1). -/
theorem State.resetOf_peek_buffer (c : Config) {a : Nat} (h : 0x100 ≤ a ∧ a < 0x700) :
    (State.resetOf c).peek a = Config.ramByte 0 a := by
  rw [State.peek_buffer _ _ h]
  rfl

theorem State.resetOf_done (c : Config) : (State.resetOf c).done = false := by
  simp [State.done, State.resetOf]

/-- Settles O9: the register list of the reset state, its empty memory, and DONE, without which IRQ is 0. -/
theorem resetLeavesTheResetValues : Obligations.ResetLeavesTheResetValues := fun c =>
  ⟨fun _ ha => State.resetOf_peek_register c ha, fun _ hlo hhi => State.resetOf_peek_buffer c ⟨hlo, hhi⟩,
    State.resetOf_busy c, State.irq_of_not_done (State.resetOf_done c), rfl⟩

end Sys2Proof.Machine

/-! A command under host traffic (43_control.md R242 to R244, 70_reset_and_hazards.md R301): what the transactions
beside a running command may change, how far it runs through them, and what it leaves at its completion. -/

namespace Sys2Proof.Machine

/-! ### What the host reaches while BUSY -/

/-- `s` with all that a host transaction may change while BUSY taken from `t`: STATUS, CTRL, and what the host port
shows of reads (20_memory.md R81, 43_control.md R244). -/
def State.withHostSide (s t : State) : State :=
  { s with status := t.status, ctrl := t.ctrl, rdata := t.rdata, draws := t.draws }

/-- From `s` on the host has changed its own side only, and the command still runs. -/
structure StillRuns (s t : State) : Prop where
  busy : t.busy = true
  eq : t = s.withHostSide t

theorem State.busyWrite_stillRuns {s : State} (hb : s.busy = true) (a : BusAddr) (d : Byte) :
    StillRuns s (s.busyWrite a d) := by
  refine ⟨(s.busyWrite_busy a d).trans hb, ?_⟩
  rcases s.busyWrite_cases a d with ⟨-, e⟩ | ⟨-, e⟩ | ⟨-, -, e⟩ <;> rw [e] <;> rfl

/-- Every transaction while BUSY stays on the host's side (20_memory.md R83). -/
theorem exec_stillRuns {i : Instr} {s t : State} (hb : s.busy = true) (h : exec i s = .next t) : StillRuns s t := by
  rcases exec_cases h with ⟨op, rfl⟩ | ⟨a, d, -, hr⟩ | ⟨a, d, -, -, -, rfl⟩ | ⟨a, d, -, -, hidle, -⟩
  · exact State.hostCommand_of_busy hb op ▸ State.busyWrite_stillRuns hb _ op
  · rcases execHostRd_cases s a d with ⟨-, -, e⟩ | ⟨-, e⟩ <;>
      · cases e.symm.trans hr
        exact ⟨hb, rfl⟩
  · exact State.busyWrite_stillRuns hb a d
  · exact absurd (hb.symm.trans hidle) (by decide)

/-- `s` with the time of its running command over and `rest` next at the pins. -/
def State.due (s : State) (rest : List PortEvent) : State := { s with left := 0, port := rest }

theorem StillRuns.refl {s : State} (hb : s.busy = true) : StillRuns s s := ⟨hb, rfl⟩

/-- The time a command still takes and the events at the pins are not on the host's side. -/
theorem StillRuns.trans_due {s t v : State} {rest : List PortEvent} (hst : StillRuns s t)
    (htv : StillRuns (t.due rest) v) : StillRuns (s.due rest) v where
  busy := htv.busy
  eq := by
    have hv := htv.eq
    rw [hst.eq] at hv
    exact hv

/-- A step that takes a transaction while BUSY leaves the command one step less (70_reset_and_hazards.md R301). -/
theorem step_of_bus_of_left_succ {s : State} {w : BusWord} {more : List PortEvent} {n : Nat} (hb : s.busy = true)
    (hr : s.rstPin = false) (hl : s.left = n + 1) (hp : s.port = .bus w :: more) :
    ∃ t, step s = .next t ∧ StillRuns { s with port := more, left := n } t := by
  have htick : ({ s with port := more } : State).tick = { s with port := more, left := n } :=
    State.tick_of_left_succ (s := { s with port := more }) hb hl
  obtain ⟨t, ht⟩ := exec_answers_next (decode w) { s with port := more, left := n }
  exact ⟨t, by rw [step_of_bus hp hr, htick, ht], exec_stillRuns (s := { s with port := more, left := n }) hb ht⟩

/-- A command with as many steps left as transactions stand at the port takes them all and is then about to complete
(70_reset_and_hazards.md R301). -/
theorem run_under_traffic {rest : List PortEvent} (ws : List BusWord) {s : State} (hb : s.busy = true)
    (hr : s.rstPin = false) (hl : s.left = ws.length) (hp : s.port = ws.map PortEvent.bus ++ rest) :
    ∃ v : State, Host.Core.run core ws.length s = .next v ∧ StillRuns (s.due rest) v := by
  induction ws generalizing s with
  | nil =>
    have hdue : s.due rest = s := by rw [State.due, ← show s.left = 0 from hl, ← show s.port = rest from hp]
    exact ⟨s, rfl, hdue.symm ▸ .refl hb⟩
  | cons w ws ih =>
    obtain ⟨t, hstep, ht⟩ := step_of_bus_of_left_succ hb hr hl hp
    obtain ⟨v, hrun, hv⟩ := ih ht.busy (by rw [ht.eq]; exact hr) (by rw [ht.eq]; rfl) (by rw [ht.eq]; rfl)
    exact ⟨v, (run_succ_of_step (M := core) hstep _).trans hrun, ht.trans_due hv⟩

/-! ### The completion -/

section Completion

variable {s v : State}

theorem StillRuns.sameRunningCommand (h : StillRuns s v) (hb : s.busy = true) : SameRunningCommand s v := by
  refine ⟨h.busy.trans hb.symm, ?seqOp, ?left, ?inputs, ?res, ?pipe⟩
  all_goals rw [h.eq]
  case inputs => exact ⟨rfl, rfl, rfl, rfl, rfl, rfl, rfl, rfl⟩
  all_goals rfl

/-- The completion shows, outside STATUS and CTRL, what it would have shown without the host's transactions
(20_memory.md R83). -/
theorem StillRuns.finish_peek (h : StillRuns s v) (hb : s.busy = true) {a : Nat} (hs : a ≠ addrStatus)
    (hc : a ≠ addrCtrl) : v.finish.peek a = s.finish.peek a := by
  have hsame := h.sameRunningCommand hb
  have hcmd : v.cmd = s.cmd := by rw [h.eq]; rfl
  have harg : v.arg = s.arg := by rw [h.eq]; rfl
  refine State.peek_congr_ctl (s := s.finish) (t := v.finish) harg hsame.finish_res hsame.finish_pipe hsame.finish_mem
    hsame.inputs.epoch fun ha => ?_
  have hctl : v.finish.ctlBytes =
      [s.cmd, v.finish.status &&& 0x0F#8, s.finish.errCode, v.ctrl &&& 0x01#8, s.pktLen, s.keyCount, s.invKeyCount,
        s.inFlags &&& 0x01#8] := by
    rw [State.ctlBytes, hsame.finish_errCode, State.finish_cmd, State.finish_ctrl, State.finish_pktLen,
      State.finish_keyCount, State.finish_invKeyCount, State.finish_inFlags, hcmd, hsame.inputs.pktLen,
      hsame.inputs.keyCount, hsame.inputs.invKeyCount, hsame.inputs.inFlags]
  rw [hctl]
  match a, hs, hc, ha with
  | 0, _, _, _ | 2, _, _, _ | 4, _, _, _ | 5, _, _, _ | 6, _, _, _ | 7, _, _, _ => rfl

/-- BUSY, DONE and ERR at a completion depend on the error code only (43_control.md R243). -/
theorem statusComplete_reads (st code : Byte) :
    statusComplete st code &&& 0x0F#8 &&& 0x07#8 = if code = 0x00#8 then 0x02#8 else 0x06#8 := by
  unfold statusComplete
  split <;> (revert st; decide)

theorem StillRuns.finish_status (h : StillRuns s v) (hb : s.busy = true) :
    v.finish.peek addrStatus &&& 0x07#8 = s.finish.peek addrStatus &&& 0x07#8 := by
  rw [State.peek_status, State.peek_status, State.finish_status, State.finish_status,
    (h.sameRunningCommand hb).effect, statusComplete_reads, statusComplete_reads]

end Completion

/-- A completion leaves BUSY_WR (43_control.md R243). -/
theorem State.finish_busyWr (s : State) :
    (s.finish.peek addrStatus).getLsbD 3 = (s.peek addrStatus).getLsbD 3 := by
  obtain ⟨-, -, -, hbit, -⟩ := statusComplete_bits s.status (effectOf s.seqOp s).err.code
  rw [State.peek_status, State.peek_status, BitVec.getLsbD_and, BitVec.getLsbD_and, State.finish_status, hbit]

/-- What a completion does does not depend on the events at the pins. -/
theorem State.finish_withPort (s : State) (port : List PortEvent) :
    State.finish { s with port := port } = { s.finish with port := port } := by
  have heffect : effectOf s.seqOp { s with port := port } = effectOf s.seqOp s :=
    effectOf_congr (s := s) (t := { s with port := port }) ⟨rfl, rfl, rfl, rfl, rfl, rfl, rfl, rfl⟩ s.seqOp
  rw [State.finish_eq, State.finish_eq, heffect]

/-- The address map shows neither the events at the pins nor the time a command took. -/
theorem State.finish_due_peek (s : State) (rest : List PortEvent) (a : Nat) :
    (s.due rest).finish.peek a = (State.finish { s with left := 0 }).peek a := by
  have hfinish : (s.due rest).finish = { State.finish { s with left := 0 } with port := rest } :=
    State.finish_withPort { s with left := 0 } rest
  rw [hfinish]
  rfl

/-- Settles O56: the command runs through the transactions with its inputs as they were at its start, so that its
completion is that of the prompt command beside what the host wrote. -/
theorem slowCommandCompletesUnderTraffic : Obligations.SlowCommandCompletesUnderTraffic := by
  rintro s op n ws rest hidle hpin hn rfl hport
  have hstarted : (s.startCommand op).busy = true := s.startCommand_busy op
  obtain ⟨v, hrun, hv⟩ :=
    run_under_traffic ws (s := { s.startCommand op with left := ws.length }) hstarted hpin rfl hport
  change StillRuns ((s.startCommand op).due rest) v at hv
  have hleft : v.left = 0 := by rw [hv.eq]; rfl
  have hrest : v.port = rest := by rw [hv.eq]; rfl
  have hreset : v.rstPin = false := by rw [hv.eq]; exact hpin
  refine ⟨{ s.startCommand op with left := ws.length }, v, v.finish,
    (State.finish { s.startCommand op with left := 0 }).withLatency (.fixed 0), ?started, hrun, hv.busy, ?prompt,
    ?quiet, ?transaction, ?map, ?status, v.finish_busyWr, rfl, hrest, ⟨rfl, rfl, rfl, rfl⟩, ⟨rfl, rfl⟩⟩
  case started => rw [exec_command, State.hostCommand_of_slow hidle hn]
  case prompt => rw [exec_command, State.hostCommand_withLatency_zero hidle]
  case quiet =>
    intro hnil
    rw [step_of_port_nil (hrest.trans hnil), State.tick_of_left_zero hv.busy hleft]
  case transaction =>
    intro w more hcons
    have hstep := step_completes_then_transacts hv.busy hleft hreset (hrest.trans hcons)
    exact hstep.trans (congrArg (exec (decode w)) (v.finish_withPort more))
  case map =>
    exact fun a _ hs hc => (hv.finish_peek hstarted hs hc).trans (State.finish_due_peek _ rest a)
  case status =>
    exact (hv.finish_status hstarted).trans (congrArg (· &&& 0x07#8) (State.finish_due_peek _ rest addrStatus))

end Sys2Proof.Machine
